-- ==== Sys2Proof/Word.lean ====
section
/-! DEFINITION. The word types of the hardware (00_scope.md R9, R10): command and response words, bytes of data
memory, and the eight-bit values that element registers and coefficients hold. -/

namespace Sys2Proof

/-- A command word, a response data word, a CRC generator or a CRC register: XLEN = GW = 32 bits (R9). -/
abbrev Word := BitVec 32

/-- A byte of data memory or a CRC input byte (R33, R52). -/
abbrev Byte := BitVec 8

/-- The contents of an element register and one coefficient of a polynomial register: W = 8 bits (R9, R21). -/
abbrev Elem := BitVec 8

/-- A coefficient list, index 0 the highest degree term, leading zeros allowed (R13, R27, R29). -/
abbrev Poly := List Elem

end Sys2Proof
end

