-- ==== Sys2Proof/Config.lean ====
section
/-! DEFINITION. What is fixed for this hardware: the parameters of 00_scope.md R9 at the values R9 gives them, and the
one free value the spec leaves open (10_state.md R37). The widths W = 8, GW = 32 and XLEN = 32 are the types of
Word.lean; the counts NE = 16, NP = 8 and NC = 4 are the index types of Syntax.lean. -/

namespace Sys2Proof.Config

/-- NMAX, the largest raw coefficient-list length of a polynomial register (R9). -/
abbrev nmax : Nat := 64

/-- DSIZE, the bytes of data memory (R9, R50). -/
abbrev dsize : Nat := 4096

/-- The byte DMEM holds at an address nothing has written since power-up: 'an arbitrary, fixed function of the
address' (93_implementation_defined.md U1; R37: 'A model must not assume it is zero'). A FREE VALUE, no body, so no
proof can rest on what it is. DESIGN CHOICE among the two forms R37 offers; log 4; safe. -/
opaque powerUpByte : Nat → Byte

end Sys2Proof.Config
end

