-- ==== Sys2Proof/Syntax.lean ====
section
/-! DEFINITION. The command set GFP-CMD 1.0 as syntax: one constructor per row of the opcode map (30_encoding.md R78),
in the order of the map. A register index is a bounded number, so an index out of range (R72) is no operand. -/

namespace Sys2Proof

/-- Number of an element register E0..E15, NE = 16 (R9, R21). -/
abbrev EReg := Fin 16

/-- Number of a polynomial register P0..P7, NP = 8 (R9, R27). -/
abbrev PReg := Fin 8

/-- Number of a CRC context C0..C3, NC = 4 (R9, R31). -/
abbrev CCtx := Fin 4

/-- The 55 commands of R78. Operands stand in the order of the syntax column (R80). The constructor `for_` is FOR
(the plain name is a Lean keyword). -/
inductive Instr where
  /-- FLI, R103: an element from a signed immediate. -/
  | fli (ed : EReg) (simm : BitVec 16)
  /-- FLD, R104: an element from a byte of DMEM. -/
  | fld (ed : EReg) (addr : BitVec 12)
  /-- FST, R105: an element to DMEM. -/
  | fst (es : EReg) (addr : BitVec 12)
  /-- FRD, R106: read an element out. -/
  | frd (ea : EReg)
  /-- FEQ, R107: equality of two elements, into T. -/
  | feq (ea eb : EReg)
  /-- FADD, R108: operator +. -/
  | fadd (ed ea eb : EReg)
  /-- FSUB, R109: operator -. -/
  | fsub (ed ea eb : EReg)
  /-- FMUL, R110: operator *. -/
  | fmul (ed ea eb : EReg)
  /-- FDIV, R111: operator / and //. -/
  | fdiv (ed ea eb : EReg)
  /-- FMOD, R112: operator %. -/
  | fmod (ed ea eb : EReg)
  /-- FPOW, R113: operator **. -/
  | fpow (ed ea eb : EReg)
  /-- FSHL, R114: operator <<. -/
  | fshl (ed ea eb : EReg)
  /-- FSHR, R115: operator >>. -/
  | fshr (ed ea eb : EReg)
  /-- FAND, R116: operator &. -/
  | fand (ed ea eb : EReg)
  /-- FOR, R117: operator |. -/
  | for_ (ed ea eb : EReg)
  /-- FXOR, R118: operator ^. -/
  | fxor (ed ea eb : EReg)
  /-- FNEG, R119: operator neg. -/
  | fneg (ed ea : EReg)
  /-- FPOS, R120: operator pos. -/
  | fpos (ed ea : EReg)
  /-- FABS, R121: operator abs. -/
  | fabs (ed ea : EReg)
  /-- FINV, R122: operator invert. -/
  | finv (ed ea : EReg)
  /-- FROUND, R123: operator round. -/
  | fround (ed ea : EReg)
  /-- FTRUNC, R124: operator trunc. -/
  | ftrunc (ed ea : EReg)
  /-- FFLOOR, R125: operator floor. -/
  | ffloor (ed ea : EReg)
  /-- FCEIL, R126: operator ceil. -/
  | fceil (ed ea : EReg)
  /-- PLD, R155: a polynomial from DMEM. -/
  | pld (pd : PReg) (cnt : BitVec 8) (addr : BitVec 12)
  /-- PST, R156: the raw coefficient list to DMEM. -/
  | pst (ps : PReg) (addr : BitVec 12)
  /-- PLEN, R157: read the raw length. -/
  | plen (pa : PReg)
  /-- PDEG, R158: read the degree. -/
  | pdeg (pa : PReg)
  /-- PGRADE, R159: to_grade(n). -/
  | pgrade (pd pa : PReg) (n : BitVec 16)
  /-- PSHORT, R160: the shortened form. -/
  | pshort (pd pa : PReg)
  /-- PSHL, R161: multiply by x^n. -/
  | pshl (pd pa : PReg) (n : BitVec 16)
  /-- PADD, R162: sum. -/
  | padd (pd pa pb : PReg)
  /-- PSUB, R163: difference. -/
  | psub (pd pa pb : PReg)
  /-- PMUL, R164: product. -/
  | pmul (pd pa pb : PReg)
  /-- PSCALE, R165: multiply by a scalar. -/
  | pscale (pd pa : PReg) (eb : EReg)
  /-- PDIVMOD, R184: quotient and remainder. -/
  | pdivmod (pq pr pa pb : PReg)
  /-- PDIV, R185: quotient. -/
  | pdiv (pd pa pb : PReg)
  /-- PMOD, R186: remainder. -/
  | pmod (pd pa pb : PReg)
  /-- PPOW, R166: power(n). -/
  | ppow (pd pa : PReg) (n : BitVec 16)
  /-- PEVAL, R167: evaluation. -/
  | peval (ed : EReg) (pa : PReg) (eb : EReg)
  /-- PEQ, R168: equality, into T. -/
  | peq (pa pb : PReg)
  /-- PGT, R169: greater than, into T. -/
  | pgt (pa pb : PReg)
  /-- PNZ, R170: not the zero polynomial, into T. -/
  | pnz (pa : PReg)
  /-- CGENL, R201: load the low half of a generator. -/
  | cgenl (c : CCtx) (imm : BitVec 16)
  /-- CGENH, R202: load the high half of a generator. -/
  | cgenh (c : CCtx) (imm : BitVec 16)
  /-- CINIT, R203: start a new stream. -/
  | cinit (c : CCtx)
  /-- CBYTE, R205: feed one byte. -/
  | cbyte (c : CCtx) (imm : BitVec 8)
  /-- CBUF, R206: feed bytes from DMEM. -/
  | cbuf (c : CCtx) (cnt : BitVec 8) (addr : BitVec 12)
  /-- CRD, R207: read the remainder. -/
  | crd (c : CCtx)
  /-- NOP, R223: do nothing. -/
  | nop
  /-- SETMOD, R224: choose the field. -/
  | setmod (m : BitVec 16)
  /-- RDCSR, R225: read a control and status register. -/
  | rdcsr (n : BitVec 16)
  /-- ERRCLR, R226: acknowledge a fault. -/
  | errclr
  /-- STB, R227: the host writes one byte of DMEM. -/
  | stb (addr : BitVec 12) (imm : BitVec 8)
  /-- LDB, R228: the host reads one byte of DMEM. -/
  | ldb (addr : BitVec 12)
deriving DecidableEq, Repr

end Sys2Proof
end

