-- ==== Sys2Proof/WellFormed.lean ====
section
/-! DEFINITION. When a command, as syntax, has an encoding (30_encoding.md R73 step 3). Register indices and immediate
widths are already right by the types of Syntax.lean. -/

namespace Sys2Proof

/-- Every command is well formed, but a PDIVMOD whose two destinations are one register: 'rd and rc must differ;
otherwise the word is illegal' (R73 step 3, R184). -/
def Instr.wellFormed : Instr → Bool
  | .pdivmod pq pr _ _ => decide (pq ≠ pr)
  | _ => true

end Sys2Proof
end

