-- ==== Sys2Proof/Decode.lean ====
section
/-! DEFINITION. The decoder of 30_encoding.md R73, total on all 2^32 words, the encoder of the same formats (R71), and
the mask and match columns of the opcode map (R78). -/

namespace Sys2Proof

/-- Why a word does not decode. Each is the one fault IllegalCommand (R73, R75, R252); the finer names are the
model's (log 14). -/
inductive DecodeError where
  /-- The opcode is in no row of R78 (R73 step 1). -/
  | reservedOpcode
  /-- A field that the row does not use is not zero (R73 step 2). -/
  | nonzeroField
  /-- A polynomial register index is 8 to 15 (R73 step 2). -/
  | polyIndex
  /-- A CRC context index is 4 to 15 (R73 step 2). -/
  | contextIndex
  /-- PDIVMOD with rd = rc (R73 step 3). -/
  | sameDestination
deriving DecidableEq, Repr

/-- What the decoder answers. -/
abbrev Decoded := Except DecodeError Instr

/-! The fields of a word (R71). -/

/-- Bits 31:24, the opcode in every format. -/
def opcode (w : Word) : BitVec 8 := w.extractLsb' 24 8

/-- Bits 23:20, `rd` in every format. -/
def fieldRd (w : Word) : BitVec 4 := w.extractLsb' 20 4

/-- Bits 19:16, `ra` of formats R and I. -/
def fieldRa (w : Word) : BitVec 4 := w.extractLsb' 16 4

/-- Bits 15:12, `rb` of format R. -/
def fieldRb (w : Word) : BitVec 4 := w.extractLsb' 12 4

/-- Bits 11:8, `rc` of format R. -/
def fieldRc (w : Word) : BitVec 4 := w.extractLsb' 8 4

/-- Bits 7:0, the field of format R that is zero in every command. -/
def fieldZero (w : Word) : BitVec 8 := w.extractLsb' 0 8

/-- Bits 15:0, `imm16` of format I. -/
def fieldImm (w : Word) : BitVec 16 := w.extractLsb' 0 16

/-- Bits 19:12, `b8` of format M. -/
def fieldB8 (w : Word) : BitVec 8 := w.extractLsb' 12 8

/-- Bits 11:0, `addr` of format M. -/
def fieldAddr (w : Word) : BitVec 12 := w.extractLsb' 0 12

/-! The checks of R73 step 2, each handing a good field on to the rest of the decoding. -/

/-- An element register index: every value of the field is one (R72). -/
def eIndex (f : BitVec 4) : EReg := ⟨f.toNat, f.isLt⟩

/-- A polynomial register index must be below 8 (R72). -/
def withP (f : BitVec 4) (k : PReg → Decoded) : Decoded :=
  if h : f.toNat < 8 then k ⟨f.toNat, h⟩ else .error .polyIndex

/-- A CRC context index must be below 4 (R72). -/
def withC (f : BitVec 4) (k : CCtx → Decoded) : Decoded :=
  if h : f.toNat < 4 then k ⟨f.toNat, h⟩ else .error .contextIndex

/-- The fields the row does not use must be zero. -/
def withZero (unused : Bool) (k : Decoded) : Decoded :=
  if unused then k else .error .nonzeroField

/-! One decoder for each operand shape of R78, named after the fields it uses. -/

/-- rd=E, ra=0, imm16. -/
def decEImm (w : Word) (k : EReg → BitVec 16 → Instr) : Decoded :=
  withZero (fieldRa w == 0) (.ok (k (eIndex (fieldRd w)) (fieldImm w)))

/-- rd=E, b8=0, addr. -/
def decEAddr (w : Word) (k : EReg → BitVec 12 → Instr) : Decoded :=
  withZero (fieldB8 w == 0) (.ok (k (eIndex (fieldRd w)) (fieldAddr w)))

/-- rd=0, ra=E, rb=0, rc=0. -/
def decReadE (w : Word) (k : EReg → Instr) : Decoded :=
  withZero (fieldRd w == 0 && fieldRb w == 0 && fieldRc w == 0 && fieldZero w == 0) (.ok (k (eIndex (fieldRa w))))

/-- rd=0, ra=E, rb=E, rc=0. -/
def decTestEE (w : Word) (k : EReg → EReg → Instr) : Decoded :=
  withZero (fieldRd w == 0 && fieldRc w == 0 && fieldZero w == 0) (.ok (k (eIndex (fieldRa w)) (eIndex (fieldRb w))))

/-- rd=E, ra=E, rb=E, rc=0. -/
def decEEE (w : Word) (k : EReg → EReg → EReg → Instr) : Decoded :=
  withZero (fieldRc w == 0 && fieldZero w == 0)
    (.ok (k (eIndex (fieldRd w)) (eIndex (fieldRa w)) (eIndex (fieldRb w))))

/-- rd=E, ra=E, rb=0, rc=0. -/
def decEE (w : Word) (k : EReg → EReg → Instr) : Decoded :=
  withZero (fieldRb w == 0 && fieldRc w == 0 && fieldZero w == 0) (.ok (k (eIndex (fieldRd w)) (eIndex (fieldRa w))))

/-- rd=P, b8=cnt, addr. -/
def decPCntAddr (w : Word) (k : PReg → BitVec 8 → BitVec 12 → Instr) : Decoded :=
  withP (fieldRd w) fun pd => .ok (k pd (fieldB8 w) (fieldAddr w))

/-- rd=P, b8=0, addr. -/
def decPAddr (w : Word) (k : PReg → BitVec 12 → Instr) : Decoded :=
  withZero (fieldB8 w == 0) (withP (fieldRd w) fun ps => .ok (k ps (fieldAddr w)))

/-- rd=0, ra=P, rb=0, rc=0. -/
def decReadP (w : Word) (k : PReg → Instr) : Decoded :=
  withZero (fieldRd w == 0 && fieldRb w == 0 && fieldRc w == 0 && fieldZero w == 0)
    (withP (fieldRa w) fun pa => .ok (k pa))

/-- rd=P, ra=P, imm16. -/
def decPPImm (w : Word) (k : PReg → PReg → BitVec 16 → Instr) : Decoded :=
  withP (fieldRd w) fun pd => withP (fieldRa w) fun pa => .ok (k pd pa (fieldImm w))

/-- rd=P, ra=P, rb=0, rc=0. -/
def decPP (w : Word) (k : PReg → PReg → Instr) : Decoded :=
  withZero (fieldRb w == 0 && fieldRc w == 0 && fieldZero w == 0)
    (withP (fieldRd w) fun pd => withP (fieldRa w) fun pa => .ok (k pd pa))

/-- rd=P, ra=P, rb=P, rc=0. -/
def decPPP (w : Word) (k : PReg → PReg → PReg → Instr) : Decoded :=
  withZero (fieldRc w == 0 && fieldZero w == 0)
    (withP (fieldRd w) fun pd => withP (fieldRa w) fun pa => withP (fieldRb w) fun pb => .ok (k pd pa pb))

/-- rd=P, ra=P, rb=E, rc=0. -/
def decPPE (w : Word) (k : PReg → PReg → EReg → Instr) : Decoded :=
  withZero (fieldRc w == 0 && fieldZero w == 0)
    (withP (fieldRd w) fun pd => withP (fieldRa w) fun pa => .ok (k pd pa (eIndex (fieldRb w))))

/-- rd=P (quotient), ra=P, rb=P, rc=P (remainder), rd and rc different (R73 step 3). -/
def decPPPP (w : Word) (k : PReg → PReg → PReg → PReg → Instr) : Decoded :=
  withZero (fieldZero w == 0)
    (withP (fieldRd w) fun pq => withP (fieldRc w) fun pr => withP (fieldRa w) fun pa => withP (fieldRb w) fun pb =>
      if pq = pr then .error .sameDestination else .ok (k pq pr pa pb))

/-- rd=E, ra=P, rb=E, rc=0. -/
def decEPE (w : Word) (k : EReg → PReg → EReg → Instr) : Decoded :=
  withZero (fieldRc w == 0 && fieldZero w == 0)
    (withP (fieldRa w) fun pa => .ok (k (eIndex (fieldRd w)) pa (eIndex (fieldRb w))))

/-- rd=0, ra=P, rb=P, rc=0. -/
def decTestPP (w : Word) (k : PReg → PReg → Instr) : Decoded :=
  withZero (fieldRd w == 0 && fieldRc w == 0 && fieldZero w == 0)
    (withP (fieldRa w) fun pa => withP (fieldRb w) fun pb => .ok (k pa pb))

/-- rd=C, ra=0, imm16. -/
def decCImm (w : Word) (k : CCtx → BitVec 16 → Instr) : Decoded :=
  withZero (fieldRa w == 0) (withC (fieldRd w) fun c => .ok (k c (fieldImm w)))

/-- rd=C, ra=0, rb=0, rc=0. -/
def decC (w : Word) (k : CCtx → Instr) : Decoded :=
  withZero (fieldRa w == 0 && fieldRb w == 0 && fieldRc w == 0 && fieldZero w == 0)
    (withC (fieldRd w) fun c => .ok (k c))

/-- rd=C, b8=byte, addr=0. -/
def decCByte (w : Word) (k : CCtx → BitVec 8 → Instr) : Decoded :=
  withZero (fieldAddr w == 0) (withC (fieldRd w) fun c => .ok (k c (fieldB8 w)))

/-- rd=C, b8=cnt, addr. -/
def decCCntAddr (w : Word) (k : CCtx → BitVec 8 → BitVec 12 → Instr) : Decoded :=
  withC (fieldRd w) fun c => .ok (k c (fieldB8 w) (fieldAddr w))

/-- rd=0, ra=C, rb=0, rc=0. -/
def decReadC (w : Word) (k : CCtx → Instr) : Decoded :=
  withZero (fieldRd w == 0 && fieldRb w == 0 && fieldRc w == 0 && fieldZero w == 0)
    (withC (fieldRa w) fun c => .ok (k c))

/-- All fields zero. -/
def decBare (w : Word) (i : Instr) : Decoded :=
  withZero (fieldRd w == 0 && fieldRa w == 0 && fieldRb w == 0 && fieldRc w == 0 && fieldZero w == 0) (.ok i)

/-- rd=0, ra=0, imm16. -/
def decImm (w : Word) (k : BitVec 16 → Instr) : Decoded :=
  withZero (fieldRd w == 0 && fieldRa w == 0) (.ok (k (fieldImm w)))

/-- rd=0, b8=byte, addr. -/
def decByteAddr (w : Word) (k : BitVec 12 → BitVec 8 → Instr) : Decoded :=
  withZero (fieldRd w == 0) (.ok (k (fieldAddr w) (fieldB8 w)))

/-- rd=0, b8=0, addr. -/
def decAddr (w : Word) (k : BitVec 12 → Instr) : Decoded :=
  withZero (fieldRd w == 0 && fieldB8 w == 0) (.ok (k (fieldAddr w)))

/-- The decoder of R73: 'a total function of the 32-bit word'. The opcodes are those of R78; every other opcode is
reserved (R75). -/
def decode (w : Word) : Decoded :=
  match (opcode w).toNat with
  | 0x10 => decEImm w .fli
  | 0x11 => decEAddr w .fld
  | 0x12 => decEAddr w .fst
  | 0x13 => decReadE w .frd
  | 0x14 => decTestEE w .feq
  | 0x18 => decEEE w .fadd
  | 0x19 => decEEE w .fsub
  | 0x1A => decEEE w .fmul
  | 0x1B => decEEE w .fdiv
  | 0x1C => decEEE w .fmod
  | 0x1D => decEEE w .fpow
  | 0x1E => decEEE w .fshl
  | 0x1F => decEEE w .fshr
  | 0x20 => decEEE w .fand
  | 0x21 => decEEE w .for_
  | 0x22 => decEEE w .fxor
  | 0x28 => decEE w .fneg
  | 0x29 => decEE w .fpos
  | 0x2A => decEE w .fabs
  | 0x2B => decEE w .finv
  | 0x2C => decEE w .fround
  | 0x2D => decEE w .ftrunc
  | 0x2E => decEE w .ffloor
  | 0x2F => decEE w .fceil
  | 0x40 => decPCntAddr w .pld
  | 0x41 => decPAddr w .pst
  | 0x42 => decReadP w .plen
  | 0x43 => decReadP w .pdeg
  | 0x44 => decPPImm w .pgrade
  | 0x45 => decPP w .pshort
  | 0x46 => decPPImm w .pshl
  | 0x48 => decPPP w .padd
  | 0x49 => decPPP w .psub
  | 0x4A => decPPP w .pmul
  | 0x4B => decPPE w .pscale
  | 0x4C => decPPPP w .pdivmod
  | 0x4D => decPPP w .pdiv
  | 0x4E => decPPP w .pmod
  | 0x4F => decPPImm w .ppow
  | 0x50 => decEPE w .peval
  | 0x51 => decTestPP w .peq
  | 0x52 => decTestPP w .pgt
  | 0x53 => decReadP w .pnz
  | 0x60 => decCImm w .cgenl
  | 0x61 => decCImm w .cgenh
  | 0x62 => decC w .cinit
  | 0x63 => decCByte w .cbyte
  | 0x64 => decCCntAddr w .cbuf
  | 0x65 => decReadC w .crd
  | 0x00 => decBare w .nop
  | 0x01 => decImm w .setmod
  | 0x02 => decImm w .rdcsr
  | 0x03 => decBare w .errclr
  | 0x04 => decByteAddr w .stb
  | 0x05 => decAddr w .ldb
  | _ => .error .reservedOpcode

/-- The instruction the decoder reads from a table word: every command is one 32-bit word (R70), and its bits above
`nbits` are zero. -/
def decodeTableWord (nbits w : Nat) : Option Instr :=
  match decode (BitVec.ofNat 32 (w % 2 ^ nbits)) with
  | .ok i => some i
  | .error _ => none

/-! The encoder: the three formats of R71 and one word for each command. -/

/-- Format R: op, rd, ra, rb, rc and the zero field. -/
def fmtR (op : BitVec 8) (rd ra rb rc : BitVec 4) : Word := op ++ rd ++ ra ++ rb ++ rc ++ (0 : BitVec 8)

/-- Format I: op, rd, ra, imm16. -/
def fmtI (op : BitVec 8) (rd ra : BitVec 4) (imm : BitVec 16) : Word := op ++ rd ++ ra ++ imm

/-- Format M: op, rd, b8, addr. -/
def fmtM (op : BitVec 8) (rd : BitVec 4) (b8 : BitVec 8) (addr : BitVec 12) : Word := op ++ rd ++ b8 ++ addr

/-- An element register index in its field. -/
def regE (r : EReg) : BitVec 4 := BitVec.ofNat 4 r.val

/-- A polynomial register index in its field. -/
def regP (r : PReg) : BitVec 4 := BitVec.ofNat 4 r.val

/-- A CRC context index in its field. -/
def regC (r : CCtx) : BitVec 4 := BitVec.ofNat 4 r.val

/-- The word of a well-formed command (R71, R78). PDIVMOD has rd=pq, ra=pa, rb=pb, rc=pr (R80). -/
def encode : Instr → Word
  | .fli ed simm => fmtI 0x10#8 (regE ed) 0 simm
  | .fld ed addr => fmtM 0x11#8 (regE ed) 0 addr
  | .fst ed addr => fmtM 0x12#8 (regE ed) 0 addr
  | .frd ea => fmtR 0x13#8 0 (regE ea) 0 0
  | .feq ea eb => fmtR 0x14#8 0 (regE ea) (regE eb) 0
  | .fadd ed ea eb => fmtR 0x18#8 (regE ed) (regE ea) (regE eb) 0
  | .fsub ed ea eb => fmtR 0x19#8 (regE ed) (regE ea) (regE eb) 0
  | .fmul ed ea eb => fmtR 0x1A#8 (regE ed) (regE ea) (regE eb) 0
  | .fdiv ed ea eb => fmtR 0x1B#8 (regE ed) (regE ea) (regE eb) 0
  | .fmod ed ea eb => fmtR 0x1C#8 (regE ed) (regE ea) (regE eb) 0
  | .fpow ed ea eb => fmtR 0x1D#8 (regE ed) (regE ea) (regE eb) 0
  | .fshl ed ea eb => fmtR 0x1E#8 (regE ed) (regE ea) (regE eb) 0
  | .fshr ed ea eb => fmtR 0x1F#8 (regE ed) (regE ea) (regE eb) 0
  | .fand ed ea eb => fmtR 0x20#8 (regE ed) (regE ea) (regE eb) 0
  | .for_ ed ea eb => fmtR 0x21#8 (regE ed) (regE ea) (regE eb) 0
  | .fxor ed ea eb => fmtR 0x22#8 (regE ed) (regE ea) (regE eb) 0
  | .fneg ed ea => fmtR 0x28#8 (regE ed) (regE ea) 0 0
  | .fpos ed ea => fmtR 0x29#8 (regE ed) (regE ea) 0 0
  | .fabs ed ea => fmtR 0x2A#8 (regE ed) (regE ea) 0 0
  | .finv ed ea => fmtR 0x2B#8 (regE ed) (regE ea) 0 0
  | .fround ed ea => fmtR 0x2C#8 (regE ed) (regE ea) 0 0
  | .ftrunc ed ea => fmtR 0x2D#8 (regE ed) (regE ea) 0 0
  | .ffloor ed ea => fmtR 0x2E#8 (regE ed) (regE ea) 0 0
  | .fceil ed ea => fmtR 0x2F#8 (regE ed) (regE ea) 0 0
  | .pld pd cnt addr => fmtM 0x40#8 (regP pd) cnt addr
  | .pst ps addr => fmtM 0x41#8 (regP ps) 0 addr
  | .plen pa => fmtR 0x42#8 0 (regP pa) 0 0
  | .pdeg pa => fmtR 0x43#8 0 (regP pa) 0 0
  | .pgrade pd pa n => fmtI 0x44#8 (regP pd) (regP pa) n
  | .pshort pd pa => fmtR 0x45#8 (regP pd) (regP pa) 0 0
  | .pshl pd pa n => fmtI 0x46#8 (regP pd) (regP pa) n
  | .padd pd pa pb => fmtR 0x48#8 (regP pd) (regP pa) (regP pb) 0
  | .psub pd pa pb => fmtR 0x49#8 (regP pd) (regP pa) (regP pb) 0
  | .pmul pd pa pb => fmtR 0x4A#8 (regP pd) (regP pa) (regP pb) 0
  | .pscale pd pa eb => fmtR 0x4B#8 (regP pd) (regP pa) (regE eb) 0
  | .pdivmod pq pr pa pb => fmtR 0x4C#8 (regP pq) (regP pa) (regP pb) (regP pr)
  | .pdiv pd pa pb => fmtR 0x4D#8 (regP pd) (regP pa) (regP pb) 0
  | .pmod pd pa pb => fmtR 0x4E#8 (regP pd) (regP pa) (regP pb) 0
  | .ppow pd pa n => fmtI 0x4F#8 (regP pd) (regP pa) n
  | .peval ed pa eb => fmtR 0x50#8 (regE ed) (regP pa) (regE eb) 0
  | .peq pa pb => fmtR 0x51#8 0 (regP pa) (regP pb) 0
  | .pgt pa pb => fmtR 0x52#8 0 (regP pa) (regP pb) 0
  | .pnz pa => fmtR 0x53#8 0 (regP pa) 0 0
  | .cgenl c imm => fmtI 0x60#8 (regC c) 0 imm
  | .cgenh c imm => fmtI 0x61#8 (regC c) 0 imm
  | .cinit c => fmtR 0x62#8 (regC c) 0 0 0
  | .cbyte c imm => fmtM 0x63#8 (regC c) imm 0
  | .cbuf c cnt addr => fmtM 0x64#8 (regC c) cnt addr
  | .crd c => fmtR 0x65#8 0 (regC c) 0 0
  | .nop => fmtR 0x00#8 0 0 0 0
  | .setmod n => fmtI 0x01#8 0 0 n
  | .rdcsr n => fmtI 0x02#8 0 0 n
  | .errclr => fmtR 0x03#8 0 0 0 0
  | .stb addr imm => fmtM 0x04#8 0 imm addr
  | .ldb addr => fmtM 0x05#8 0 0 addr

/-! The mask and match columns of R78, as spec/opcode_table.json has them, for the one test of R73 step 2. -/

/-- A row of the opcode map: 'Both steps are one test, (word & mask) == match' (R73). -/
structure OpcodeRow where
  mnemonic : String
  mask : Word
  pattern : Word
deriving DecidableEq, Repr

/-- Rows FLI to FCEIL of R78. -/
def gfmrRows : List OpcodeRow :=
  [⟨"FLI", 0xFF0F0000#32, 0x10000000#32⟩,
   ⟨"FLD", 0xFF0FF000#32, 0x11000000#32⟩,
   ⟨"FST", 0xFF0FF000#32, 0x12000000#32⟩,
   ⟨"FRD", 0xFFF0FFFF#32, 0x13000000#32⟩,
   ⟨"FEQ", 0xFFF00FFF#32, 0x14000000#32⟩,
   ⟨"FADD", 0xFF000FFF#32, 0x18000000#32⟩,
   ⟨"FSUB", 0xFF000FFF#32, 0x19000000#32⟩,
   ⟨"FMUL", 0xFF000FFF#32, 0x1A000000#32⟩,
   ⟨"FDIV", 0xFF000FFF#32, 0x1B000000#32⟩,
   ⟨"FMOD", 0xFF000FFF#32, 0x1C000000#32⟩,
   ⟨"FPOW", 0xFF000FFF#32, 0x1D000000#32⟩,
   ⟨"FSHL", 0xFF000FFF#32, 0x1E000000#32⟩,
   ⟨"FSHR", 0xFF000FFF#32, 0x1F000000#32⟩,
   ⟨"FAND", 0xFF000FFF#32, 0x20000000#32⟩,
   ⟨"FOR", 0xFF000FFF#32, 0x21000000#32⟩,
   ⟨"FXOR", 0xFF000FFF#32, 0x22000000#32⟩,
   ⟨"FNEG", 0xFF00FFFF#32, 0x28000000#32⟩,
   ⟨"FPOS", 0xFF00FFFF#32, 0x29000000#32⟩,
   ⟨"FABS", 0xFF00FFFF#32, 0x2A000000#32⟩,
   ⟨"FINV", 0xFF00FFFF#32, 0x2B000000#32⟩,
   ⟨"FROUND", 0xFF00FFFF#32, 0x2C000000#32⟩,
   ⟨"FTRUNC", 0xFF00FFFF#32, 0x2D000000#32⟩,
   ⟨"FFLOOR", 0xFF00FFFF#32, 0x2E000000#32⟩,
   ⟨"FCEIL", 0xFF00FFFF#32, 0x2F000000#32⟩]

/-- Rows PLD to PNZ of R78. -/
def pldeRows : List OpcodeRow :=
  [⟨"PLD", 0xFF800000#32, 0x40000000#32⟩,
   ⟨"PST", 0xFF8FF000#32, 0x41000000#32⟩,
   ⟨"PLEN", 0xFFF8FFFF#32, 0x42000000#32⟩,
   ⟨"PDEG", 0xFFF8FFFF#32, 0x43000000#32⟩,
   ⟨"PGRADE", 0xFF880000#32, 0x44000000#32⟩,
   ⟨"PSHORT", 0xFF88FFFF#32, 0x45000000#32⟩,
   ⟨"PSHL", 0xFF880000#32, 0x46000000#32⟩,
   ⟨"PADD", 0xFF888FFF#32, 0x48000000#32⟩,
   ⟨"PSUB", 0xFF888FFF#32, 0x49000000#32⟩,
   ⟨"PMUL", 0xFF888FFF#32, 0x4A000000#32⟩,
   ⟨"PSCALE", 0xFF880FFF#32, 0x4B000000#32⟩,
   ⟨"PDIVMOD", 0xFF8888FF#32, 0x4C000000#32⟩,
   ⟨"PDIV", 0xFF888FFF#32, 0x4D000000#32⟩,
   ⟨"PMOD", 0xFF888FFF#32, 0x4E000000#32⟩,
   ⟨"PPOW", 0xFF880000#32, 0x4F000000#32⟩,
   ⟨"PEVAL", 0xFF080FFF#32, 0x50000000#32⟩,
   ⟨"PEQ", 0xFFF88FFF#32, 0x51000000#32⟩,
   ⟨"PGT", 0xFFF88FFF#32, 0x52000000#32⟩,
   ⟨"PNZ", 0xFFF8FFFF#32, 0x53000000#32⟩]

/-- Rows CGENL to CRD of R78. -/
def csxrRows : List OpcodeRow :=
  [⟨"CGENL", 0xFFCF0000#32, 0x60000000#32⟩,
   ⟨"CGENH", 0xFFCF0000#32, 0x61000000#32⟩,
   ⟨"CINIT", 0xFFCFFFFF#32, 0x62000000#32⟩,
   ⟨"CBYTE", 0xFFC00FFF#32, 0x63000000#32⟩,
   ⟨"CBUF", 0xFFC00000#32, 0x64000000#32⟩,
   ⟨"CRD", 0xFFFCFFFF#32, 0x65000000#32⟩]

/-- Rows NOP to LDB of R78. -/
def systemRows : List OpcodeRow :=
  [⟨"NOP", 0xFFFFFFFF#32, 0x00000000#32⟩,
   ⟨"SETMOD", 0xFFFF0000#32, 0x01000000#32⟩,
   ⟨"RDCSR", 0xFFFF0000#32, 0x02000000#32⟩,
   ⟨"ERRCLR", 0xFFFFFFFF#32, 0x03000000#32⟩,
   ⟨"STB", 0xFFF00000#32, 0x04000000#32⟩,
   ⟨"LDB", 0xFFFFF000#32, 0x05000000#32⟩]
/-- All 55 rows of R78, in its order. -/
def opcodeRows : List OpcodeRow := gfmrRows ++ pldeRows ++ csxrRows ++ systemRows

/-- The word passes the test of R73 step 2 for the row. -/
def OpcodeRow.accepts (r : OpcodeRow) (w : Word) : Bool := (w &&& r.mask) == r.pattern

end Sys2Proof
end

