-- ==== Sys2Proof/Machine/State.lean ====
section
/-! DEFINITION. The state of the machine as plain data: the architectural state of 10_state.md R20, the host port of
44_system_and_host.md R220, and the value of each field after reset (R36). -/

namespace Sys2Proof.Machine

/-- A CRC context: GEN and REG (R31). The width L is computed from `gen`, never stored. -/
structure CrcContext where
  gen : Word
  reg : Word
deriving DecidableEq, Repr

/-- The response record (ok, data) (R74). -/
structure Response where
  ok : Bool
  data : Word
deriving DecidableEq, Repr

/-- What the host does at the port: it presents a command word, or it asserts `rst` (R220, R270). -/
inductive HostEvent where
  | command (w : Word)
  | rst
deriving DecidableEq, Repr

/-- The faults of R241. Each is TAKEN: the step answers a next state (R246), so none of them is a `Fault` below. -/
inductive FaultCode where
  | divideByZeroPolynomial
  /-- Reserved: no state and no command raises it (R243). -/
  | crossFieldOperand
  | rawArithmetic
  | inexactLeadingQuotient
  | lengthOverflow
  | illegalCommand
  | addressRange
  | illegalModulus
deriving DecidableEq, Repr

/-- DMEM as the list of the bytes written since power-up, addresses strictly rising (R33, R37). An address that is not
listed holds no written byte; what a command reads there is `Config.powerUpByte` (log 4). -/
abbrev Memory := List Host.Cell

/-- Everything the spec gives the machine (R20), then the model's own fields for the port (R220). -/
structure State where
  /-- E0..E15 (R21). -/
  e : Vector Elem 16
  /-- P0..P7 (R27). -/
  p : Vector Poly 8
  /-- C0..C3 (R31). -/
  c : Vector CrcContext 4
  /-- MOD, 9 bits (R24). -/
  modulus : BitVec 9
  /-- STATUS.T (R25). -/
  t : Bool
  /-- STATUS.ERR, also the level of the output `err` (R25, R220). -/
  err : Bool
  /-- CAUSE, 4 bits (R26). -/
  cause : BitVec 4
  /-- EINFO (R26). -/
  einfo : Word
  /-- DMEM (R33). -/
  dmem : Memory
  /-- Model's own: the word on `cmd[31:0]` of the command being executed (R220; log 3). -/
  cmd : Word
  /-- Model's own: the response the latest step presented, none where it accepted no command (R74; log 2). -/
  rsp : Option Response
  /-- Model's own: what the host presents and the core has not yet taken, oldest first (R20, R222; log 1). -/
  events : List HostEvent
deriving DecidableEq, Repr

/-- No fault stops this machine: 'There is no double-fault condition and no fault that stops the hardware' (R256), and
`step` is total (R222). The type has no constructor (log 13; safe). -/
inductive Fault where
deriving DecidableEq, Repr

/-- Why exec can refuse an instruction. -/
inductive Refusal where
  /-- Raised only by an arm of exec whose instruction has no meaning yet; there is none, so no step answers it.
  Safe: it stops where the hardware goes on. -/
  | notModelled (mnemonic : String)
deriving DecidableEq, Repr

/-- What a step or a meaning answers. -/
abbrev Result := Host.Outcome State Fault Refusal

/-- The machine after power-on reset: the table of R36, DMEM with nothing written yet (R37), and an idle port. -/
def State.reset : State where
  e := Vector.replicate 16 0
  p := Vector.replicate 8 []
  c := Vector.replicate 4 ⟨0, 0⟩
  modulus := 2
  t := false
  err := false
  cause := 0
  einfo := 0
  dmem := []
  cmd := 0
  rsp := none
  events := []

end Sys2Proof.Machine
end

