-- ==== Sys2Proof/Machine/Ops.lean ====
section
/-! DEFINITION. The named operations every meaning is built from: DMEM (20_memory.md), the register files (10_state.md),
completing a command and taking a fault (44_system_and_host.md R222, 60_exceptions.md R246 to R249), and reset
(70_reset_and_hazards.md R271). -/

namespace Sys2Proof.Machine

/-! ### DMEM -/

/-- The byte written at an address since power-up, if any. -/
def Memory.find : Memory → Nat → Option Byte
  | [], _ => none
  | (b, v) :: rest, a => if a = b then some v else Memory.find rest a

/-- The memory after a byte is written: the entry goes to its place in the rising order, or replaces the old one. -/
def Memory.insert : Memory → Nat → Byte → Memory
  | [], a, x => [(a, x)]
  | (b, v) :: rest, a, x =>
    if a < b then (a, x) :: (b, v) :: rest
    else if a = b then (a, x) :: rest
    else (b, v) :: Memory.insert rest a x

/-- Addresses strictly rise from `lo`, and all are below DSIZE. -/
def Memory.risesFrom : Nat → Memory → Bool
  | _, [] => true
  | lo, (a, _) :: rest => decide (lo ≤ a) && decide (a < Config.dsize) && Memory.risesFrom (a + 1) rest

/-- The canonical form: strictly rising addresses inside DMEM. An unlisted address holds no written byte, so no entry
can equal what an unlisted address holds. -/
def Memory.wf (m : Memory) : Bool := Memory.risesFrom 0 m

/-- The byte a read of one address returns: the one most recently written (R58), else the unspecified byte of power-up
(R37). -/
def State.readByte (s : State) (a : Nat) : Byte := (s.dmem.find a).getD (Config.powerUpByte a)

/-- The state after one byte is written. -/
def State.writeByte (s : State) (a : Nat) (b : Byte) : State := { s with dmem := s.dmem.insert a b }

/-- The bytes of a list at consecutive addresses, lowest first. -/
def State.readBytes (s : State) (a : Nat) : Nat → List Byte
  | 0 => []
  | n + 1 => s.readByte a :: s.readBytes (a + 1) n

/-- The state after a list of bytes is written at consecutive addresses, lowest first. -/
def State.writeBytes (s : State) (a : Nat) : List Byte → State
  | [] => s
  | b :: bs => (s.writeByte a b).writeBytes (a + 1) bs

/-- MemRead(addr, n) (R12) with the range rule R53: checked once, before the first byte; n = 0 never faults. -/
def State.memRead (s : State) (a n : Nat) : Except FaultCode (List Byte) :=
  if n ≠ 0 ∧ Config.dsize < a + n then .error .addressRange else .ok (s.readBytes a n)

/-- MemWrite(addr, n, v) (R12), n being the length of v, with the range rule R53. -/
def State.memWrite (s : State) (a : Nat) (bs : List Byte) : Except FaultCode State :=
  if bs.length ≠ 0 ∧ Config.dsize < a + bs.length then .error .addressRange else .ok (s.writeBytes a bs)

/-! ### Registers (R12) -/

/-- MOD as an integer (R24). -/
def State.m (s : State) : Nat := s.modulus.toNat

/-- `E[i]`. -/
def State.elem (s : State) (i : EReg) : Elem := s.e[i]

/-- `E[i] <- v`. -/
def State.setElem (s : State) (i : EReg) (v : Elem) : State := { s with e := s.e.set i v }

/-- `P[i]`, the whole list. -/
def State.poly (s : State) (i : PReg) : Poly := s.p[i]

/-- `P[i] <- c`, a whole list. -/
def State.setPoly (s : State) (i : PReg) (c : Poly) : State := { s with p := s.p.set i c }

/-- `C[i].GEN`. -/
def State.gen (s : State) (i : CCtx) : Word := s.c[i].gen

/-- `C[i].REG`. -/
def State.reg (s : State) (i : CCtx) : Word := s.c[i].reg

/-- `C[i].REG <- r`. -/
def State.setReg (s : State) (i : CCtx) (r : Word) : State := { s with c := s.c.set i { s.c[i] with reg := r } }

/-- `C[i].GEN <- g; C[i].REG <- 0`: every write of a generator clears the register (R201, R202). -/
def State.loadGen (s : State) (i : CCtx) (g : Word) : State := { s with c := s.c.set i ⟨g, 0⟩ }

/-! ### Completing, faulting, dropping (R222) -/

/-- The code written to CAUSE (R241). -/
def FaultCode.code : FaultCode → BitVec 4
  | .divideByZeroPolynomial => 1
  | .crossFieldOperand => 2
  | .rawArithmetic => 3
  | .inexactLeadingQuotient => 4
  | .lengthOverflow => 5
  | .illegalCommand => 6
  | .addressRange => 7
  | .illegalModulus => 8

/-- A command completed: response (1, v) (R74). -/
def State.respond (s : State) (v : Word) : State := { s with rsp := some ⟨true, v⟩ }

/-- A word dropped: response (0, 0) and no change of any state (R248). -/
def State.drop (s : State) : State := { s with rsp := some ⟨false, 0⟩ }

/-- FAULT ENTRY, the one way a fault is taken: 'ERR <- 1; CAUSE <- code(F); EINFO <- the 32-bit command word; the
response is (0, 0)'; 'Nothing else changes' (R246). -/
def State.takeFault (s : State) (f : FaultCode) : State :=
  { s with err := true, cause := f.code, einfo := s.cmd, rsp := some ⟨false, 0⟩ }

/-- RETURN from the error state: 'ERR <- 0; CAUSE <- 0; EINFO <- 0. Nothing is restored' (R249). -/
def State.clearFault (s : State) : State := { s with err := false, cause := 0, einfo := 0 }

/-- The course of a decoded command (R222): dropped while ERR = 1 (R250 step 1); else its body, worked out from the
state it found, completes with a new state and a data word, or raises a fault, which discards every write (R247). -/
def State.execute (s : State) (body : Except FaultCode (State × Word)) : Result :=
  if s.err then .next s.drop
  else
    match body with
    | .ok (s', v) => .next (s'.respond v)
    | .error f => .next (s.takeFault f)

/-- A command that changes state and returns no data: response (1, 0). -/
def State.command (s : State) (body : Except FaultCode State) : Result :=
  s.execute (body.map fun s' => (s', 0))

/-- A read command: no state changes, response (1, v) (R74). -/
def State.query (s : State) (v : Word) : Result := s.execute (.ok (s, v))

/-! ### Reset -/

/-- The effect of `rst`: every piece of state at its reset value, DMEM unchanged (R271), what the host presents next
untouched. A command in progress has no effect and no response (R270). -/
def State.applyReset (s : State) : State := { State.reset with dmem := s.dmem, events := s.events }

end Sys2Proof.Machine
end

