-- ==== Sys2Proof/Machine/Operands.lean ====
section
/-! DEFINITION. The operand forms of 30_encoding.md R72 as values, and the one reduction into the field (00_scope.md
R11, 40_gf_modular_reduce.md R100). -/

namespace Sys2Proof.Machine

/-- `z mod m` of R11, the floored, always non-negative remainder, as an element. For the legal moduli 2..256 the
remainder fits the eight bits (R22); a state with another modulus is never reached (log 11). -/
def reduce (m : Nat) (z : Int) : Elem := BitVec.ofInt 8 (z % (m : Int))

/-- FLI's immediate, `sext_32(imm16)`, as an integer in -32768..32767 (R72, R10). -/
def signedImm (imm : BitVec 16) : Int := imm.toInt

/-- Every other immediate, a count or a byte, as an unsigned integer (R72). -/
def unsignedImm {w : Nat} (imm : BitVec w) : Nat := imm.toNat

/-- A DMEM address, 0..4095 (R72). -/
def address (a : BitVec 12) : Nat := a.toNat

/-- A byte of DMEM made an element: `b mod MOD` (R56). -/
def elemOfByte (m : Nat) (b : Byte) : Elem := reduce m b.toNat

/-- A plain integer in a response, `zext_32` (R10). -/
def zext (v : BitVec 8) : Word := v.setWidth 32

end Sys2Proof.Machine
end

