-- ==== Sys2Proof/Machine/Crc.lean ====
section
/-! DEFINITION. Unit CSXR: the byte step of 43_crc_shift_xor.md R204 and its six commands R201 to R207. It touches
neither MOD nor E, P or T. -/

namespace Sys2Proof.Machine

/-- `bitlen(g)` (R11): the least n with g < 2^n; the register width L of a context (R31). -/
def bitlen (g : Word) : Nat := if g = 0 then 0 else Nat.log2 g.toNat + 1

/-- The n low bits of the widest intermediate, L + 8 <= 40 bits (R204, R208 (d)). -/
def lowMask (n : Nat) : BitVec 40 := BitVec.ofNat 40 (2 ^ n - 1)

/-- Step i of R204: if test bit L + 6 - i is set, XOR the generator with its top bit aligned on it. -/
def crcStep (gen : Word) (comb : BitVec 40) (i : Nat) : BitVec 40 :=
  if comb.getLsbD (bitlen gen + 6 - i) then comb ^^^ (gen.setWidth 40 <<< (7 - i)) else comb

/-- `cbyte(reg, gen, b)` of R204 for a generator that is not 0: eight steps, both masks kept. -/
def crcByte (gen reg : Word) (b : Byte) : Word :=
  let comb := ((reg.setWidth 40 <<< 8) ||| b.setWidth 40) &&& lowMask (bitlen gen + 8)
  let comb := (List.range 8).foldl (crcStep gen) comb
  (comb &&& lowMask (bitlen gen)).setWidth 32

/-- `cbyte` with its fault: a zero generator raises DivideByZeroPolynomial (R204, R242). -/
def cbyte (reg gen : Word) (b : Byte) : Except FaultCode Word :=
  if gen = 0 then .error .divideByZeroPolynomial else .ok (crcByte gen reg b)

/-- CGENL (R201): `GEN <- zext_32(imm16); REG <- 0`. -/
def execCgenl (c : CCtx) (imm : BitVec 16) (s : State) : Result :=
  s.command (.ok (s.loadGen c (imm.setWidth 32)))

/-- CGENH (R202): `GEN <- (imm16 << 16) | GEN[15:0]; REG <- 0`. -/
def execCgenh (c : CCtx) (imm : BitVec 16) (s : State) : Result :=
  s.command (.ok (s.loadGen c (imm ++ (s.gen c).extractLsb' 0 16)))

/-- CINIT (R203): `REG <- 0`, legal when GEN = 0. -/
def execCinit (c : CCtx) (s : State) : Result := s.command (.ok (s.setReg c 0))

/-- CBYTE (R205). -/
def execCbyte (c : CCtx) (imm : BitVec 8) (s : State) : Result :=
  s.command ((cbyte (s.reg c) (s.gen c) imm).map (s.setReg c))

/-- The body of CBUF (R206) on the bytes read: the zero generator is checked also when there are none. -/
def cbufBody (reg gen : Word) (bytes : List Byte) : Except FaultCode Word :=
  if gen = 0 then .error .divideByZeroPolynomial else .ok (bytes.foldl (crcByte gen) reg)

/-- CBUF (R206): AddressRange is checked before the generator; bytes are used raw, lowest address first. -/
def execCbuf (c : CCtx) (cnt : BitVec 8) (addr : BitVec 12) (s : State) : Result :=
  s.command
    (match s.memRead (address addr) (unsignedImm cnt) with
     | .error f => .error f
     | .ok bytes => (cbufBody (s.reg c) (s.gen c) bytes).map (s.setReg c))

/-- CRD (R207): `resp(C[c].REG)`; reading does not clear it. -/
def execCrd (c : CCtx) (s : State) : Result := s.query (s.reg c)

end Sys2Proof.Machine
end

