-- ==== Sys2Proof/Machine/Flags.lean ====
section
/-! DEFINITION. The flags of 10_state.md R25 and the control and status registers as RDCSR sees them (R34). -/

namespace Sys2Proof.Machine

/-- `T <- b`, done by FEQ, PEQ, PGT and PNZ only (R25). -/
def State.setT (s : State) (b : Bool) : State := { s with t := b }

/-- STATUS: bit 0 ERR, bit 1 T, bits 31:2 zero (R34). -/
def State.status (s : State) : Word := (0 : BitVec 30) ++ BitVec.ofBool s.t ++ BitVec.ofBool s.err

/-- `CSR[n]`: 0 STATUS, 1 CAUSE, 2 EINFO, 3 MOD, zero-extended; 4 and above are reserved and hold nothing (R34). -/
def State.csr (s : State) (n : Nat) : Option Word :=
  match n with
  | 0 => some s.status
  | 1 => some (s.cause.setWidth 32)
  | 2 => some s.einfo
  | 3 => some (s.modulus.setWidth 32)
  | _ => none

/-- The output `err`, 'always equal to the flag ERR' (R220). -/
def State.errPin (s : State) : Bool := s.err

end Sys2Proof.Machine
end

