-- ==== Sys2Proof/Machine/Field.lean ====
section
/-! DEFINITION. Unit GFMR: the function `fop` of 40_gf_modular_reduce.md R101 and the 24 commands on element
registers (R103 to R126). -/

namespace Sys2Proof.Machine

/-- The operators of R101. -/
inductive FieldOp where
  | add | sub | mul | div | rem | pow | shl | shr | and | or | xor
  | neg | pos | abs | invert | round | trunc | floor | ceil
deriving DecidableEq, Repr

/-- `raw_o(a, b)` of R101, on unbounded integers: 'no intermediate width, no wrap-around' (R100). Unary operators do
not look at b. The divisions by 0 are cut off before this is used (`fopChecked`). -/
def rawOp (o : FieldOp) (a b : Nat) : Int :=
  match o with
  | .add => (a : Int) + b
  | .sub => (a : Int) - b
  | .mul => (a : Int) * b
  | .div => ((a / b : Nat) : Int)
  | .rem => ((a % b : Nat) : Int)
  | .pow => ((a ^ b : Nat) : Int)
  | .shl => ((a * 2 ^ b : Nat) : Int)
  | .shr => ((a / 2 ^ b : Nat) : Int)
  | .and => ((a &&& b : Nat) : Int)
  | .or => ((a ||| b : Nat) : Int)
  | .xor => ((a ^^^ b : Nat) : Int)
  | .neg => -(a : Int)
  | .pos => a
  | .abs => |(a : Int)|
  | .invert => -(a : Int) - 1
  | .round => a
  | .trunc => a
  | .floor => a
  | .ceil => a

/-- `fop(o, a, b)` of R101 where it raises nothing: the raw result reduced `mod MOD`. -/
def fop (o : FieldOp) (m : Nat) (a b : Elem) : Elem := reduce m (rawOp o a.toNat b.toNat)

/-- `fop` with its fault column: RawArithmetic for `div` and `rem` when b = 0 (R101, R244). -/
def fopChecked (o : FieldOp) (m : Nat) (a b : Elem) : Except FaultCode Elem :=
  if (o = .div ∨ o = .rem) ∧ b = 0 then .error .rawArithmetic else .ok (fop o m a b)

/-- What R108 to R118 share: `E[ed] <- fop(o, E[ea], E[eb])`, sources read first (R102, R129). -/
def execBinary (o : FieldOp) (ed ea eb : EReg) (s : State) : Result :=
  s.command ((fopChecked o s.m (s.elem ea) (s.elem eb)).map (s.setElem ed))

/-- What R119 to R126 share: `E[ed] <- fop(o, E[ea])` (R102, R130). -/
def execUnary (o : FieldOp) (ed ea : EReg) (s : State) : Result :=
  s.command (.ok (s.setElem ed (fop o s.m (s.elem ea) 0)))

/-- FLI (R103): `E[ed] <- sext_32(imm16) mod MOD`. -/
def execFli (ed : EReg) (simm : BitVec 16) (s : State) : Result :=
  s.command (.ok (s.setElem ed (reduce s.m (signedImm simm))))

/-- FLD (R104): `E[ed] <- MemRead(addr, 1)[0] mod MOD`. -/
def execFld (ed : EReg) (addr : BitVec 12) (s : State) : Result :=
  s.command ((s.memRead (address addr) 1).map fun bytes => s.setElem ed (elemOfByte s.m (bytes.headD 0)))

/-- FST (R105): `MemWrite(addr, 1, [E[es]])`. -/
def execFst (es : EReg) (addr : BitVec 12) (s : State) : Result :=
  s.command (s.memWrite (address addr) [s.elem es])

/-- FRD (R106): `resp(zext_32(E[ea]))`. -/
def execFrd (ea : EReg) (s : State) : Result := s.query (zext (s.elem ea))

/-- FEQ (R107): `T <- (E[ea] = E[eb])`. -/
def execFeq (ea eb : EReg) (s : State) : Result :=
  s.command (.ok (s.setT (decide (s.elem ea = s.elem eb))))

/-- FADD (R108). -/
def execFadd (ed ea eb : EReg) (s : State) : Result := execBinary .add ed ea eb s

/-- FSUB (R109). -/
def execFsub (ed ea eb : EReg) (s : State) : Result := execBinary .sub ed ea eb s

/-- FMUL (R110): integer product, reduced; not a GF(2^m) product (R283). -/
def execFmul (ed ea eb : EReg) (s : State) : Result := execBinary .mul ed ea eb s

/-- FDIV (R111): integer division, RawArithmetic when the divisor is 0. -/
def execFdiv (ed ea eb : EReg) (s : State) : Result := execBinary .div ed ea eb s

/-- FMOD (R112): integer remainder, RawArithmetic when the divisor is 0. -/
def execFmod (ed ea eb : EReg) (s : State) : Result := execBinary .rem ed ea eb s

/-- FPOW (R113): exponent 0 gives 1 for every base. -/
def execFpow (ed ea eb : EReg) (s : State) : Result := execBinary .pow ed ea eb s

/-- FSHL (R114): the count is the whole value of `E[eb]`, and nothing is cut off before the reduction. -/
def execFshl (ed ea eb : EReg) (s : State) : Result := execBinary .shl ed ea eb s

/-- FSHR (R115). -/
def execFshr (ed ea eb : EReg) (s : State) : Result := execBinary .shr ed ea eb s

/-- FAND (R116). -/
def execFand (ed ea eb : EReg) (s : State) : Result := execBinary .and ed ea eb s

/-- FOR (R117). -/
def execFor (ed ea eb : EReg) (s : State) : Result := execBinary .or ed ea eb s

/-- FXOR (R118). -/
def execFxor (ed ea eb : EReg) (s : State) : Result := execBinary .xor ed ea eb s

/-- FNEG (R119). -/
def execFneg (ed ea : EReg) (s : State) : Result := execUnary .neg ed ea s

/-- FPOS (R120). -/
def execFpos (ed ea : EReg) (s : State) : Result := execUnary .pos ed ea s

/-- FABS (R121). -/
def execFabs (ed ea : EReg) (s : State) : Result := execUnary .abs ed ea s

/-- FINV (R122): the complement of an unbounded two's-complement integer, reduced. -/
def execFinv (ed ea : EReg) (s : State) : Result := execUnary .invert ed ea s

/-- FROUND (R123). -/
def execFround (ed ea : EReg) (s : State) : Result := execUnary .round ed ea s

/-- FTRUNC (R124). -/
def execFtrunc (ed ea : EReg) (s : State) : Result := execUnary .trunc ed ea s

/-- FFLOOR (R125). -/
def execFfloor (ed ea : EReg) (s : State) : Result := execUnary .floor ed ea s

/-- FCEIL (R126). -/
def execFceil (ed ea : EReg) (s : State) : Result := execUnary .ceil ed ea s

end Sys2Proof.Machine
end

