-- ==== Sys2Proof/Machine/Poly.lean ====
section
/-! DEFINITION. The helper functions on coefficient lists of 41_polynomial_ops.md R140 to R153 and the long division
of 42_polynomial_long_div.md R180. Lists stand highest degree first; `m` is MOD. Every coefficient operation is `fop`
(R154 (g)). -/

namespace Sys2Proof.Machine

/-- `zeros(n)` (R13). -/
def zeros (n : Nat) : Poly := List.replicate n 0

/-- `shortened(c)` (R142): the canonical form, leading zeros dropped. -/
def shortened : Poly → Poly
  | [] => []
  | v :: c => if v = 0 then shortened c else v :: c

/-- `deg(c)` (R140): scanned from the front; -1 for a list of zeros or the empty list. -/
def deg (c : Poly) : Int := ((shortened c).length : Int) - 1

/-- `deg(c) = -1` (R140, R170). -/
def isZeroPoly (c : Poly) : Bool := (shortened c).isEmpty

/-- `lead(c)` (R140), the first non-zero entry; used only where deg(c) >= 0. -/
def lead (c : Poly) : Elem := (shortened c).headD 0

/-- `mkpoly(c)` (R141): a zero polynomial becomes `[]`, any other list keeps its padding. -/
def mkpoly (c : Poly) : Poly := if isZeroPoly c then [] else c

/-- The body of `tograde(c, n)` (R143): the raw length becomes exactly n. Dropped entries are NOT checked (R280). -/
def regrade (c : Poly) (n : Nat) : Poly :=
  if c.length ≤ n then zeros (n - c.length) ++ c else c.drop (c.length - n)

/-- `tograde(c, n)` (R143). -/
def tograde (c : Poly) (n : Nat) : Except FaultCode Poly :=
  if Config.nmax < n then .error .lengthOverflow else .ok (regrade c n)

/-- `match(a, b)` (R144): both lists at the larger raw length. It 'cannot overflow since both lengths are at most
NMAX', so the check of `tograde` is left out here (log 8). -/
def matchGrades (a b : Poly) : Poly × Poly :=
  let n := max a.length b.length
  (regrade a n, regrade b n)

/-- Entry by entry `fop(o, a'[i], b'[i])` on matched lists, then `mkpoly`: what R145 and R146 share. -/
def combine (o : FieldOp) (m : Nat) (a b : Poly) : Poly :=
  mkpoly (List.zipWith (fop o m) (matchGrades a b).1 (matchGrades a b).2)

/-- `padd(a, b)` (R145). -/
def padd (m : Nat) (a b : Poly) : Poly := combine .add m a b

/-- `psub(a, b)` (R146). -/
def psub (m : Nat) (a b : Poly) : Poly := combine .sub m a b

/-- `pscale(a, s)` (R147). -/
def pscale (m : Nat) (a : Poly) (s : Elem) : Poly := mkpoly (a.map fun v => fop .mul m v s)

/-- The body of `pshl(a, n)` (R148): n zeros at the low end. -/
def shiftUp (a : Poly) (n : Nat) : Poly := mkpoly (a ++ zeros n)

/-- `pshl(a, n)` (R148): the length check is on `len(a) + n` whether or not a is zero. -/
def pshl (a : Poly) (n : Nat) : Except FaultCode Poly :=
  if Config.nmax < a.length + n then .error .lengthOverflow else .ok (shiftUp a n)

/-- The loop of `pmul` (R149) over the coefficients v of `a` from the low end, n being v's position. -/
def pmulLoop (m : Nat) (b : Poly) : List Elem → Nat → Poly → Except FaultCode Poly
  | [], _, acc => .ok acc
  | v :: vs, n, acc =>
    if v = 0 then pmulLoop m b vs (n + 1) acc
    else
      match pshl b n with
      | .error f => .error f
      | .ok sh => pmulLoop m b vs (n + 1) (padd m acc (pscale m sh v))

/-- `pmul(a, b)` (R149), a being `self` and b being `other`. -/
def pmul (m : Nat) (a b : Poly) : Except FaultCode Poly :=
  if isZeroPoly a || isZeroPoly b then .ok [] else pmulLoop m b a.reverse 0 []

/-- k more products `acc <- pmul(acc, a)` (R150). -/
def ppowLoop (m : Nat) (a : Poly) : Nat → Poly → Except FaultCode Poly
  | 0, acc => .ok acc
  | k + 1, acc =>
    match pmul m acc a with
    | .error f => .error f
    | .ok acc' => ppowLoop m a k acc'

/-- `ppow(a, n)` (R150): `[1]` for n = 0, a itself with its padding for n = 1, else n - 1 products. -/
def ppow (m : Nat) (a : Poly) (n : Nat) : Except FaultCode Poly :=
  match n with
  | 0 => .ok [1]
  | k + 1 => ppowLoop m a k a

/-- `peval(a, x)` (R151), by the Horner form the rule gives: `r <- (r*x + a[i]) mod m`. -/
def peval (m : Nat) (a : Poly) (x : Elem) : Elem :=
  a.foldl (fun r v => fop .add m (fop .mul m r x) v) 0

/-- The first differing term decides (R152); lists of one length. -/
def firstGreater : Poly → Poly → Bool
  | x :: xs, y :: ys => if x = y then firstGreater xs ys else decide (y.toNat < x.toNat)
  | _, _ => false

/-- `pgt(a, b)` (R152): by degree, then by the shortened coefficients from the highest degree down. -/
def pgt (a b : Poly) : Bool :=
  if deg a = deg b then firstGreater (shortened a) (shortened b) else decide (deg b < deg a)

/-- `peq(a, b)` (R153). -/
def peq (a b : Poly) : Bool := decide (shortened a = shortened b)

/-! ### Long division -/

/-- The loop of `pdivmod`, step 4 of R180: `dv` the shortened divisor, `n` the degree of the quotient, `q` the raw
quotient list, `r` the remainder. The first argument bounds the iterations: the loop runs at most n + 1 times (R183),
so the bound never ends it (log 9). A term computed at degree deg(dv) + k stands at index n - k (R181); an inexact one
raises InexactLeadingQuotient (R182). `pshl(dv, k)` never overflows here (R180), so it is `shiftUp` (log 9). -/
def divLoop (m : Nat) (dv : Poly) (n : Nat) : Nat → Poly → Poly → Except FaultCode (Poly × Poly)
  | 0, q, r => .ok (q, r)
  | fuel + 1, q, r =>
    if deg r < deg dv then .ok (q, r)
    else
      let k := (deg r - deg dv).toNat
      if (lead r).toNat % (lead dv).toNat ≠ 0 then .error .inexactLeadingQuotient
      else
        let t := fop .div m (lead r) (lead dv)
        divLoop m dv n fuel (q.set (n - k) t) (shortened (psub m r (pscale m (shiftUp dv k) t)))

/-- `pdivmod(a, d)` (R180): the quotient and the remainder, or a fault. -/
def pdivmod (m : Nat) (a d : Poly) : Except FaultCode (Poly × Poly) :=
  if isZeroPoly d then .error .divideByZeroPolynomial
  else if deg a < deg d then .ok ([], a)
  else
    let n := (deg a - deg d).toNat
    (divLoop m (shortened d) n (n + 1) (zeros (n + 1)) (shortened a)).map fun (q, r) => (mkpoly q, r)

end Sys2Proof.Machine
end

