-- ==== Sys2Proof/Machine/PolyCommands.lean ====
section
/-! DEFINITION. Unit PLDE: the 16 polynomial commands of 41_polynomial_ops.md R155 to R170 and the three division
commands of 42_polynomial_long_div.md R184 to R186. Sources are read in full before any destination is written and a
fault writes nothing (R154). -/

namespace Sys2Proof.Machine

/-- PLD (R155): LengthOverflow is checked before AddressRange; every byte is reduced, then `mkpoly`. -/
def execPld (pd : PReg) (cnt : BitVec 8) (addr : BitVec 12) (s : State) : Result :=
  s.command
    (if Config.nmax < unsignedImm cnt then .error .lengthOverflow
     else (s.memRead (address addr) (unsignedImm cnt)).map fun bytes =>
       s.setPoly pd (mkpoly (bytes.map (elemOfByte s.m))))

/-- PST (R156): `MemWrite(addr, LEN(P[ps]), P[ps])`. -/
def execPst (ps : PReg) (addr : BitVec 12) (s : State) : Result :=
  s.command (s.memWrite (address addr) (s.poly ps))

/-- PLEN (R157): the raw length. -/
def execPlen (pa : PReg) (s : State) : Result := s.query (BitVec.ofNat 32 (s.poly pa).length)

/-- PDEG (R158): the degree in two's complement, 0xFFFFFFFF for -1. -/
def execPdeg (pa : PReg) (s : State) : Result := s.query (BitVec.ofInt 32 (deg (s.poly pa)))

/-- PGRADE (R159). -/
def execPgrade (pd pa : PReg) (n : BitVec 16) (s : State) : Result :=
  s.command ((tograde (s.poly pa) (unsignedImm n)).map (s.setPoly pd))

/-- PSHORT (R160). -/
def execPshort (pd pa : PReg) (s : State) : Result :=
  s.command (.ok (s.setPoly pd (shortened (s.poly pa))))

/-- PSHL (R161). -/
def execPshl (pd pa : PReg) (n : BitVec 16) (s : State) : Result :=
  s.command ((pshl (s.poly pa) (unsignedImm n)).map (s.setPoly pd))

/-- PADD (R162). -/
def execPadd (pd pa pb : PReg) (s : State) : Result :=
  s.command (.ok (s.setPoly pd (padd s.m (s.poly pa) (s.poly pb))))

/-- PSUB (R163). -/
def execPsub (pd pa pb : PReg) (s : State) : Result :=
  s.command (.ok (s.setPoly pd (psub s.m (s.poly pa) (s.poly pb))))

/-- PMUL (R164): `pa` is self, `pb` is other. -/
def execPmul (pd pa pb : PReg) (s : State) : Result :=
  s.command ((pmul s.m (s.poly pa) (s.poly pb)).map (s.setPoly pd))

/-- PSCALE (R165). -/
def execPscale (pd pa : PReg) (eb : EReg) (s : State) : Result :=
  s.command (.ok (s.setPoly pd (pscale s.m (s.poly pa) (s.elem eb))))

/-- PPOW (R166). -/
def execPpow (pd pa : PReg) (n : BitVec 16) (s : State) : Result :=
  s.command ((ppow s.m (s.poly pa) (unsignedImm n)).map (s.setPoly pd))

/-- PEVAL (R167). -/
def execPeval (ed : EReg) (pa : PReg) (eb : EReg) (s : State) : Result :=
  s.command (.ok (s.setElem ed (peval s.m (s.poly pa) (s.elem eb))))

/-- PEQ (R168). -/
def execPeq (pa pb : PReg) (s : State) : Result :=
  s.command (.ok (s.setT (peq (s.poly pa) (s.poly pb))))

/-- PGT (R169). -/
def execPgt (pa pb : PReg) (s : State) : Result :=
  s.command (.ok (s.setT (pgt (s.poly pa) (s.poly pb))))

/-- PNZ (R170): `T <- (deg(P[pa]) != -1)`. -/
def execPnz (pa : PReg) (s : State) : Result :=
  s.command (.ok (s.setT (!isZeroPoly (s.poly pa))))

/-- PDIVMOD (R184): one register as both destinations is IllegalCommand, a check of the decoder (R73) that the rule's
pseudocode repeats. -/
def execPdivmod (pq pr pa pb : PReg) (s : State) : Result :=
  s.command
    (if pq = pr then .error .illegalCommand
     else (pdivmod s.m (s.poly pa) (s.poly pb)).map fun (q, r) => (s.setPoly pq q).setPoly pr r)

/-- PDIV (R185): 'the whole division is performed', so it faults as PDIVMOD does. -/
def execPdiv (pd pa pb : PReg) (s : State) : Result :=
  s.command ((pdivmod s.m (s.poly pa) (s.poly pb)).map fun (q, _) => s.setPoly pd q)

/-- PMOD (R186). -/
def execPmod (pd pa pb : PReg) (s : State) : Result :=
  s.command ((pdivmod s.m (s.poly pa) (s.poly pb)).map fun (_, r) => s.setPoly pd r)

end Sys2Proof.Machine
end

