-- ==== Sys2Proof/Machine/System.lean ====
section
/-! DEFINITION. The six system commands of 44_system_and_host.md R223 to R228. -/

namespace Sys2Proof.Machine

/-- The legal moduli, 2..2^W (R24). -/
def legalModulus (m : Nat) : Bool := decide (2 ≤ m) && decide (m ≤ 256)

/-- `MOD <- m` with every element register 0 and every polynomial register `[]` (R224). -/
def State.setModulus (s : State) (m : Nat) : State :=
  { s with modulus := BitVec.ofNat 9 m, e := Vector.replicate 16 0, p := Vector.replicate 8 [] }

/-- NOP (R223): nothing but the response. -/
def execNop (s : State) : Result := s.command (.ok s)

/-- SETMOD (R224): any value outside 2..256 raises IllegalModulus; the registers are cleared also when MOD keeps its
value. -/
def execSetmod (m : BitVec 16) (s : State) : Result :=
  s.command
    (if legalModulus (unsignedImm m) then .ok (s.setModulus (unsignedImm m)) else .error .illegalModulus)

/-- RDCSR (R225): executed also while ERR = 1 (R248); a reserved number is IllegalCommand, or dropped while ERR = 1
(R256). -/
def execRdcsr (n : BitVec 16) (s : State) : Result :=
  match s.csr (unsignedImm n) with
  | some v => .next (s.respond v)
  | none => s.command (.error .illegalCommand)

/-- ERRCLR (R226): executed also while ERR = 1 (R248). -/
def execErrclr (s : State) : Result := .next (s.clearFault.respond 0)

/-- STB (R227): the byte is stored as given. -/
def execStb (addr : BitVec 12) (imm : BitVec 8) (s : State) : Result :=
  s.command (s.memWrite (address addr) [imm])

/-- LDB (R228): `resp(zext_32(MemRead(addr, 1)[0]))`. -/
def execLdb (addr : BitVec 12) (s : State) : Result :=
  s.execute ((s.memRead (address addr) 1).map fun bytes => (s, zext (bytes.headD 0)))

end Sys2Proof.Machine
end

