-- ==== Sys2Proof/Machine/Dispatch.lean ====
section
/-! DEFINITION. One arm for each command of 30_encoding.md R78: the whole behaviour of a decoded command in a state, the
drop while ERR = 1 included (44_system_and_host.md R222). -/

namespace Sys2Proof.Machine

def exec (i : Instr) (s : State) : Host.Outcome State Fault Refusal :=
  match i with
  | .fli ed simm => Sys2Proof.Machine.execFli ed simm s
  | .fld ed addr => Sys2Proof.Machine.execFld ed addr s
  | .fst es addr => Sys2Proof.Machine.execFst es addr s
  | .frd ea => Sys2Proof.Machine.execFrd ea s
  | .feq ea eb => Sys2Proof.Machine.execFeq ea eb s
  | .fadd ed ea eb => Sys2Proof.Machine.execFadd ed ea eb s
  | .fsub ed ea eb => Sys2Proof.Machine.execFsub ed ea eb s
  | .fmul ed ea eb => Sys2Proof.Machine.execFmul ed ea eb s
  | .fdiv ed ea eb => Sys2Proof.Machine.execFdiv ed ea eb s
  | .fmod ed ea eb => Sys2Proof.Machine.execFmod ed ea eb s
  | .fpow ed ea eb => Sys2Proof.Machine.execFpow ed ea eb s
  | .fshl ed ea eb => Sys2Proof.Machine.execFshl ed ea eb s
  | .fshr ed ea eb => Sys2Proof.Machine.execFshr ed ea eb s
  | .fand ed ea eb => Sys2Proof.Machine.execFand ed ea eb s
  | .for_ ed ea eb => Sys2Proof.Machine.execFor ed ea eb s
  | .fxor ed ea eb => Sys2Proof.Machine.execFxor ed ea eb s
  | .fneg ed ea => Sys2Proof.Machine.execFneg ed ea s
  | .fpos ed ea => Sys2Proof.Machine.execFpos ed ea s
  | .fabs ed ea => Sys2Proof.Machine.execFabs ed ea s
  | .finv ed ea => Sys2Proof.Machine.execFinv ed ea s
  | .fround ed ea => Sys2Proof.Machine.execFround ed ea s
  | .ftrunc ed ea => Sys2Proof.Machine.execFtrunc ed ea s
  | .ffloor ed ea => Sys2Proof.Machine.execFfloor ed ea s
  | .fceil ed ea => Sys2Proof.Machine.execFceil ed ea s
  | .pld pd cnt addr => Sys2Proof.Machine.execPld pd cnt addr s
  | .pst ps addr => Sys2Proof.Machine.execPst ps addr s
  | .plen pa => Sys2Proof.Machine.execPlen pa s
  | .pdeg pa => Sys2Proof.Machine.execPdeg pa s
  | .pgrade pd pa n => Sys2Proof.Machine.execPgrade pd pa n s
  | .pshort pd pa => Sys2Proof.Machine.execPshort pd pa s
  | .pshl pd pa n => Sys2Proof.Machine.execPshl pd pa n s
  | .padd pd pa pb => Sys2Proof.Machine.execPadd pd pa pb s
  | .psub pd pa pb => Sys2Proof.Machine.execPsub pd pa pb s
  | .pmul pd pa pb => Sys2Proof.Machine.execPmul pd pa pb s
  | .pscale pd pa eb => Sys2Proof.Machine.execPscale pd pa eb s
  | .pdivmod pq pr pa pb => Sys2Proof.Machine.execPdivmod pq pr pa pb s
  | .pdiv pd pa pb => Sys2Proof.Machine.execPdiv pd pa pb s
  | .pmod pd pa pb => Sys2Proof.Machine.execPmod pd pa pb s
  | .ppow pd pa n => Sys2Proof.Machine.execPpow pd pa n s
  | .peval ed pa eb => Sys2Proof.Machine.execPeval ed pa eb s
  | .peq pa pb => Sys2Proof.Machine.execPeq pa pb s
  | .pgt pa pb => Sys2Proof.Machine.execPgt pa pb s
  | .pnz pa => Sys2Proof.Machine.execPnz pa s
  | .cgenl c imm => Sys2Proof.Machine.execCgenl c imm s
  | .cgenh c imm => Sys2Proof.Machine.execCgenh c imm s
  | .cinit c => Sys2Proof.Machine.execCinit c s
  | .cbyte c imm => Sys2Proof.Machine.execCbyte c imm s
  | .cbuf c cnt addr => Sys2Proof.Machine.execCbuf c cnt addr s
  | .crd c => Sys2Proof.Machine.execCrd c s
  | .nop => Sys2Proof.Machine.execNop s
  | .setmod m => Sys2Proof.Machine.execSetmod m s
  | .rdcsr n => Sys2Proof.Machine.execRdcsr n s
  | .errclr => Sys2Proof.Machine.execErrclr s
  | .stb addr imm => Sys2Proof.Machine.execStb addr imm s
  | .ldb addr => Sys2Proof.Machine.execLdb addr s

end Sys2Proof.Machine
end

