-- ==== Sys2Proof/Machine/Port.lean ====
section
/-! DEFINITION. The host port (44_system_and_host.md R220 to R222): how a word is accepted, decoded and run, what an
illegal word does, and what the core does when the host presents nothing or asserts `rst`. -/

namespace Sys2Proof.Machine

/-- The word is on `cmd[31:0]` while its command runs (R220). -/
def State.accept (s : State) (w : Word) : State := { s with cmd := w }

/-- The step function of R222 for one accepted word: a command runs; an illegal word raises IllegalCommand (R252), or
is dropped while ERR = 1, 'not decoded for faults' (R248). -/
def runWord (w : Word) (s : State) : Result :=
  match decode w with
  | .ok i => exec i (s.accept w)
  | .error _ => (s.accept w).command (.error .illegalCommand)

/-- No command presented: the core idles, and no response is valid (R220, R262, R272). -/
def State.idle (s : State) : State := { s with rsp := none }

/-- What the core does with the oldest thing the host presents; the rest stays presented (R220, R221, R270). -/
def serveHost (s : State) : Result :=
  match s.events with
  | [] => .next s.idle
  | .rst :: rest => .next { s with events := rest }.applyReset
  | .command w :: rest => runWord w { s with events := rest }

/-- The host presents one more command, ahead of all else. -/
def State.presentFirst (s : State) (w : Word) : State := { s with events := .command w :: s.events }

end Sys2Proof.Machine
end

