-- ==== Sys2Proof/Machine/Step.lean ====
section
/-! DEFINITION. One step of the machine: one accepted command, one `rst`, or one idle step (44_system_and_host.md R221,
R222). There is no program counter and no fetch (10_state.md R23): a command comes from the host. -/

namespace Sys2Proof.Machine

/-- One step (R221). -/
def step (s : State) : Host.Outcome State Fault Refusal := serveHost s

/-- The state in which the host presents the command word of an opcode-table row next, so that the very next step
accepts and runs it; every command is one 32-bit word (R70), its bits above `nbits` zero (log 1). -/
def State.withFetchWord (s : State) (nbits w : Nat) : State := s.presentFirst (BitVec.ofNat 32 (w % 2 ^ nbits))

end Sys2Proof.Machine
end

