-- ==== Sys2Proof/Safety.lean ====
section
/-! DEFINITION. The invariants the spec states of the machine at every command boundary (10_state.md R22, R24, R26, R27,
R32; 60_exceptions.md R241, R243, R256), and the terms the statements are made in. -/

namespace Sys2Proof.Machine

/-- MOD is one of its legal values, 2..256 (R24). -/
abbrev State.ModulusLegal (s : State) : Prop := 2 ≤ s.m ∧ s.m ≤ 256

/-- '0 <= E[i] < MOD' (R22). -/
abbrev State.ElemsReduced (s : State) : Prop := ∀ i : EReg, (s.elem i).toNat < s.m

/-- A coefficient list a polynomial register may hold under modulus m (R27). -/
abbrev PolyLegal (m : Nat) (c : Poly) : Prop := c.length ≤ Config.nmax ∧ ∀ v ∈ c, v.toNat < m

/-- Every polynomial register holds a legal list (R27). -/
abbrev State.PolysLegal (s : State) : Prop := ∀ i : PReg, PolyLegal s.m (s.poly i)

/-- 'GEN = 0 and REG = 0, or GEN != 0 and REG < 2^(L-1)' (R32, R208 (a)). -/
abbrev CrcLegal (gen reg : Word) : Prop :=
  (gen = 0 ∧ reg = 0) ∨ (gen ≠ 0 ∧ reg.toNat < 2 ^ (bitlen gen - 1))

/-- Every CRC context is legal (R32). -/
abbrev State.CrcsLegal (s : State) : Prop := ∀ i : CCtx, CrcLegal (s.gen i) (s.reg i)

/-- The fault record: nothing while ERR = 0, and while ERR = 1 one of the codes that are ever written (R26, R241,
R243). -/
abbrev State.FaultRecordLegal (s : State) : Prop :=
  (s.err = false → s.cause = 0 ∧ s.einfo = 0) ∧ (s.err = true → s.cause ∈ [1, 3, 4, 5, 6, 7, 8])

/-- DMEM is in its canonical form, so every written byte is inside 0..4095 (R33, R50). -/
abbrev State.DmemLegal (s : State) : Prop := s.dmem.wf = true

/-- All the invariants together: what every step keeps and reset gives. -/
structure State.Inv (s : State) : Prop where
  modulus : s.ModulusLegal
  elems : s.ElemsReduced
  polys : s.PolysLegal
  crcs : s.CrcsLegal
  faultRecord : s.FaultRecordLegal
  dmem : s.DmemLegal

/-! ### How a command ends, written out field by field -/

/-- Command i completes in s: the fields of t, and the response (1, v) (R74). -/
def CompletesIn (i : Instr) (s t : State) (v : Word) : Prop := exec i s = .next { t with rsp := some ⟨true, v⟩ }

/-- Command i takes the fault of code k in s: the three writes and the response of R246, and nothing else. -/
def TakesFault (i : Instr) (s : State) (k : BitVec 4) : Prop :=
  exec i s = .next { s with err := true, cause := k, einfo := s.cmd, rsp := some ⟨false, 0⟩ }

/-- Command i completes, its one effect `E[ed] <- n`. -/
def WritesElem (i : Instr) (s : State) (ed : EReg) (n : Nat) : Prop :=
  ∃ v : Elem, v.toNat = n ∧ CompletesIn i s { s with e := s.e.set ed v } 0

/-- Command i completes, its one effect `P[pd] <- c`. -/
def WritesPoly (i : Instr) (s : State) (pd : PReg) (c : Poly) : Prop :=
  CompletesIn i s { s with p := s.p.set pd c } 0

/-- Command i completes, its one effect `C[c] <- (g, r)`. -/
def WritesContext (i : Instr) (s : State) (c : CCtx) (g r : Word) : Prop :=
  CompletesIn i s { s with c := s.c.set c ⟨g, r⟩ } 0

/-- Command i completes, its one effect `T <- (1 if P, else 0)`. -/
def SetsT (i : Instr) (s : State) (P : Prop) : Prop :=
  ∃ b : Bool, (b = true ↔ P) ∧ CompletesIn i s { s with t := b } 0

/-- Command i completes, its one effect on DMEM: `bs` at `addr` onwards, every other byte as before. -/
def WritesBytes (i : Instr) (s : State) (addr : Nat) (bs : List Byte) : Prop :=
  ∃ mem : Memory, CompletesIn i s { s with dmem := mem } 0 ∧
    ∀ a, { s with dmem := mem }.readByte a =
      if addr ≤ a ∧ a < addr + bs.length then bs.getD (a - addr) 0 else s.readByte a

/-- The accepted word w is no command, and raises IllegalCommand (R75, R252). -/
def RaisesIllegalCommand (w : Word) (s : State) : Prop :=
  runWord w s = .next { s with cmd := w, err := true, cause := 6, einfo := w, rsp := some ⟨false, 0⟩ }

/-- Commands one after another, each from the state the earlier one left. -/
def runCommands : List Instr → State → Result
  | [], s => .next s
  | i :: is, s =>
    match exec i s with
    | .next t => runCommands is t
    | r => r

end Sys2Proof.Machine

namespace Sys2Proof

/-! ### What each command may write, by its rule -/

/-- The element register a command names as destination (R102, R167). -/
def Instr.elemDest : Instr → List EReg
  | .fli ed _ | .fld ed _ | .fadd ed _ _ | .fsub ed _ _ | .fmul ed _ _ | .fdiv ed _ _ | .fmod ed _ _ | .fpow ed _ _
  | .fshl ed _ _ | .fshr ed _ _ | .fand ed _ _ | .for_ ed _ _ | .fxor ed _ _ | .fneg ed _ | .fpos ed _ | .fabs ed _
  | .finv ed _ | .fround ed _ | .ftrunc ed _ | .ffloor ed _ | .fceil ed _ | .peval ed _ _ => [ed]
  | _ => []

/-- The polynomial registers a command names as destinations (R154, R184). -/
def Instr.polyDest : Instr → List PReg
  | .pld pd _ _ | .pgrade pd _ _ | .pshort pd _ | .pshl pd _ _ | .padd pd _ _ | .psub pd _ _ | .pmul pd _ _
  | .pscale pd _ _ | .pdiv pd _ _ | .pmod pd _ _ | .ppow pd _ _ => [pd]
  | .pdivmod pq pr _ _ => [pq, pr]
  | _ => []

/-- The CRC context a command writes (R201 to R206). -/
def Instr.ctxDest : Instr → List CCtx
  | .cgenl c _ | .cgenh c _ | .cinit c | .cbyte c _ | .cbuf c _ _ => [c]
  | _ => []

/-- The four commands that write T (R25). -/
def Instr.writesT : Instr → Bool
  | .feq _ _ | .peq _ _ | .pgt _ _ | .pnz _ => true
  | _ => false

/-- SETMOD, the one command that writes MOD and clears the registers (R24, R224). -/
def Instr.isSetmod : Instr → Bool
  | .setmod _ => true
  | _ => false

/-- Where a command stores to DMEM: its address and how many bytes (R51). -/
def Instr.stores (s : Machine.State) : Instr → Nat × Nat
  | .stb addr _ | .fst _ addr => (Machine.address addr, 1)
  | .pst ps addr => (Machine.address addr, (s.poly ps).length)
  | _ => (0, 0)

/-- The six read commands, the only ones whose response carries data (R74). -/
def Instr.isRead : Instr → Bool
  | .frd _ | .ldb _ | .rdcsr _ | .plen _ | .pdeg _ | .crd _ => true
  | _ => false

/-- The six commands of unit CSXR (R200). -/
def Instr.isCrc : Instr → Bool
  | .cgenl _ _ | .cgenh _ _ | .cinit _ | .cbyte _ _ | .cbuf _ _ _ | .crd _ => true
  | _ => false

end Sys2Proof

namespace Sys2Proof.Machine

/-! ### Polynomials and bit strings as mathematics -/

/-- The coefficient of x^k of a list, 0 above its end: what the list means, whatever its padding (R13, R27). -/
def coeff (c : Poly) (k : Nat) : Nat := (c.reverse.getD k 0).toNat

/-- The coefficient of x^k of the ordinary product, before reduction (R149). -/
def prodCoeff (a b : Poly) (k : Nat) : Nat := ∑ i ∈ Finset.range (k + 1), coeff a i * coeff b (k - i)

/-- The list R149 gives for the product of a and b under m: the ordinary product's coefficients reduced; a zero product
is `[]`; else the raw length is LEN(b) + n, n being the highest position of a whose term a_n * b is not 0 modulo m
(R145, R147: a term that is 0 has no length, and a sum that is not 0 has the larger one). -/
structure IsProduct (m : Nat) (a b c : Poly) : Prop where
  coeffs : ∀ k, coeff c k = prodCoeff a b k % m
  zero : (∀ k, coeff c k = 0) → c = []
  rawLength : (∃ k, coeff c k ≠ 0) → ∀ n, (∃ j, coeff a n * coeff b j % m ≠ 0) →
    (∀ k, n < k → ∀ j, coeff a k * coeff b j % m = 0) → c.length = b.length + n

/-- The carry-less product over GF(2) of an 8-bit q and g. -/
def clmul (q g : Nat) : Nat := (List.range 8).foldl (fun acc i => if q.testBit i then acc ^^^ g <<< i else acc) 0

/-- The n low bits of v as a coefficient list over MOD = 2, most significant first (R55, R209). -/
def bitList (n v : Nat) : Poly := (List.range n).map fun i => if v.testBit (n - 1 - i) then 1 else 0

/-- A byte stream as a coefficient list, first byte first, each from bit 7 to bit 0 (R55, R209). -/
def streamBits (bytes : List Byte) : Poly := bytes.flatMap fun b => bitList 8 b.toNat

/-- The integer whose binary digits, most significant first, are the list (R209). -/
def bitsValue (r : Poly) : Nat := r.foldl (fun acc v => 2 * acc + v.toNat) 0

end Sys2Proof.Machine
end

