-- ==== Sys2Proof/Certificates/Slice0/Obligations.lean ====
section
/-! DEFINITION. The statements about the model, made from the numbered rules of spec/. Each docstring names the rule it
formalises, or says that it is derived. -/

open Sys2Proof Sys2Proof.Machine

/-! ### Encoding (30_encoding.md) -/

/-- Derived from R71, R73, R78: the decoder reads back every word the encoder writes, every operand at every value. -/
def Obligations.DecodeInvertsEncode : Prop :=
  ∀ i : Instr, i.wellFormed = true → decode (encode i) = .ok i

/-- Derived from R73, R75: a word that decodes is the one word of the command it decodes to, so no bit is ignored. -/
def Obligations.EncodeInvertsDecode : Prop :=
  ∀ (w : Word) (i : Instr), decode w = .ok i → i.wellFormed = true ∧ encode i = w

/-- Derived from R73, steps 1 to 3: a word decodes exactly when it passes the mask and match test of a row of R78 and
is no PDIVMOD with rd = rc; no word passes the test of two rows. -/
def Obligations.DecodeAcceptsExactlyTheTable : Prop :=
  ∀ w : Word,
    ((∃ i, decode w = .ok i) ↔
      (∃ r ∈ opcodeRows, r.accepts w = true) ∧ ¬(opcode w = 0x4C ∧ fieldRd w = fieldRc w)) ∧
    (opcodeRows.filter fun r => r.accepts w).length ≤ 1

/-- Derived from R78: words of each unit and format, written out from the opcode map, decode to their commands. -/
def Obligations.SpecWordsDecode : Prop :=
  decode 0x1050FFFD = .ok (.fli 5 (-3)) ∧ decode 0x11300FFF = .ok (.fld 3 0xFFF) ∧
  decode 0x1B9AB000 = .ok (.fdiv 9 10 11) ∧ decode 0x40740FC0 = .ok (.pld 7 64 0xFC0) ∧
  decode 0x4C201300 = .ok (.pdivmod 2 3 0 1) ∧ decode 0x5097A000 = .ok (.peval 9 7 10) ∧
  decode 0x642FFABC = .ok (.cbuf 2 255 0xABC) ∧ decode 0x040ABFFF = .ok (.stb 0xFFF 0xAB) ∧
  decode 0x03000000 = .ok .errclr

/-! ### The step (44_system_and_host.md, 60_exceptions.md, 70_reset_and_hazards.md) -/

/-- Derived from R221, R222: the step that accepts a word runs the command it decodes to, the word on `cmd[31:0]`. That
the host's words stand in a list, taken one at a time, is the model's form of the port (log 1, log 3). -/
def Obligations.StepRunsTheDecodedCommand : Prop :=
  ∀ (s : State) (w : Word) (rest : List HostEvent) (i : Instr),
    s.events = .command w :: rest → decode w = .ok i →
      step s = exec i { s with events := rest, cmd := w }

/-- Derived from R252 (IllegalCommand for every word that does not decode and for RDCSR above 3, EINFO the word) and from
R248, R256 (while ERR = 1 each is dropped). That the word leaves `events`, stands in `cmd` and its response in `rsp` is
the model's form of the port (log 1, log 2, log 3). -/
def Obligations.IllegalWordsFault : Prop :=
  ∀ (s : State) (w : Word) (rest : List HostEvent),
    s.events = .command w :: rest →
    ((∀ i, decode w ≠ .ok i) ∨ ∃ n : BitVec 16, 3 < n.toNat ∧ decode w = .ok (.rdcsr n)) →
      (s.err = false → step s = .next
        { s with events := rest, cmd := w, err := true, cause := 6, einfo := w, rsp := some ⟨false, 0⟩ }) ∧
      (s.err = true → step s = .next { s with events := rest, cmd := w, rsp := some ⟨false, 0⟩ })

/-- Derived from R271: what `rst` does, and that it satisfies every invariant (DMEM keeping the form it has). The last
three clauses are the model's choices for its own port fields: `cmd` 0 (log 3), `rsp` none (log 2), and `events`, from
which the `rst` is taken (log 1) and which is otherwise kept across it (log 6). -/
def Obligations.ResetEventGivesResetValues : Prop :=
  ∀ (s : State) (rest : List HostEvent), s.events = .rst :: rest →
    ∃ t, step s = .next t ∧ (∀ i, t.elem i = 0) ∧ (∀ i, t.poly i = []) ∧ (∀ i, t.gen i = 0 ∧ t.reg i = 0) ∧
      t.m = 2 ∧ t.t = false ∧ t.err = false ∧ t.cause = 0 ∧ t.einfo = 0 ∧ (∀ a, t.readByte a = s.readByte a) ∧
      (s.DmemLegal → t.Inv) ∧ t.cmd = 0 ∧ t.rsp = none ∧ t.events = rest

/-- Derived from R271: the state after reset satisfies every invariant. -/
def Obligations.ResetMeetsTheInvariant : Prop := State.reset.Inv

/-- Derived from R22 and R32, with R24, R27, R33, R241 and R243 as further parts of `State.Inv`: every step keeps the
invariants, from every state that has them, whatever the host presents. -/
def Obligations.EveryStepKeepsTheInvariant : Prop :=
  ∀ s t : State, s.Inv → step s = .next t → t.Inv

/-- Derived from R222 (`step` is total) and R256 (no fault stops the hardware). -/
def Obligations.EveryStepAnswersANextState : Prop := ∀ s : State, ∃ t, step s = .next t

/-- The model's choice (log 1, from R262 and R272): with nothing presented the core waits; only the port changes. -/
def Obligations.IdleStepChangesNothing : Prop :=
  ∀ s : State, s.events = [] → step s = .next { s with rsp := none }

/-- Derived from R248, R226, R225: while ERR = 1 every accepted word is dropped with (0, 0), but the word of ERRCLR and
the four words of RDCSR 0..3, which are executed. That the word leaves `events`, stands in `cmd` and its response in
`rsp` is the model's form of the port (log 1, log 2, log 3). -/
def Obligations.ErrorStateDropsAllButTwo : Prop :=
  ∀ (s : State) (w : Word) (rest : List HostEvent), s.err = true → s.events = .command w :: rest →
    step s = .next
      (if w = 0x03000000 then
        { s with events := rest, cmd := w, err := false, cause := 0, einfo := 0, rsp := some ⟨true, 0⟩ }
      else if w = 0x02000000 then
        { s with events := rest, cmd := w, rsp := some ⟨true, if s.t then 3 else 1⟩ }
      else if w = 0x02000001 then { s with events := rest, cmd := w, rsp := some ⟨true, s.cause.setWidth 32⟩ }
      else if w = 0x02000002 then { s with events := rest, cmd := w, rsp := some ⟨true, s.einfo⟩ }
      else if w = 0x02000003 then { s with events := rest, cmd := w, rsp := some ⟨true, s.modulus.setWidth 32⟩ }
      else { s with events := rest, cmd := w, rsp := some ⟨false, 0⟩ })

/-- Derived from R246, R247, R243: whenever an accepted word sets ERR, exactly the three writes of fault entry happen,
with a code that is ever raised, and nothing else changes. `events` and `cmd` are the model's port (log 1, log 3). -/
def Obligations.FaultsArePrecise : Prop :=
  ∀ (s t : State) (w : Word) (rest : List HostEvent), s.err = false → s.events = .command w :: rest →
    step s = .next t → t.err = true →
      ∃ k ∈ ([1, 3, 4, 5, 6, 7, 8] : List (BitVec 4)),
        t = { s with events := rest, cmd := w, err := true, cause := k, einfo := w, rsp := some ⟨false, 0⟩ }

/-- Derived from R74, R222, R248: every accepted word returns one response. With ok = 0 the data is 0, and the word
faulted (ERR was 0 and is 1) or was dropped (ERR was 1 and nothing but the port changes). With ok = 1 ERR was 0 and is 0
still, or ERR was 1 and the word is one that is not dropped: ERRCLR or RDCSR 0..3. Data other than 0 is a read command's.
That the word leaves `events`, stands in `cmd` and its response in `rsp` is the model's port (log 1, log 3, log 2). -/
def Obligations.EveryCommandHasOneResponse : Prop :=
  ∀ (s t : State) (w : Word) (rest : List HostEvent), s.events = .command w :: rest → step s = .next t →
    ∃ r : Response, t.rsp = some r ∧
      (r.ok = false → r.data = 0 ∧
        ((s.err = false ∧ t.err = true) ∨
         (s.err = true ∧ t = { s with events := rest, cmd := w, rsp := some ⟨false, 0⟩ }))) ∧
      (r.ok = true → (s.err = false ∧ t.err = false) ∨
        (s.err = true ∧ (decode w = .ok .errclr ∨ ∃ n : BitVec 16, n.toNat ≤ 3 ∧ decode w = .ok (.rdcsr n)))) ∧
      (r.ok = true → r.data ≠ 0 → ∃ i, decode w = .ok i ∧ i.isRead = true)

/-! ### What a command may write -/

/-- Derived from R51, the writing side, as a frame: outside the bytes STB, FST and PST store at their address, every
byte of DMEM reads as before; for every other command that is every byte. -/
def Obligations.OnlyStoresWriteDmem : Prop :=
  ∀ (i : Instr) (s t : State), exec i s = .next t →
    ∀ a, ¬((i.stores s).1 ≤ a ∧ a < (i.stores s).1 + (i.stores s).2) → t.readByte a = s.readByte a

/-- Derived from R21, R24, R25, R26, R102, R154, R208, R246: the registers no command may write but those it names. SETMOD
aside, whose whole effect is the statement SetmodChoosesTheField, E and P change at most in the destinations of the
command and MOD not at all; C changes at most in its context; T belongs to FEQ, PEQ, PGT and PNZ; no command but ERRCLR
takes ERR from 1 to 0, or changes CAUSE or EINFO without taking ERR from 0 to 1. What the host presents next and the word
on `cmd` (log 1, log 3) are never touched. -/
def Obligations.RegistersWrittenOnlyByTheirCommands : Prop :=
  ∀ (i : Instr) (s t : State), exec i s = .next t →
    (i.isSetmod = false → (∀ r, r ∉ i.elemDest → t.elem r = s.elem r) ∧
      (∀ r, r ∉ i.polyDest → t.poly r = s.poly r) ∧ t.modulus = s.modulus) ∧
    (∀ c, c ∉ i.ctxDest → t.gen c = s.gen c ∧ t.reg c = s.reg c) ∧
    (i.writesT = false → t.t = s.t) ∧
    (i ≠ .errclr → (s.err = true → t.err = true) ∧ (t.err = s.err → t.cause = s.cause ∧ t.einfo = s.einfo)) ∧
    t.cmd = s.cmd ∧ t.events = s.events

/-! ### Unit GFMR (40_gf_modular_reduce.md) -/

/-- R108, R109, R110: sum, difference (which wraps upward) and product, reduced. -/
def Obligations.FieldAddSubMul : Prop :=
  ∀ (s : State) (ed ea eb : EReg), s.Inv → s.err = false →
    WritesElem (.fadd ed ea eb) s ed (((s.elem ea).toNat + (s.elem eb).toNat) % s.m) ∧
    WritesElem (.fsub ed ea eb) s ed
      (if (s.elem eb).toNat ≤ (s.elem ea).toNat then (s.elem ea).toNat - (s.elem eb).toNat
       else (s.elem ea).toNat + s.m - (s.elem eb).toNat) ∧
    WritesElem (.fmul ed ea eb) s ed ((s.elem ea).toNat * (s.elem eb).toNat % s.m)

/-- R111 and R112: integer quotient and remainder, which already lie in the field and satisfy q*b + r = a; by 0 the
fault RawArithmetic, code 3. -/
def Obligations.FieldDivRem : Prop :=
  ∀ (s : State) (ed ea eb : EReg), s.Inv → s.err = false →
    (s.elem eb = 0 → TakesFault (.fdiv ed ea eb) s 3 ∧ TakesFault (.fmod ed ea eb) s 3) ∧
    (s.elem eb ≠ 0 → ∃ q r : Nat, q * (s.elem eb).toNat + r = (s.elem ea).toNat ∧ r < (s.elem eb).toNat ∧
      WritesElem (.fdiv ed ea eb) s ed q ∧ WritesElem (.fmod ed ea eb) s ed r)

/-- R113, R114, R115: power (exponent 0 gives 1), shift left by the whole value of the count, shift right. -/
def Obligations.FieldPowShift : Prop :=
  ∀ (s : State) (ed ea eb : EReg), s.Inv → s.err = false →
    WritesElem (.fpow ed ea eb) s ed ((s.elem ea).toNat ^ (s.elem eb).toNat % s.m) ∧
    WritesElem (.fshl ed ea eb) s ed ((s.elem ea).toNat * 2 ^ (s.elem eb).toNat % s.m) ∧
    WritesElem (.fshr ed ea eb) s ed ((s.elem ea).toNat / 2 ^ (s.elem eb).toNat)

/-- R116, R117, R118: bit by bit on the eight-bit values, then reduced; for FAND the reduction changes nothing. -/
def Obligations.FieldBitwise : Prop :=
  ∀ (s : State) (ed ea eb : EReg), s.Inv → s.err = false →
    WritesElem (.fand ed ea eb) s ed (s.elem ea &&& s.elem eb).toNat ∧
    WritesElem (.for_ ed ea eb) s ed ((s.elem ea ||| s.elem eb).toNat % s.m) ∧
    WritesElem (.fxor ed ea eb) s ed ((s.elem ea ^^^ s.elem eb).toNat % s.m)

/-- R119 and R122: the additive inverse, and MOD - 1 - a. -/
def Obligations.FieldNegInvert : Prop :=
  ∀ (s : State) (ed ea : EReg), s.Inv → s.err = false →
    WritesElem (.fneg ed ea) s ed (if s.elem ea = 0 then 0 else s.m - (s.elem ea).toNat) ∧
    WritesElem (.finv ed ea) s ed (s.m - 1 - (s.elem ea).toNat)

/-- R120, R121, R123 to R126: the six operators that leave an element as it is copy it. -/
def Obligations.FieldCopies : Prop :=
  ∀ (s : State) (ed ea : EReg), s.Inv → s.err = false →
    WritesElem (.fpos ed ea) s ed (s.elem ea).toNat ∧ WritesElem (.fabs ed ea) s ed (s.elem ea).toNat ∧
    WritesElem (.fround ed ea) s ed (s.elem ea).toNat ∧ WritesElem (.ftrunc ed ea) s ed (s.elem ea).toNat ∧
    WritesElem (.ffloor ed ea) s ed (s.elem ea).toNat ∧ WritesElem (.fceil ed ea) s ed (s.elem ea).toNat

/-- R103 by R11: the non-negative residue of the signed immediate. -/
def Obligations.FieldImmediate : Prop :=
  ∀ (s : State) (ed : EReg) (simm : BitVec 16), s.Inv → s.err = false →
    ∃ n : Nat, n < s.m ∧ (s.m : Int) ∣ simm.toInt - n ∧ WritesElem (.fli ed simm) s ed n

/-- R104 and R105: FLD reduces the byte, FST writes the value unchanged. -/
def Obligations.FieldLoadStore : Prop :=
  ∀ (s : State) (r : EReg) (addr : BitVec 12), s.Inv → s.err = false →
    WritesElem (.fld r addr) s r ((s.readByte addr.toNat).toNat % s.m) ∧
    WritesBytes (.fst r addr) s addr.toNat [s.elem r]

/-- R106 and R107. -/
def Obligations.FieldReadAndCompare : Prop :=
  ∀ (s : State) (ea eb : EReg), s.err = false →
    (∃ v : Word, v.toNat = (s.elem ea).toNat ∧ CompletesIn (.frd ea) s s v) ∧
    SetsT (.feq ea eb) s ((s.elem ea).toNat = (s.elem eb).toNat)

/-- Derived from R127: with `fop(add)` and `fop(mul)` the elements form a commutative ring for every legal modulus, and
`fop(neg)` gives the additive inverse (R119). -/
def Obligations.FieldOperatorsFormARing : Prop :=
  ∀ (m : Nat) (a b c : Elem), 2 ≤ m → m ≤ 256 → a.toNat < m → b.toNat < m → c.toNat < m →
    fop .add m a b = fop .add m b a ∧ fop .mul m a b = fop .mul m b a ∧
    fop .add m (fop .add m a b) c = fop .add m a (fop .add m b c) ∧
    fop .mul m (fop .mul m a b) c = fop .mul m a (fop .mul m b c) ∧
    fop .mul m a (fop .add m b c) = fop .add m (fop .mul m a b) (fop .mul m a c) ∧
    fop .add m a 0 = a ∧ fop .mul m a 1 = a ∧ fop .add m a (fop .neg m a 0) = 0

/-- Derived from R113: reducing after each factor gives the same power. -/
def Obligations.PowIsRepeatedProduct : Prop :=
  ∀ (m : Nat) (a b : Elem), 2 ≤ m → m ≤ 256 → a.toNat < m →
    fop .pow m a b = (fun r => fop .mul m r a)^[b.toNat] 1

/-! ### Unit PLDE (41_polynomial_ops.md) -/

/-- R155: LengthOverflow before AddressRange; else the bytes reduced, in order, collapsing to `[]` when all are 0. -/
def Obligations.PolyLoad : Prop :=
  ∀ (s : State) (pd : PReg) (cnt : BitVec 8) (addr : BitVec 12), s.Inv → s.err = false →
    (64 < cnt.toNat → TakesFault (.pld pd cnt addr) s 5) ∧
    (cnt.toNat ≤ 64 → 4096 < addr.toNat + cnt.toNat → TakesFault (.pld pd cnt addr) s 7) ∧
    (cnt.toNat ≤ 64 → addr.toNat + cnt.toNat ≤ 4096 → ∃ c : Poly, WritesPoly (.pld pd cnt addr) s pd c ∧
      ((∀ j < cnt.toNat, (s.readByte (addr.toNat + j)).toNat % s.m = 0) → c = []) ∧
      ((∃ j < cnt.toNat, (s.readByte (addr.toNat + j)).toNat % s.m ≠ 0) →
        c.map BitVec.toNat = (List.range cnt.toNat).map fun j => (s.readByte (addr.toNat + j)).toNat % s.m))

/-- R156: the raw list, padding included, or AddressRange with nothing written. -/
def Obligations.PolyStore : Prop :=
  ∀ (s : State) (ps : PReg) (addr : BitVec 12), s.Inv → s.err = false →
    (4096 < addr.toNat + (s.poly ps).length → TakesFault (.pst ps addr) s 7) ∧
    (addr.toNat + (s.poly ps).length ≤ 4096 → WritesBytes (.pst ps addr) s addr.toNat (s.poly ps))

/-- R157 and R158: the raw length; the degree, all ones for -1. -/
def Obligations.PolyLengthAndDegree : Prop :=
  ∀ (s : State) (pa : PReg), s.Inv → s.err = false →
    (∃ v : Word, v.toNat = (s.poly pa).length ∧ CompletesIn (.plen pa) s s v) ∧
    (∃ v : Word, CompletesIn (.pdeg pa) s s v ∧
      ((∀ k, coeff (s.poly pa) k = 0) → v = 0xFFFFFFFF) ∧
      (∀ d, coeff (s.poly pa) d ≠ 0 → (∀ k, d < k → coeff (s.poly pa) k = 0) → v.toNat = d))

/-- R159: pad at the front, or keep the last n entries whatever is dropped, or LengthOverflow above 64. -/
def Obligations.PolyRegrade : Prop :=
  ∀ (s : State) (pd pa : PReg) (n : BitVec 16), s.Inv → s.err = false →
    (64 < n.toNat → TakesFault (.pgrade pd pa n) s 5) ∧
    (n.toNat ≤ 64 → ∃ c : Poly, WritesPoly (.pgrade pd pa n) s pd c ∧ c.length = n.toNat ∧
      ∀ k, coeff c k = if k < n.toNat then coeff (s.poly pa) k else 0)

/-- R160 and R161: the leading zeros dropped; n zeros appended at the low end, or LengthOverflow, zero or not. -/
def Obligations.PolyShortenAndShift : Prop :=
  ∀ (s : State) (pd pa : PReg) (n : BitVec 16), s.Inv → s.err = false →
    (∃ (k : Nat) (c : Poly), s.poly pa = List.replicate k 0 ++ c ∧ c.head? ≠ some 0 ∧
      WritesPoly (.pshort pd pa) s pd c) ∧
    (64 < (s.poly pa).length + n.toNat → TakesFault (.pshl pd pa n) s 5) ∧
    ((s.poly pa).length + n.toNat ≤ 64 → ∃ c : Poly, WritesPoly (.pshl pd pa n) s pd c ∧
      ((∀ v ∈ s.poly pa, v = 0) → c = []) ∧
      ((∃ v ∈ s.poly pa, v ≠ 0) → c = s.poly pa ++ List.replicate n.toNat 0))

/-- R162 and R163: coefficient by coefficient, aligned at the low end; the raw length is the larger one, or 0 when
every entry is 0. -/
def Obligations.PolyAddSub : Prop :=
  ∀ (s : State) (pd pa pb : PReg), s.Inv → s.err = false →
    (∃ c : Poly, WritesPoly (.padd pd pa pb) s pd c ∧
      (∀ k, coeff c k = (coeff (s.poly pa) k + coeff (s.poly pb) k) % s.m) ∧
      ((∀ k, coeff c k = 0) → c = []) ∧
      ((∃ k, coeff c k ≠ 0) → c.length = max (s.poly pa).length (s.poly pb).length)) ∧
    (∃ c : Poly, WritesPoly (.psub pd pa pb) s pd c ∧
      (∀ k, (coeff c k : Int) = ((coeff (s.poly pa) k : Int) - coeff (s.poly pb) k) % (s.m : Int)) ∧
      ((∀ k, coeff c k = 0) → c = []) ∧
      ((∃ k, coeff c k ≠ 0) → c.length = max (s.poly pa).length (s.poly pb).length))

/-- R165: every coefficient times the scalar, the raw length kept unless every product is 0. -/
def Obligations.PolyScale : Prop :=
  ∀ (s : State) (pd pa : PReg) (eb : EReg), s.Inv → s.err = false →
    ∃ c : Poly, WritesPoly (.pscale pd pa eb) s pd c ∧
      (∀ k, coeff c k = coeff (s.poly pa) k * (s.elem eb).toNat % s.m) ∧
      ((∀ k, coeff c k = 0) → c = []) ∧
      ((∃ k, coeff c k ≠ 0) → c.length = (s.poly pa).length)

/-- Derived from R149, R164: PMUL computes the ordinary product modulo MOD, and raises LengthOverflow iff both operands
are non-zero and LEN(b) + DEG(a) > 64. The raw length of a product that is not 0 is LEN(b) plus the position of the last
term that is not 0 modulo MOD (`IsProduct`), so at most LEN(b) + DEG(a), and that where the leading coefficients do not
multiply to 0. -/
def Obligations.PolyProductIsTheOrdinaryProduct : Prop :=
  ∀ (s : State) (pd pa pb : PReg), s.Inv → s.err = false →
    (deg (s.poly pa) ≠ -1 ∧ deg (s.poly pb) ≠ -1 ∧ 64 < ((s.poly pb).length : Int) + deg (s.poly pa) →
      TakesFault (.pmul pd pa pb) s 5) ∧
    (¬(deg (s.poly pa) ≠ -1 ∧ deg (s.poly pb) ≠ -1 ∧ 64 < ((s.poly pb).length : Int) + deg (s.poly pa)) →
      ∃ c : Poly, WritesPoly (.pmul pd pa pb) s pd c ∧ IsProduct s.m (s.poly pa) (s.poly pb) c ∧
        (deg (s.poly pa) = -1 ∨ deg (s.poly pb) = -1 → c = []) ∧
        (deg (s.poly pa) ≠ -1 → (c.length : Int) ≤ (s.poly pb).length + deg (s.poly pa)) ∧
        ((lead (s.poly pa)).toNat * (lead (s.poly pb)).toNat % s.m ≠ 0 →
          (c.length : Int) = (s.poly pb).length + deg (s.poly pa)))

/-- Derived from R150, R166: power 0 is `[1]`, power 1 hands the operand on with its padding. From power n on: with
LEN + n * DEG <= 64 both it and the next complete; wherever power n completes, with b, power n + 1 completes with the
product of b and the operand, raw length included (`IsProduct`), unless that product overflows (R149), which is
LengthOverflow; and a power after one that overflows overflows. So every exponent is covered, also one where leading
coefficients vanish under a composite MOD and LEN + n * DEG is above 64. -/
def Obligations.PolyPower : Prop :=
  ∀ (s : State) (pd pa : PReg), s.Inv → s.err = false →
    WritesPoly (.ppow pd pa 0) s pd [1] ∧ WritesPoly (.ppow pd pa 1) s pd (s.poly pa) ∧
    ∀ n : Nat, 1 ≤ n → n < 65535 →
      (((s.poly pa).length : Int) + n * deg (s.poly pa) ≤ 64 →
        ∃ b c : Poly, WritesPoly (.ppow pd pa (BitVec.ofNat 16 n)) s pd b ∧
          WritesPoly (.ppow pd pa (BitVec.ofNat 16 (n + 1))) s pd c ∧
          IsProduct s.m b (s.poly pa) c ∧ (deg (s.poly pa) = -1 → c = [])) ∧
      (∀ b : Poly, WritesPoly (.ppow pd pa (BitVec.ofNat 16 n)) s pd b →
        ¬(deg b ≠ -1 ∧ deg (s.poly pa) ≠ -1 ∧ 64 < ((s.poly pa).length : Int) + deg b) →
          ∃ c : Poly, WritesPoly (.ppow pd pa (BitVec.ofNat 16 (n + 1))) s pd c ∧ IsProduct s.m b (s.poly pa) c) ∧
      (∀ b : Poly, WritesPoly (.ppow pd pa (BitVec.ofNat 16 n)) s pd b → deg b ≠ -1 → deg (s.poly pa) ≠ -1 →
        64 < ((s.poly pa).length : Int) + deg b → TakesFault (.ppow pd pa (BitVec.ofNat 16 (n + 1))) s 5) ∧
      (TakesFault (.ppow pd pa (BitVec.ofNat 16 n)) s 5 → TakesFault (.ppow pd pa (BitVec.ofNat 16 (n + 1))) s 5)

/-- R151, R167: the sum of coefficient times power of x, reduced, with x^0 = 1 also for x = 0. -/
def Obligations.PolyEvaluate : Prop :=
  ∀ (s : State) (ed : EReg) (pa : PReg) (eb : EReg), s.Inv → s.err = false →
    WritesElem (.peval ed pa eb) s ed
      ((∑ k ∈ Finset.range (s.poly pa).length, coeff (s.poly pa) k * (s.elem eb).toNat ^ k) % s.m)

/-- R168, R169, R170: equal when every coefficient is; greater when the highest differing coefficient is; non-zero when
some coefficient is. Padding plays no part. -/
def Obligations.PolyPredicates : Prop :=
  ∀ (s : State) (pa pb : PReg), s.err = false →
    SetsT (.peq pa pb) s (∀ k, coeff (s.poly pa) k = coeff (s.poly pb) k) ∧
    SetsT (.pgt pa pb) s (∃ k, coeff (s.poly pb) k < coeff (s.poly pa) k ∧
      ∀ j, k < j → coeff (s.poly pa) j = coeff (s.poly pb) j) ∧
    SetsT (.pnz pa) s (∃ k, coeff (s.poly pa) k ≠ 0)

/-- Derived from R152: 'exactly one of pgt(a,b), pgt(b,a), peq(a,b) holds'. -/
def Obligations.PolyOrderIsTotal : Prop :=
  ∀ a b : Poly,
    (pgt a b = true ∧ pgt b a = false ∧ peq a b = false) ∨
    (pgt a b = false ∧ pgt b a = true ∧ peq a b = false) ∨
    (pgt a b = false ∧ pgt b a = false ∧ peq a b = true)

/-! ### Long division (42_polynomial_long_div.md) -/

/-- Derived from R242 for the division commands, R184 for one register as both destinations, and R180's early return:
a divisor of higher degree gives quotient `[]` and the dividend with its padding. -/
def Obligations.DivisionEarlyOutcomes : Prop :=
  ∀ (s : State) (pq pr pa pb : PReg), s.err = false →
    TakesFault (.pdivmod pq pq pa pb) s 6 ∧
    (deg (s.poly pb) = -1 → (pq ≠ pr → TakesFault (.pdivmod pq pr pa pb) s 1) ∧
      TakesFault (.pdiv pq pa pb) s 1 ∧ TakesFault (.pmod pr pa pb) s 1) ∧
    (deg (s.poly pb) ≠ -1 → deg (s.poly pa) < deg (s.poly pb) →
      (pq ≠ pr → CompletesIn (.pdivmod pq pr pa pb) s
        { s with p := (s.p.set pq []).set pr (s.poly pa) } 0) ∧
      WritesPoly (.pdiv pq pa pb) s pq [] ∧ WritesPoly (.pmod pr pa pb) s pr (s.poly pa)) ∧
    (deg (s.poly pb) ≠ -1 → deg (s.poly pb) ≤ deg (s.poly pa) →
      (lead (s.poly pa)).toNat % (lead (s.poly pb)).toNat ≠ 0 →
      (pq ≠ pr → TakesFault (.pdivmod pq pr pa pb) s 4) ∧
      TakesFault (.pdiv pq pa pb) s 4 ∧ TakesFault (.pmod pr pa pb) s 4)

/-- R187, with R181 and R183: whenever the division of legal lists returns (q, r), q*d + r = a modulo MOD coefficient by
coefficient, and so under `padd`, `pmul` and `peq` wherever the product fits NMAX, as it does with the shortened d
(log 15); r has lower degree than d; outside the early return r and q are shortened and q has raw length n + 1. -/
def Obligations.DivisionRoundTrip : Prop :=
  ∀ (m : Nat) (a d q r : Poly), 2 ≤ m → m ≤ 256 → PolyLegal m a → PolyLegal m d →
    pdivmod m a d = .ok (q, r) →
      (∀ k, (prodCoeff q d k + coeff r k) % m = coeff a k) ∧ deg r < deg d ∧
      (∀ c, pmul m q d = .ok c → peq (padd m c r) a = true) ∧
      (∃ c, pmul m q (shortened d) = .ok c ∧ peq (padd m c r) a = true) ∧
      (deg d ≤ deg a → shortened r = r ∧ shortened q = q ∧ (q.length : Int) = deg a - deg d + 1) ∧
      PolyLegal m q ∧ PolyLegal m r

/-- Derived from R180, R181, R182, R183, R245: the whole division, iteration by iteration, with integer quotient terms and
no field inverse (R281). A zero divisor and a divisor of higher degree end it at once; else a leading coefficient that is
no integer multiple of the divisor's is InexactLeadingQuotient; else the term is t = rl div dl at x^k, and the division
goes on with a', the list of a - t * x^k * d: it faults where that division does, in whatever later iteration, and else
has its remainder, shortened, and its quotient with t put at x^k. DivisionCommandsAgree says the same of the commands. -/
def Obligations.DivisionStep : Prop :=
  ∀ (m : Nat) (a d : Poly), 2 ≤ m → m ≤ 256 → PolyLegal m a → PolyLegal m d →
    (deg d = -1 → pdivmod m a d = .error .divideByZeroPolynomial) ∧
    (deg d ≠ -1 → deg a < deg d → pdivmod m a d = .ok ([], a)) ∧
    (deg d ≠ -1 → deg d ≤ deg a → (lead a).toNat % (lead d).toNat ≠ 0 →
      pdivmod m a d = .error .inexactLeadingQuotient) ∧
    ∀ (k t : Nat) (a' : Poly), deg d ≠ -1 → deg a = deg d + k → (lead a).toNat % (lead d).toNat = 0 →
      t = (lead a).toNat / (lead d).toNat → PolyLegal m a' →
      (∀ j, (coeff a' j + if k ≤ j then t * coeff d (j - k) else 0) % m = coeff a j) →
        deg a' < deg a ∧
        (pdivmod m a' d = .error .inexactLeadingQuotient → pdivmod m a d = .error .inexactLeadingQuotient) ∧
        (∀ q' r', pdivmod m a' d = .ok (q', r') → ∃ q, pdivmod m a d = .ok (q, shortened r') ∧ q.length = k + 1 ∧
          ∀ j, coeff q j = if j = k then t else coeff q' j)

/-- Derived from R188, itself an inference of the spec from R182, on the commands: under MOD = 2, or by a divisor with leading coefficient 1, PDIVMOD, PDIV and PMOD complete,
with a quotient and a remainder that satisfy the division identity and are the only ones that do. PDIVMOD with pq = pr
is no command (R184; DivisionEarlyOutcomes). -/
def Obligations.MonicDivisionCompletes : Prop :=
  ∀ (s : State) (pq pr pa pb : PReg), s.Inv → s.err = false → pq ≠ pr → deg (s.poly pb) ≠ -1 →
    (s.m = 2 ∨ lead (s.poly pb) = 1) →
      ∃ q r : Poly, CompletesIn (.pdivmod pq pr pa pb) s { s with p := (s.p.set pq q).set pr r } 0 ∧
        WritesPoly (.pdiv pq pa pb) s pq q ∧ WritesPoly (.pmod pr pa pb) s pr r ∧
        (∀ k, (prodCoeff q (s.poly pb) k + coeff r k) % s.m = coeff (s.poly pa) k) ∧
        deg r < deg (s.poly pb) ∧
        ∀ q' r' : Poly, (∀ v ∈ q', v.toNat < s.m) → (∀ v ∈ r', v.toNat < s.m) →
          (∀ k, (prodCoeff q' (s.poly pb) k + coeff r' k) % s.m = coeff (s.poly pa) k) → deg r' < deg (s.poly pb) →
          ∀ k, coeff q' k = coeff q k ∧ coeff r' k = coeff r k

/-- R185 and R186: PDIV and PMOD write the first and second element of the pair PDIVMOD writes, and fault as it does. -/
def Obligations.DivisionCommandsAgree : Prop :=
  ∀ (s : State) (pq pr pa pb : PReg), s.err = false → pq ≠ pr →
    (∀ q r, pdivmod s.m (s.poly pa) (s.poly pb) = .ok (q, r) →
      CompletesIn (.pdivmod pq pr pa pb) s { s with p := (s.p.set pq q).set pr r } 0 ∧
      WritesPoly (.pdiv pq pa pb) s pq q ∧ WritesPoly (.pmod pr pa pb) s pr r) ∧
    (∀ f, pdivmod s.m (s.poly pa) (s.poly pb) = .error f →
      (f.code = 1 ∨ f.code = 4) ∧ TakesFault (.pdivmod pq pr pa pb) s f.code ∧
      TakesFault (.pdiv pq pa pb) s f.code ∧ TakesFault (.pmod pr pa pb) s f.code)

/-! ### Unit CSXR (43_crc_shift_xor.md) -/

/-- R201, R202, R203, R207: the two halves of a generator, each clearing REG; CINIT; CRD; and their illegal words. -/
def Obligations.CrcSetUpAndRead : Prop :=
  ∀ (s : State) (c : CCtx) (imm : BitVec 16), s.err = false →
    (∃ g : Word, g.toNat = imm.toNat ∧ WritesContext (.cgenl c imm) s c g 0) ∧
    (∃ g : Word, g.toNat = imm.toNat * 65536 + (s.gen c).toNat % 65536 ∧ WritesContext (.cgenh c imm) s c g 0) ∧
    WritesContext (.cinit c) s c (s.gen c) 0 ∧ CompletesIn (.crd c) s s (s.reg c) ∧
    ∀ w : Word,
      ((opcode w = 0x60 ∨ opcode w = 0x61) ∧ (4 ≤ (fieldRd w).toNat ∨ fieldRa w ≠ 0) → RaisesIllegalCommand w s) ∧
      (opcode w = 0x62 ∧ 4 ≤ (fieldRd w).toNat → RaisesIllegalCommand w s) ∧
      (opcode w = 0x65 ∧ 4 ≤ (fieldRa w).toNat → RaisesIllegalCommand w s)

/-- Derived from R205 and R204, whose closing sentence is an inference of the spec from R32: with a generator, the new REG is the remainder of REG * x^8 + byte over GF(2): it differs from it by a
multiple of the generator, and its degree is below the generator's; without one, fault 1; the illegal words. -/
def Obligations.CrcByteIsTheRemainder : Prop :=
  ∀ (s : State) (c : CCtx) (b : BitVec 8), s.Inv → s.err = false →
    (s.gen c = 0 → TakesFault (.cbyte c b) s 1) ∧
    (s.gen c ≠ 0 → ∃ r : Word, WritesContext (.cbyte c b) s c (s.gen c) r ∧
      r.toNat < 2 ^ (bitlen (s.gen c) - 1) ∧
      ∃ q, q < 256 ∧ r.toNat = ((s.reg c).toNat * 256 + b.toNat) ^^^ clmul q (s.gen c).toNat) ∧
    ∀ w : Word, opcode w = 0x63 → 4 ≤ (fieldRd w).toNat ∨ fieldAddr w ≠ 0 → RaisesIllegalCommand w s

/-- Derived from R206, whose sentence on CBUF and CBYTE is an inference of the spec from R204: the range check, then the generator check even for no bytes; else CBUF leaves the context as the CBYTE
commands with the same bytes in address order do; and the illegal words. -/
def Obligations.CbufIsCbyteRepeated : Prop :=
  ∀ (s : State) (c : CCtx) (cnt : BitVec 8) (addr : BitVec 12), s.err = false →
    (4096 < addr.toNat + cnt.toNat → TakesFault (.cbuf c cnt addr) s 7) ∧
    (addr.toNat + cnt.toNat ≤ 4096 → s.gen c = 0 → TakesFault (.cbuf c cnt addr) s 1) ∧
    (addr.toNat + cnt.toNat ≤ 4096 → s.gen c ≠ 0 → ∃ r : Word,
      WritesContext (.cbuf c cnt addr) s c (s.gen c) r ∧
      ∃ t, runCommands ((List.range cnt.toNat).map fun j => .cbyte c (s.readByte (addr.toNat + j))) s = .next t ∧
        t = { s with c := s.c.set c ⟨s.gen c, r⟩, rsp := t.rsp }) ∧
    ∀ w : Word, opcode w = 0x64 → 4 ≤ (fieldRd w).toNat → RaisesIllegalCommand w s

/-- R209: the CBYTE commands of any byte stream, fed to a context with a generator and REG = 0, leave in REG the
remainder list of the polynomial division of the stream by the generator over MOD = 2, read as binary digits. -/
def Obligations.CrcAgreesWithPolynomialDivision : Prop :=
  ∀ (s : State) (c : CCtx) (bytes : List Byte), s.err = false → s.gen c ≠ 0 → s.reg c = 0 →
    ∃ (q r : Poly) (t : State),
      pdivmod 2 (streamBits bytes) (bitList (bitlen (s.gen c)) (s.gen c).toNat) = .ok (q, r) ∧
      runCommands (bytes.map fun b => .cbyte c b) s = .next t ∧
      t.gen c = s.gen c ∧ (t.reg c).toNat = bitsValue r

/-- Derived from R211, R209: `computeRemainder(bytes, g)` as a command sequence on any context answers the remainder of
the stream as its last response and leaves the other contexts alone. CGENH may be omitted where the high half is 0; the
bytes are fed by a CBYTE for each or lie in DMEM in stretches, each fed by a CBUF. -/
def Obligations.ComputeRemainderSequence : Prop :=
  ∀ (s : State) (c : CCtx) (bytes : List Byte) (lo hi : BitVec 16) (load feed : List Instr),
    s.err = false → hi ++ lo ≠ (0 : Word) →
    (load = [.cgenl c lo, .cgenh c hi] ∨ hi = 0 ∧ load = [.cgenl c lo]) →
    ((feed = bytes.map fun b => .cbyte c b) ∨
      ∃ parts : List (BitVec 8 × BitVec 12), (∀ x ∈ parts, x.2.toNat + x.1.toNat ≤ 4096) ∧
        (feed = parts.map fun x => .cbuf c x.1 x.2) ∧
        bytes = parts.flatMap fun x => (List.range x.1.toNat).map fun j => s.readByte (x.2.toNat + j)) →
    ∃ (q r : Poly) (t : State) (v : Word),
      pdivmod 2 (streamBits bytes) (bitList (bitlen (hi ++ lo)) (hi ++ lo).toNat) = .ok (q, r) ∧
      runCommands (load ++ feed ++ [.crd c]) s = .next t ∧
      t.rsp = some ⟨true, v⟩ ∧ v.toNat = bitsValue r ∧
      ∀ c', c' ≠ c → t.gen c' = s.gen c' ∧ t.reg c' = s.reg c'

/-- Derived from R208 (c), R260: bytes fed to two contexts may be interleaved in any order. -/
def Obligations.ContextsAreIndependent : Prop :=
  ∀ (s : State) (c c' : CCtx) (b b' : BitVec 8), c ≠ c' → s.err = false → s.gen c ≠ 0 → s.gen c' ≠ 0 →
    ∃ t, runCommands [.cbyte c b, .cbyte c' b'] s = .next t ∧ runCommands [.cbyte c' b', .cbyte c b] s = .next t ∧
      ∃ u, exec (.cbyte c b) s = .next u ∧ t.reg c = u.reg c

/-- Derived from 43_crc_shift_xor.md (the CRC unit 'never reads or writes' MOD, E, P or T): two states that differ only
there, in CAUSE, EINFO or at the port run a CRC command alike. -/
def Obligations.CrcIgnoresTheField : Prop :=
  ∀ (i : Instr) (s s' t t' : State), i.isCrc = true → s'.c = s.c → s'.dmem = s.dmem → s'.err = s.err →
    exec i s = .next t → exec i s' = .next t' → t'.c = t.c ∧ t'.rsp = t.rsp ∧ t'.err = t.err ∧
      t.e = s.e ∧ t.p = s.p ∧ t.modulus = s.modulus ∧ t.t = s.t

/-! ### System commands (44_system_and_host.md) -/

/-- R224: a legal modulus is stored and every element and polynomial register cleared, also when MOD keeps its value;
any other value is fault 8, nothing changed. -/
def Obligations.SetmodChoosesTheField : Prop :=
  ∀ (s : State) (m : BitVec 16), s.err = false →
    (m.toNat < 2 ∨ 256 < m.toNat → TakesFault (.setmod m) s 8) ∧
    (2 ≤ m.toNat → m.toNat ≤ 256 → ∃ v : BitVec 9, v.toNat = m.toNat ∧
      CompletesIn (.setmod m) s { s with modulus := v, e := Vector.replicate 16 0, p := Vector.replicate 8 [] } 0)

/-- R225 by the layouts of R34: the four control registers, read in either error state; any other number is fault 6, or
dropped while ERR = 1 (R256). -/
def Obligations.RdcsrReadsTheControlRegisters : Prop :=
  ∀ (s : State) (n : BitVec 16),
    (n = 0 → ∃ v : Word, CompletesIn (.rdcsr n) s s v ∧ v.toNat = (if s.err then 1 else 0) + (if s.t then 2 else 0)) ∧
    (n = 1 → ∃ v : Word, CompletesIn (.rdcsr n) s s v ∧ v.toNat = s.cause.toNat) ∧
    (n = 2 → CompletesIn (.rdcsr n) s s s.einfo) ∧
    (n = 3 → ∃ v : Word, CompletesIn (.rdcsr n) s s v ∧ v.toNat = s.m) ∧
    (3 < n.toNat → s.err = false → TakesFault (.rdcsr n) s 6) ∧
    (3 < n.toNat → s.err = true → exec (.rdcsr n) s = .next { s with rsp := some ⟨false, 0⟩ })

/-- R223 and R226: NOP changes nothing; ERRCLR, in either error state, clears the fault record and nothing else, and is
the identity where there is no fault; their words with a bit below the opcode set are illegal, or dropped. -/
def Obligations.NopAndErrclr : Prop :=
  ∀ s : State,
    (s.err = false → CompletesIn .nop s s 0) ∧
    (s.err = true → exec .nop s = .next { s with rsp := some ⟨false, 0⟩ }) ∧
    CompletesIn .errclr s { s with err := false, cause := 0, einfo := 0 } 0 ∧
    (s.Inv → s.err = false → CompletesIn .errclr s s 0) ∧
    ∀ w : Word, (opcode w = 0 ∨ opcode w = 3) → w.extractLsb' 0 24 ≠ 0 →
      (s.err = false → RaisesIllegalCommand w s) ∧
      (s.err = true → runWord w s = .next { s with cmd := w, rsp := some ⟨false, 0⟩ })

/-- R227 and R228: the byte is stored as given, and a read returns it; LDB changes nothing; and the illegal words. -/
def Obligations.HostBytes : Prop :=
  ∀ (s : State) (addr : BitVec 12) (b : BitVec 8), s.err = false →
    WritesBytes (.stb addr b) s addr.toNat [b] ∧
    (∃ v : Word, v.toNat = (s.readByte addr.toNat).toNat ∧ CompletesIn (.ldb addr) s s v) ∧
    (∃ t v, runCommands [.stb addr b, .ldb addr] s = .next t ∧ t.rsp = some ⟨true, v⟩ ∧ v.toNat = b.toNat) ∧
    ∀ w : Word,
      (opcode w = 0x04 ∧ fieldRd w ≠ 0 → RaisesIllegalCommand w s) ∧
      (opcode w = 0x05 ∧ (fieldRd w ≠ 0 ∨ fieldB8 w ≠ 0) → RaisesIllegalCommand w s)
end

