-- ==== Sys2Proof/Laws/State.lean ====
section
/-! SUPPORT. What each update of the state does to each field (true by rfl), and what the register accessors read after
a write, so that no later proof unfolds a record update. -/

namespace Sys2Proof.Machine

variable (s : State)

/-! `State.setElem` -/

@[simp] theorem State.setElem_e (i : EReg) (v : Elem) : (s.setElem i v).e = s.e.set i v := rfl
@[simp] theorem State.setElem_p (i : EReg) (v : Elem) : (s.setElem i v).p = s.p := rfl
@[simp] theorem State.setElem_c (i : EReg) (v : Elem) : (s.setElem i v).c = s.c := rfl
@[simp] theorem State.setElem_modulus (i : EReg) (v : Elem) : (s.setElem i v).modulus = s.modulus := rfl
@[simp] theorem State.setElem_t (i : EReg) (v : Elem) : (s.setElem i v).t = s.t := rfl
@[simp] theorem State.setElem_err (i : EReg) (v : Elem) : (s.setElem i v).err = s.err := rfl
@[simp] theorem State.setElem_cause (i : EReg) (v : Elem) : (s.setElem i v).cause = s.cause := rfl
@[simp] theorem State.setElem_einfo (i : EReg) (v : Elem) : (s.setElem i v).einfo = s.einfo := rfl
@[simp] theorem State.setElem_dmem (i : EReg) (v : Elem) : (s.setElem i v).dmem = s.dmem := rfl
@[simp] theorem State.setElem_cmd (i : EReg) (v : Elem) : (s.setElem i v).cmd = s.cmd := rfl
@[simp] theorem State.setElem_rsp (i : EReg) (v : Elem) : (s.setElem i v).rsp = s.rsp := rfl
@[simp] theorem State.setElem_events (i : EReg) (v : Elem) : (s.setElem i v).events = s.events := rfl

/-! `State.setPoly` -/

@[simp] theorem State.setPoly_e (i : PReg) (c : Poly) : (s.setPoly i c).e = s.e := rfl
@[simp] theorem State.setPoly_p (i : PReg) (c : Poly) : (s.setPoly i c).p = s.p.set i c := rfl
@[simp] theorem State.setPoly_c (i : PReg) (c : Poly) : (s.setPoly i c).c = s.c := rfl
@[simp] theorem State.setPoly_modulus (i : PReg) (c : Poly) : (s.setPoly i c).modulus = s.modulus := rfl
@[simp] theorem State.setPoly_t (i : PReg) (c : Poly) : (s.setPoly i c).t = s.t := rfl
@[simp] theorem State.setPoly_err (i : PReg) (c : Poly) : (s.setPoly i c).err = s.err := rfl
@[simp] theorem State.setPoly_cause (i : PReg) (c : Poly) : (s.setPoly i c).cause = s.cause := rfl
@[simp] theorem State.setPoly_einfo (i : PReg) (c : Poly) : (s.setPoly i c).einfo = s.einfo := rfl
@[simp] theorem State.setPoly_dmem (i : PReg) (c : Poly) : (s.setPoly i c).dmem = s.dmem := rfl
@[simp] theorem State.setPoly_cmd (i : PReg) (c : Poly) : (s.setPoly i c).cmd = s.cmd := rfl
@[simp] theorem State.setPoly_rsp (i : PReg) (c : Poly) : (s.setPoly i c).rsp = s.rsp := rfl
@[simp] theorem State.setPoly_events (i : PReg) (c : Poly) : (s.setPoly i c).events = s.events := rfl

/-! `State.setReg` -/

@[simp] theorem State.setReg_e (i : CCtx) (r : Word) : (s.setReg i r).e = s.e := rfl
@[simp] theorem State.setReg_p (i : CCtx) (r : Word) : (s.setReg i r).p = s.p := rfl
@[simp] theorem State.setReg_c (i : CCtx) (r : Word) : (s.setReg i r).c = s.c.set i { s.c[i] with reg := r } := rfl
@[simp] theorem State.setReg_modulus (i : CCtx) (r : Word) : (s.setReg i r).modulus = s.modulus := rfl
@[simp] theorem State.setReg_t (i : CCtx) (r : Word) : (s.setReg i r).t = s.t := rfl
@[simp] theorem State.setReg_err (i : CCtx) (r : Word) : (s.setReg i r).err = s.err := rfl
@[simp] theorem State.setReg_cause (i : CCtx) (r : Word) : (s.setReg i r).cause = s.cause := rfl
@[simp] theorem State.setReg_einfo (i : CCtx) (r : Word) : (s.setReg i r).einfo = s.einfo := rfl
@[simp] theorem State.setReg_dmem (i : CCtx) (r : Word) : (s.setReg i r).dmem = s.dmem := rfl
@[simp] theorem State.setReg_cmd (i : CCtx) (r : Word) : (s.setReg i r).cmd = s.cmd := rfl
@[simp] theorem State.setReg_rsp (i : CCtx) (r : Word) : (s.setReg i r).rsp = s.rsp := rfl
@[simp] theorem State.setReg_events (i : CCtx) (r : Word) : (s.setReg i r).events = s.events := rfl

/-! `State.loadGen` -/

@[simp] theorem State.loadGen_e (i : CCtx) (g : Word) : (s.loadGen i g).e = s.e := rfl
@[simp] theorem State.loadGen_p (i : CCtx) (g : Word) : (s.loadGen i g).p = s.p := rfl
@[simp] theorem State.loadGen_c (i : CCtx) (g : Word) : (s.loadGen i g).c = s.c.set i ⟨g, 0⟩ := rfl
@[simp] theorem State.loadGen_modulus (i : CCtx) (g : Word) : (s.loadGen i g).modulus = s.modulus := rfl
@[simp] theorem State.loadGen_t (i : CCtx) (g : Word) : (s.loadGen i g).t = s.t := rfl
@[simp] theorem State.loadGen_err (i : CCtx) (g : Word) : (s.loadGen i g).err = s.err := rfl
@[simp] theorem State.loadGen_cause (i : CCtx) (g : Word) : (s.loadGen i g).cause = s.cause := rfl
@[simp] theorem State.loadGen_einfo (i : CCtx) (g : Word) : (s.loadGen i g).einfo = s.einfo := rfl
@[simp] theorem State.loadGen_dmem (i : CCtx) (g : Word) : (s.loadGen i g).dmem = s.dmem := rfl
@[simp] theorem State.loadGen_cmd (i : CCtx) (g : Word) : (s.loadGen i g).cmd = s.cmd := rfl
@[simp] theorem State.loadGen_rsp (i : CCtx) (g : Word) : (s.loadGen i g).rsp = s.rsp := rfl
@[simp] theorem State.loadGen_events (i : CCtx) (g : Word) : (s.loadGen i g).events = s.events := rfl

/-! `State.setT` -/

@[simp] theorem State.setT_e (b : Bool) : (s.setT b).e = s.e := rfl
@[simp] theorem State.setT_p (b : Bool) : (s.setT b).p = s.p := rfl
@[simp] theorem State.setT_c (b : Bool) : (s.setT b).c = s.c := rfl
@[simp] theorem State.setT_modulus (b : Bool) : (s.setT b).modulus = s.modulus := rfl
@[simp] theorem State.setT_t (b : Bool) : (s.setT b).t = b := rfl
@[simp] theorem State.setT_err (b : Bool) : (s.setT b).err = s.err := rfl
@[simp] theorem State.setT_cause (b : Bool) : (s.setT b).cause = s.cause := rfl
@[simp] theorem State.setT_einfo (b : Bool) : (s.setT b).einfo = s.einfo := rfl
@[simp] theorem State.setT_dmem (b : Bool) : (s.setT b).dmem = s.dmem := rfl
@[simp] theorem State.setT_cmd (b : Bool) : (s.setT b).cmd = s.cmd := rfl
@[simp] theorem State.setT_rsp (b : Bool) : (s.setT b).rsp = s.rsp := rfl
@[simp] theorem State.setT_events (b : Bool) : (s.setT b).events = s.events := rfl

/-! `State.setModulus` -/

@[simp] theorem State.setModulus_e (m : Nat) : (s.setModulus m).e = Vector.replicate 16 0 := rfl
@[simp] theorem State.setModulus_p (m : Nat) : (s.setModulus m).p = Vector.replicate 8 [] := rfl
@[simp] theorem State.setModulus_c (m : Nat) : (s.setModulus m).c = s.c := rfl
@[simp] theorem State.setModulus_modulus (m : Nat) : (s.setModulus m).modulus = BitVec.ofNat 9 m := rfl
@[simp] theorem State.setModulus_t (m : Nat) : (s.setModulus m).t = s.t := rfl
@[simp] theorem State.setModulus_err (m : Nat) : (s.setModulus m).err = s.err := rfl
@[simp] theorem State.setModulus_cause (m : Nat) : (s.setModulus m).cause = s.cause := rfl
@[simp] theorem State.setModulus_einfo (m : Nat) : (s.setModulus m).einfo = s.einfo := rfl
@[simp] theorem State.setModulus_dmem (m : Nat) : (s.setModulus m).dmem = s.dmem := rfl
@[simp] theorem State.setModulus_cmd (m : Nat) : (s.setModulus m).cmd = s.cmd := rfl
@[simp] theorem State.setModulus_rsp (m : Nat) : (s.setModulus m).rsp = s.rsp := rfl
@[simp] theorem State.setModulus_events (m : Nat) : (s.setModulus m).events = s.events := rfl

/-! `State.writeByte` -/

@[simp] theorem State.writeByte_e (a : Nat) (b : Byte) : (s.writeByte a b).e = s.e := rfl
@[simp] theorem State.writeByte_p (a : Nat) (b : Byte) : (s.writeByte a b).p = s.p := rfl
@[simp] theorem State.writeByte_c (a : Nat) (b : Byte) : (s.writeByte a b).c = s.c := rfl
@[simp] theorem State.writeByte_modulus (a : Nat) (b : Byte) : (s.writeByte a b).modulus = s.modulus := rfl
@[simp] theorem State.writeByte_t (a : Nat) (b : Byte) : (s.writeByte a b).t = s.t := rfl
@[simp] theorem State.writeByte_err (a : Nat) (b : Byte) : (s.writeByte a b).err = s.err := rfl
@[simp] theorem State.writeByte_cause (a : Nat) (b : Byte) : (s.writeByte a b).cause = s.cause := rfl
@[simp] theorem State.writeByte_einfo (a : Nat) (b : Byte) : (s.writeByte a b).einfo = s.einfo := rfl
@[simp] theorem State.writeByte_dmem (a : Nat) (b : Byte) : (s.writeByte a b).dmem = s.dmem.insert a b := rfl
@[simp] theorem State.writeByte_cmd (a : Nat) (b : Byte) : (s.writeByte a b).cmd = s.cmd := rfl
@[simp] theorem State.writeByte_rsp (a : Nat) (b : Byte) : (s.writeByte a b).rsp = s.rsp := rfl
@[simp] theorem State.writeByte_events (a : Nat) (b : Byte) : (s.writeByte a b).events = s.events := rfl

/-! `State.respond` -/

@[simp] theorem State.respond_e (v : Word) : (s.respond v).e = s.e := rfl
@[simp] theorem State.respond_p (v : Word) : (s.respond v).p = s.p := rfl
@[simp] theorem State.respond_c (v : Word) : (s.respond v).c = s.c := rfl
@[simp] theorem State.respond_modulus (v : Word) : (s.respond v).modulus = s.modulus := rfl
@[simp] theorem State.respond_t (v : Word) : (s.respond v).t = s.t := rfl
@[simp] theorem State.respond_err (v : Word) : (s.respond v).err = s.err := rfl
@[simp] theorem State.respond_cause (v : Word) : (s.respond v).cause = s.cause := rfl
@[simp] theorem State.respond_einfo (v : Word) : (s.respond v).einfo = s.einfo := rfl
@[simp] theorem State.respond_dmem (v : Word) : (s.respond v).dmem = s.dmem := rfl
@[simp] theorem State.respond_cmd (v : Word) : (s.respond v).cmd = s.cmd := rfl
@[simp] theorem State.respond_rsp (v : Word) : (s.respond v).rsp = some ⟨true, v⟩ := rfl
@[simp] theorem State.respond_events (v : Word) : (s.respond v).events = s.events := rfl

/-! `State.drop` -/

@[simp] theorem State.drop_e : s.drop.e = s.e := rfl
@[simp] theorem State.drop_p : s.drop.p = s.p := rfl
@[simp] theorem State.drop_c : s.drop.c = s.c := rfl
@[simp] theorem State.drop_modulus : s.drop.modulus = s.modulus := rfl
@[simp] theorem State.drop_t : s.drop.t = s.t := rfl
@[simp] theorem State.drop_err : s.drop.err = s.err := rfl
@[simp] theorem State.drop_cause : s.drop.cause = s.cause := rfl
@[simp] theorem State.drop_einfo : s.drop.einfo = s.einfo := rfl
@[simp] theorem State.drop_dmem : s.drop.dmem = s.dmem := rfl
@[simp] theorem State.drop_cmd : s.drop.cmd = s.cmd := rfl
@[simp] theorem State.drop_rsp : s.drop.rsp = some ⟨false, 0⟩ := rfl
@[simp] theorem State.drop_events : s.drop.events = s.events := rfl

/-! `State.takeFault` -/

@[simp] theorem State.takeFault_e (f : FaultCode) : (s.takeFault f).e = s.e := rfl
@[simp] theorem State.takeFault_p (f : FaultCode) : (s.takeFault f).p = s.p := rfl
@[simp] theorem State.takeFault_c (f : FaultCode) : (s.takeFault f).c = s.c := rfl
@[simp] theorem State.takeFault_modulus (f : FaultCode) : (s.takeFault f).modulus = s.modulus := rfl
@[simp] theorem State.takeFault_t (f : FaultCode) : (s.takeFault f).t = s.t := rfl
@[simp] theorem State.takeFault_err (f : FaultCode) : (s.takeFault f).err = true := rfl
@[simp] theorem State.takeFault_cause (f : FaultCode) : (s.takeFault f).cause = f.code := rfl
@[simp] theorem State.takeFault_einfo (f : FaultCode) : (s.takeFault f).einfo = s.cmd := rfl
@[simp] theorem State.takeFault_dmem (f : FaultCode) : (s.takeFault f).dmem = s.dmem := rfl
@[simp] theorem State.takeFault_cmd (f : FaultCode) : (s.takeFault f).cmd = s.cmd := rfl
@[simp] theorem State.takeFault_rsp (f : FaultCode) : (s.takeFault f).rsp = some ⟨false, 0⟩ := rfl
@[simp] theorem State.takeFault_events (f : FaultCode) : (s.takeFault f).events = s.events := rfl

/-! `State.clearFault` -/

@[simp] theorem State.clearFault_e : s.clearFault.e = s.e := rfl
@[simp] theorem State.clearFault_p : s.clearFault.p = s.p := rfl
@[simp] theorem State.clearFault_c : s.clearFault.c = s.c := rfl
@[simp] theorem State.clearFault_modulus : s.clearFault.modulus = s.modulus := rfl
@[simp] theorem State.clearFault_t : s.clearFault.t = s.t := rfl
@[simp] theorem State.clearFault_err : s.clearFault.err = false := rfl
@[simp] theorem State.clearFault_cause : s.clearFault.cause = 0 := rfl
@[simp] theorem State.clearFault_einfo : s.clearFault.einfo = 0 := rfl
@[simp] theorem State.clearFault_dmem : s.clearFault.dmem = s.dmem := rfl
@[simp] theorem State.clearFault_cmd : s.clearFault.cmd = s.cmd := rfl
@[simp] theorem State.clearFault_rsp : s.clearFault.rsp = s.rsp := rfl
@[simp] theorem State.clearFault_events : s.clearFault.events = s.events := rfl

/-! `State.applyReset` -/

@[simp] theorem State.applyReset_e : s.applyReset.e = State.reset.e := rfl
@[simp] theorem State.applyReset_p : s.applyReset.p = State.reset.p := rfl
@[simp] theorem State.applyReset_c : s.applyReset.c = State.reset.c := rfl
@[simp] theorem State.applyReset_modulus : s.applyReset.modulus = State.reset.modulus := rfl
@[simp] theorem State.applyReset_t : s.applyReset.t = State.reset.t := rfl
@[simp] theorem State.applyReset_err : s.applyReset.err = State.reset.err := rfl
@[simp] theorem State.applyReset_cause : s.applyReset.cause = State.reset.cause := rfl
@[simp] theorem State.applyReset_einfo : s.applyReset.einfo = State.reset.einfo := rfl
@[simp] theorem State.applyReset_dmem : s.applyReset.dmem = s.dmem := rfl
@[simp] theorem State.applyReset_cmd : s.applyReset.cmd = State.reset.cmd := rfl
@[simp] theorem State.applyReset_rsp : s.applyReset.rsp = State.reset.rsp := rfl
@[simp] theorem State.applyReset_events : s.applyReset.events = s.events := rfl

/-! `State.accept` -/

@[simp] theorem State.accept_e (w : Word) : (s.accept w).e = s.e := rfl
@[simp] theorem State.accept_p (w : Word) : (s.accept w).p = s.p := rfl
@[simp] theorem State.accept_c (w : Word) : (s.accept w).c = s.c := rfl
@[simp] theorem State.accept_modulus (w : Word) : (s.accept w).modulus = s.modulus := rfl
@[simp] theorem State.accept_t (w : Word) : (s.accept w).t = s.t := rfl
@[simp] theorem State.accept_err (w : Word) : (s.accept w).err = s.err := rfl
@[simp] theorem State.accept_cause (w : Word) : (s.accept w).cause = s.cause := rfl
@[simp] theorem State.accept_einfo (w : Word) : (s.accept w).einfo = s.einfo := rfl
@[simp] theorem State.accept_dmem (w : Word) : (s.accept w).dmem = s.dmem := rfl
@[simp] theorem State.accept_cmd (w : Word) : (s.accept w).cmd = w := rfl
@[simp] theorem State.accept_rsp (w : Word) : (s.accept w).rsp = s.rsp := rfl
@[simp] theorem State.accept_events (w : Word) : (s.accept w).events = s.events := rfl

/-! `State.idle` -/

@[simp] theorem State.idle_e : s.idle.e = s.e := rfl
@[simp] theorem State.idle_p : s.idle.p = s.p := rfl
@[simp] theorem State.idle_c : s.idle.c = s.c := rfl
@[simp] theorem State.idle_modulus : s.idle.modulus = s.modulus := rfl
@[simp] theorem State.idle_t : s.idle.t = s.t := rfl
@[simp] theorem State.idle_err : s.idle.err = s.err := rfl
@[simp] theorem State.idle_cause : s.idle.cause = s.cause := rfl
@[simp] theorem State.idle_einfo : s.idle.einfo = s.einfo := rfl
@[simp] theorem State.idle_dmem : s.idle.dmem = s.dmem := rfl
@[simp] theorem State.idle_cmd : s.idle.cmd = s.cmd := rfl
@[simp] theorem State.idle_rsp : s.idle.rsp = none := rfl
@[simp] theorem State.idle_events : s.idle.events = s.events := rfl

/-! `State.presentFirst` -/

@[simp] theorem State.presentFirst_e (w : Word) : (s.presentFirst w).e = s.e := rfl
@[simp] theorem State.presentFirst_p (w : Word) : (s.presentFirst w).p = s.p := rfl
@[simp] theorem State.presentFirst_c (w : Word) : (s.presentFirst w).c = s.c := rfl
@[simp] theorem State.presentFirst_modulus (w : Word) : (s.presentFirst w).modulus = s.modulus := rfl
@[simp] theorem State.presentFirst_t (w : Word) : (s.presentFirst w).t = s.t := rfl
@[simp] theorem State.presentFirst_err (w : Word) : (s.presentFirst w).err = s.err := rfl
@[simp] theorem State.presentFirst_cause (w : Word) : (s.presentFirst w).cause = s.cause := rfl
@[simp] theorem State.presentFirst_einfo (w : Word) : (s.presentFirst w).einfo = s.einfo := rfl
@[simp] theorem State.presentFirst_dmem (w : Word) : (s.presentFirst w).dmem = s.dmem := rfl
@[simp] theorem State.presentFirst_cmd (w : Word) : (s.presentFirst w).cmd = s.cmd := rfl
@[simp] theorem State.presentFirst_rsp (w : Word) : (s.presentFirst w).rsp = s.rsp := rfl
@[simp] theorem State.presentFirst_events (w : Word) : (s.presentFirst w).events = .command w :: s.events := rfl

/-! The accessors -/

@[simp] theorem State.m_setElem (i : EReg) (v : Elem) : (s.setElem i v).m = s.m := rfl
@[simp] theorem State.m_setPoly (i : PReg) (c : Poly) : (s.setPoly i c).m = s.m := rfl
@[simp] theorem State.m_setReg (i : CCtx) (r : Word) : (s.setReg i r).m = s.m := rfl
@[simp] theorem State.m_loadGen (i : CCtx) (g : Word) : (s.loadGen i g).m = s.m := rfl
@[simp] theorem State.m_setT (b : Bool) : (s.setT b).m = s.m := rfl
@[simp] theorem State.m_writeByte (a : Nat) (b : Byte) : (s.writeByte a b).m = s.m := rfl
@[simp] theorem State.m_respond (v : Word) : (s.respond v).m = s.m := rfl
@[simp] theorem State.m_drop : s.drop.m = s.m := rfl
@[simp] theorem State.m_takeFault (f : FaultCode) : (s.takeFault f).m = s.m := rfl
@[simp] theorem State.m_clearFault : s.clearFault.m = s.m := rfl
@[simp] theorem State.m_accept (w : Word) : (s.accept w).m = s.m := rfl

/-- A 9-bit modulus in 0..511 is stored as it is. -/
theorem State.m_setModulus {m : Nat} (h : m < 512) : (s.setModulus m).m = m := by
  simp [State.m, Nat.mod_eq_of_lt h]

theorem State.elem_setElem (i j : EReg) (v : Elem) :
    (s.setElem i v).elem j = if i = j then v else s.elem j := by
  simp only [State.elem, State.setElem_e, Fin.getElem_fin, Vector.getElem_set, Fin.ext_iff]

@[simp] theorem State.elem_setElem_same (i : EReg) (v : Elem) : (s.setElem i v).elem i = v := by
  simp [State.elem_setElem]

theorem State.elem_setElem_other {i j : EReg} (h : i ≠ j) (v : Elem) : (s.setElem i v).elem j = s.elem j := by
  simp [State.elem_setElem, h]

theorem State.poly_setPoly (i j : PReg) (c : Poly) :
    (s.setPoly i c).poly j = if i = j then c else s.poly j := by
  simp only [State.poly, State.setPoly_p, Fin.getElem_fin, Vector.getElem_set, Fin.ext_iff]

@[simp] theorem State.poly_setPoly_same (i : PReg) (c : Poly) : (s.setPoly i c).poly i = c := by
  simp [State.poly_setPoly]

theorem State.poly_setPoly_other {i j : PReg} (h : i ≠ j) (c : Poly) : (s.setPoly i c).poly j = s.poly j := by
  simp [State.poly_setPoly, h]

theorem State.gen_setReg (i j : CCtx) (r : Word) : (s.setReg i r).gen j = s.gen j := by
  simp only [State.gen, State.setReg_c, Fin.getElem_fin, Vector.getElem_set]
  split <;> simp_all

theorem State.reg_setReg (i j : CCtx) (r : Word) :
    (s.setReg i r).reg j = if i = j then r else s.reg j := by
  simp only [State.reg, State.setReg_c, Fin.getElem_fin, Vector.getElem_set, Fin.ext_iff]
  split <;> simp_all

theorem State.gen_loadGen (i j : CCtx) (g : Word) :
    (s.loadGen i g).gen j = if i = j then g else s.gen j := by
  simp only [State.gen, State.loadGen_c, Fin.getElem_fin, Vector.getElem_set, Fin.ext_iff]
  split <;> simp_all

theorem State.reg_loadGen (i j : CCtx) (g : Word) :
    (s.loadGen i g).reg j = if i = j then 0 else s.reg j := by
  simp only [State.reg, State.loadGen_c, Fin.getElem_fin, Vector.getElem_set, Fin.ext_iff]
  split <;> simp_all

@[simp] theorem State.elem_setModulus (m : Nat) (i : EReg) : (s.setModulus m).elem i = 0 := by
  simp [State.elem]

@[simp] theorem State.poly_setModulus (m : Nat) (i : PReg) : (s.setModulus m).poly i = [] := by
  simp [State.poly]

/-- The next step accepts exactly the table word. -/
@[simp] theorem State.withFetchWord_events (nbits w : Nat) :
    (s.withFetchWord nbits w).events = .command (BitVec.ofNat 32 (w % 2 ^ nbits)) :: s.events := rfl

end Sys2Proof.Machine
end

