-- ==== Sys2Proof/Laws/Memory.lean ====
section
/-! SUPPORT. What the DMEM operations do: a read after a write, what a write leaves alone, and that every operation
keeps the canonical form. -/

namespace Sys2Proof.Machine

/-! ### One byte -/

theorem Memory.find_insert (m : Memory) (a b : Nat) (x : Byte) :
    (m.insert a x).find b = if b = a then some x else m.find b := by
  induction m with
  | nil => simp [Memory.insert, Memory.find]
  | cons c rest ih =>
    obtain ⟨k, v⟩ := c
    by_cases h1 : a < k
    · simp [Memory.insert, Memory.find, h1]
    · by_cases h2 : a = k
      · subst h2; by_cases h3 : b = a <;> simp [Memory.insert, Memory.find, h3]
      · by_cases h3 : b = k
        · subst h3; simp [Memory.insert, Memory.find, h1, h2, Ne.symm h2]
        · simp [Memory.insert, Memory.find, h1, h2, h3, ih]

theorem State.readByte_writeByte (s : State) (a b : Nat) (x : Byte) :
    (s.writeByte a x).readByte b = if b = a then x else s.readByte b := by
  simp only [State.readByte, State.writeByte_dmem, Memory.find_insert]
  split <;> simp

@[simp] theorem State.readByte_writeByte_same (s : State) (a : Nat) (x : Byte) :
    (s.writeByte a x).readByte a = x := by simp [State.readByte_writeByte]

theorem State.readByte_writeByte_other (s : State) {a b : Nat} (h : b ≠ a) (x : Byte) :
    (s.writeByte a x).readByte b = s.readByte b := by simp [State.readByte_writeByte, h]

/-- What a read returns depends on DMEM only. -/
theorem State.readByte_congr {s t : State} (h : t.dmem = s.dmem) (a : Nat) : t.readByte a = s.readByte a := by
  simp [State.readByte, h]

/-! ### The canonical form -/

theorem Memory.risesFrom_insert (m : Memory) (lo a : Nat) (x : Byte) (hlo : lo ≤ a) (ha : a < Config.dsize)
    (h : Memory.risesFrom lo m = true) : Memory.risesFrom lo (m.insert a x) = true := by
  induction m generalizing lo with
  | nil => simp [Memory.insert, Memory.risesFrom, hlo, ha]
  | cons c rest ih =>
    obtain ⟨k, v⟩ := c
    simp only [Memory.risesFrom, Bool.and_eq_true, decide_eq_true_eq] at h
    obtain ⟨⟨h1, h2⟩, h3⟩ := h
    by_cases hak : a < k
    · simp [Memory.insert, Memory.risesFrom, hak, hlo, ha, h2, h3, Nat.succ_le_of_lt hak]
    · by_cases he : a = k
      · subst he; simp [Memory.insert, Memory.risesFrom, hlo, ha, h3]
      · have := ih (k + 1) (by omega) h3
        simp [Memory.insert, Memory.risesFrom, hak, he, h1, h2, this]

/-- Writing a byte of DMEM keeps the canonical form. -/
theorem Memory.wf_insert {m : Memory} (h : m.wf = true) {a : Nat} (ha : a < Config.dsize) (x : Byte) :
    (m.insert a x).wf = true := Memory.risesFrom_insert m 0 a x (Nat.zero_le a) ha h

/-- The memory after reset has the canonical form. -/
theorem Memory.wf_reset : State.reset.dmem.wf = true := rfl

/-! ### Lists of bytes -/

@[simp] theorem State.readBytes_length (s : State) (a n : Nat) : (s.readBytes a n).length = n := by
  induction n generalizing a with
  | zero => rfl
  | succ n ih => simp [State.readBytes, ih]

/-- Entry i of a transfer stands at address a + i (R54). -/
theorem State.readBytes_getElem (s : State) (a n i : Nat) (h : i < n) :
    (s.readBytes a n)[i]'(by simpa using h) = s.readByte (a + i) := by
  induction n generalizing a i with
  | zero => omega
  | succ n ih =>
    cases i with
    | zero => simp [State.readBytes]
    | succ i => simp only [State.readBytes, List.getElem_cons_succ]; rw [ih (a + 1) i (by omega)]; congr 1; omega

/-- A transfer of a + b bytes is the transfer of the first a, then of the rest. -/
theorem State.readBytes_add (s : State) (a n k : Nat) :
    s.readBytes a (n + k) = s.readBytes a n ++ s.readBytes (a + n) k := by
  induction n generalizing a with
  | zero => simp [State.readBytes]
  | succ n ih =>
    rw [show n + 1 + k = (n + k) + 1 by omega]
    simp only [State.readBytes, List.cons_append, ih]
    rw [show a + 1 + n = a + (n + 1) by omega]

theorem State.readBytes_congr {s t : State} (h : t.dmem = s.dmem) (a n : Nat) :
    t.readBytes a n = s.readBytes a n := by
  induction n generalizing a with
  | zero => rfl
  | succ n ih => simp only [State.readBytes, ih, State.readByte_congr h]

/-- A list write changes DMEM and nothing else. -/
theorem State.writeBytes_eq (s : State) (a : Nat) (bs : List Byte) :
    s.writeBytes a bs = { s with dmem := (s.writeBytes a bs).dmem } := by
  induction bs generalizing s a with
  | nil => rfl
  | cons b bs ih => rw [State.writeBytes, ih]; rfl

/-- What every byte reads after a list write: the bytes written, and every other byte as before. -/
theorem State.readByte_writeBytes (s : State) (a : Nat) (bs : List Byte) (x : Nat) :
    (s.writeBytes a bs).readByte x =
      if a ≤ x ∧ x < a + bs.length then bs.getD (x - a) 0 else s.readByte x := by
  induction bs generalizing s a with
  | nil => simp [State.writeBytes]
  | cons b bs ih =>
    rw [State.writeBytes, ih]
    by_cases h : x = a
    · subst h; simp
    · by_cases h2 : a + 1 ≤ x ∧ x < a + 1 + bs.length
      · rw [if_pos h2, if_pos (by simp; omega), show x - a = (x - (a + 1)) + 1 by omega]; simp
      · rw [if_neg h2, if_neg (by simp; omega), State.readByte_writeByte_other _ h]

/-- A list write inside DMEM keeps the canonical form. -/
theorem State.wf_writeBytes (s : State) (a : Nat) (bs : List Byte) (h : s.dmem.wf = true)
    (ha : bs = [] ∨ a + bs.length ≤ Config.dsize) : (s.writeBytes a bs).dmem.wf = true := by
  induction bs generalizing s a with
  | nil => exact h
  | cons b bs ih =>
    have hlen : a + (bs.length + 1) ≤ Config.dsize := by simpa using ha
    exact ih _ _ (Memory.wf_insert h (by omega) b) (.inr (by omega))

/-! ### MemRead and MemWrite with the range rule R53 -/

/-- All MemRead can do. -/
theorem State.memRead_cases (s : State) (a n : Nat) :
    (s.memRead a n = .error .addressRange ∧ n ≠ 0 ∧ Config.dsize < a + n) ∨
    (s.memRead a n = .ok (s.readBytes a n) ∧ (n = 0 ∨ a + n ≤ Config.dsize)) := by
  unfold State.memRead; split
  · exact .inl ⟨rfl, ‹_›⟩
  · exact .inr ⟨rfl, by omega⟩

theorem State.memRead_ok (s : State) {a n : Nat} (h : a + n ≤ Config.dsize) :
    s.memRead a n = .ok (s.readBytes a n) := by
  unfold State.memRead; rw [if_neg (by omega)]

/-- A single byte at a 12-bit address is always inside DMEM (R57, R253). -/
theorem State.memRead_one (s : State) (a : BitVec 12) :
    s.memRead (address a) 1 = .ok [s.readByte (address a)] := by
  rw [s.memRead_ok (by have := a.isLt; simp only [address, Config.dsize]; omega)]; rfl

/-- All MemWrite can do. -/
theorem State.memWrite_cases (s : State) (a : Nat) (bs : List Byte) :
    (s.memWrite a bs = .error .addressRange ∧ bs ≠ [] ∧ Config.dsize < a + bs.length) ∨
    (s.memWrite a bs = .ok (s.writeBytes a bs) ∧ (bs = [] ∨ a + bs.length ≤ Config.dsize)) := by
  unfold State.memWrite; split
  · rename_i h; exact .inl ⟨rfl, by simpa using h.1, h.2⟩
  · rename_i h; refine .inr ⟨rfl, ?_⟩
    rcases bs with _ | ⟨b, bs⟩
    · exact .inl rfl
    · right; simp only [List.length_cons] at h ⊢; omega

theorem State.memWrite_one (s : State) (a : BitVec 12) (b : Byte) :
    s.memWrite (address a) [b] = .ok (s.writeByte (address a) b) := by
  unfold State.memWrite
  rw [if_neg (by have := a.isLt; simp only [address, Config.dsize, List.length_singleton]; omega)]; rfl

end Sys2Proof.Machine
end

