-- ==== Sys2Proof/Laws/Ops.lean ====
section
/-! SUPPORT. What completing, faulting and dropping a command can do, said once for every meaning. -/

namespace Sys2Proof.Machine

/-- All `execute` can do: a drop, a completion or a fault entry, and always a next state. -/
theorem State.execute_cases (s : State) (body : Except FaultCode (State × Word)) :
    (s.err = true ∧ s.execute body = .next s.drop) ∨
    (s.err = false ∧ ∃ s' v, body = .ok (s', v) ∧ s.execute body = .next (s'.respond v)) ∨
    (s.err = false ∧ ∃ f, body = .error f ∧ s.execute body = .next (s.takeFault f)) := by
  unfold State.execute
  cases h : s.err
  · rcases body with f | ⟨s', v⟩
    · exact .inr (.inr ⟨rfl, f, rfl, rfl⟩)
    · exact .inr (.inl ⟨rfl, s', v, rfl, rfl⟩)
  · exact .inl ⟨rfl, rfl⟩

/-- All a command without data can do. -/
theorem State.command_cases (s : State) (body : Except FaultCode State) :
    (s.err = true ∧ s.command body = .next s.drop) ∨
    (s.err = false ∧ ∃ s', body = .ok s' ∧ s.command body = .next (s'.respond 0)) ∨
    (s.err = false ∧ ∃ f, body = .error f ∧ s.command body = .next (s.takeFault f)) := by
  rcases s.execute_cases (body.map fun s' => (s', 0)) with h | ⟨he, s', v, hb, h⟩ | ⟨he, f, hb, h⟩
  · exact .inl h
  · rcases body with f | s'' <;> simp only [Except.map, Except.ok.injEq, Prod.mk.injEq, reduceCtorEq] at hb
    obtain ⟨rfl, rfl⟩ := hb
    exact .inr (.inl ⟨he, _, rfl, h⟩)
  · rcases body with g | s'' <;> simp only [Except.map, Except.error.injEq, reduceCtorEq] at hb
    subst hb
    exact .inr (.inr ⟨he, g, rfl, h⟩)

/-- All a read command can do. -/
theorem State.query_cases (s : State) (v : Word) :
    (s.err = true ∧ s.query v = .next s.drop) ∨ (s.err = false ∧ s.query v = .next (s.respond v)) := by
  unfold State.query State.execute
  cases h : s.err <;> simp

@[simp] theorem State.command_drop {s : State} (h : s.err = true) (body : Except FaultCode State) :
    s.command body = .next s.drop := by simp [State.command, State.execute, h]

@[simp] theorem State.command_ok {s : State} (h : s.err = false) (s' : State) :
    s.command (.ok s') = .next (s'.respond 0) := by simp [State.command, State.execute, h, Except.map]

@[simp] theorem State.command_error {s : State} (h : s.err = false) (f : FaultCode) :
    s.command (.error f) = .next (s.takeFault f) := by simp [State.command, State.execute, h, Except.map]

@[simp] theorem State.query_ok {s : State} (h : s.err = false) (v : Word) :
    s.query v = .next (s.respond v) := by simp [State.query, State.execute, h]

@[simp] theorem State.query_drop {s : State} (h : s.err = true) (v : Word) :
    s.query v = .next s.drop := by simp [State.query, State.execute, h]

/-- The code of a fault is never 0, the value CAUSE has while ERR = 0 (R241). -/
theorem FaultCode.code_ne_zero (f : FaultCode) : f.code ≠ 0 := by cases f <;> decide

/-- Two faults have two codes (R241). -/
theorem FaultCode.code_injective {f g : FaultCode} (h : f.code = g.code) : f = g := by
  cases f <;> cases g <;> first | rfl | (exact absurd h (by decide))

/-- All `csr` can answer: a value for 0..3, nothing above (R34). -/
theorem State.csr_isSome (s : State) (n : Nat) : (s.csr n).isSome = decide (n ≤ 3) := by
  rcases n with _ | _ | _ | _ | n <;> simp [State.csr]

/-- What the port does with the oldest event, one lemma for each case. -/
theorem step_idle {s : State} (h : s.events = []) : step s = .next s.idle := by simp [step, serveHost, h]

theorem step_rst {s : State} {rest : List HostEvent} (h : s.events = .rst :: rest) :
    step s = .next { s with events := rest }.applyReset := by simp [step, serveHost, h]

theorem step_command {s : State} {w : Word} {rest : List HostEvent} (h : s.events = .command w :: rest) :
    step s = runWord w { s with events := rest } := by simp [step, serveHost, h]

/-- All the port can do in one step. -/
theorem step_cases (s : State) :
    (s.events = [] ∧ step s = .next s.idle) ∨
    (∃ rest, s.events = .rst :: rest ∧ step s = .next { s with events := rest }.applyReset) ∨
    (∃ w rest i, s.events = .command w :: rest ∧ decode w = .ok i ∧
      step s = exec i ({ s with events := rest }.accept w)) ∨
    (∃ w rest d, s.events = .command w :: rest ∧ decode w = .error d ∧
      step s = ({ s with events := rest }.accept w).command (.error .illegalCommand)) := by
  rcases h : s.events with _ | ⟨ev, rest⟩
  · exact .inl ⟨rfl, step_idle h⟩
  · cases ev with
    | rst => exact .inr (.inl ⟨rest, rfl, step_rst h⟩)
    | command w =>
      have hs := step_command h
      rcases hd : decode w with d | i
      · exact .inr (.inr (.inr ⟨w, rest, d, rfl, hd, by rw [hs]; simp [runWord, hd]⟩))
      · exact .inr (.inr (.inl ⟨w, rest, i, rfl, hd, by rw [hs]; simp [runWord, hd]⟩))

end Sys2Proof.Machine
end

