-- ==== Sys2Proof/Laws/Crc.lean ====
section
/-! SUPPORT. What the byte step of 43_crc_shift_xor.md R204 does: eight conditional XORs of the aligned generator, which
bring the register back below the generator's degree (R208). -/

namespace Sys2Proof.Machine

/-- The width L of a context (R31): the generator's top bit is bit L - 1. -/
theorem bitlen_spec {g : Word} (h : g ≠ 0) :
    1 ≤ bitlen g ∧ bitlen g ≤ 32 ∧ 2 ^ (bitlen g - 1) ≤ g.toNat ∧ g.toNat < 2 ^ bitlen g ∧
      g.toNat.testBit (bitlen g - 1) = true := by
  have hn : g.toNat ≠ 0 := fun h0 => h (BitVec.eq_of_toNat_eq h0)
  have hl : bitlen g = Nat.log2 g.toNat + 1 := if_neg h
  have h1 := Nat.log2_self_le hn
  have h2 := Nat.lt_log2_self (n := g.toNat)
  have h3 : Nat.log2 g.toNat < 32 := (Nat.log2_lt hn).2 g.isLt
  rw [hl]
  refine ⟨by omega, by omega, by simpa using h1, h2, ?_⟩
  rw [Nat.add_sub_cancel]
  by_contra hb
  have : g.toNat < 2 ^ Nat.log2 g.toNat := Nat.lt_pow_two_of_testBit _ fun i hi => by
    rcases Nat.eq_or_lt_of_le hi with rfl | hlt
    · simpa using hb
    · exact Nat.testBit_lt_two_pow (h2.trans_le (Nat.pow_le_pow_right (by norm_num) hlt))
  omega

/-- Two numbers of n + 1 bits that both have the top bit: their XOR has n bits. -/
theorem xor_lt_of_top {x y n : Nat} (hx : x < 2 ^ (n + 1)) (hy : y < 2 ^ (n + 1)) (bx : x.testBit n = true)
    (bY : y.testBit n = true) : x ^^^ y < 2 ^ n :=
  Nat.lt_pow_two_of_testBit _ fun i hi => by
    rcases Nat.eq_or_lt_of_le hi with rfl | hlt
    · simp [bx, bY]
    · rw [Nat.testBit_xor, Nat.testBit_lt_two_pow (hx.trans_le (Nat.pow_le_pow_right (by norm_num) hlt)),
        Nat.testBit_lt_two_pow (hy.trans_le (Nat.pow_le_pow_right (by norm_num) hlt))]; rfl

/-- A number of n + 1 bits without the top bit has n bits. -/
theorem lt_of_not_top {x n : Nat} (hx : x < 2 ^ (n + 1)) (bx : x.testBit n = false) : x < 2 ^ n :=
  Nat.lt_pow_two_of_testBit _ fun i hi => by
    rcases Nat.eq_or_lt_of_le hi with rfl | hlt
    · exact bx
    · exact Nat.testBit_lt_two_pow (hx.trans_le (Nat.pow_le_pow_right (by norm_num) hlt))

/-- One step of R204 on numbers. -/
def crcStepNat (g L comb i : Nat) : Nat := if comb.testBit (L + 6 - i) then comb ^^^ g <<< (7 - i) else comb

theorem crcStep_toNat (gen : Word) (comb : BitVec 40) (i : Nat) :
    (crcStep gen comb i).toNat = crcStepNat gen.toNat (bitlen gen) comb.toNat i := by
  unfold crcStep crcStepNat
  rw [BitVec.testBit_toNat]
  split
  · have hg : gen.toNat < 2 ^ 32 := gen.isLt
    have hw : (gen.setWidth 40).toNat = gen.toNat := by
      rw [BitVec.toNat_setWidth]; exact Nat.mod_eq_of_lt (hg.trans (by norm_num))
    have hs : gen.toNat * 2 ^ (7 - i) < 2 ^ 40 :=
      (Nat.mul_le_mul_left _ (Nat.pow_le_pow_right (by norm_num) (show 7 - i ≤ 7 by omega))).trans_lt (by omega)
    rw [BitVec.toNat_xor, BitVec.toNat_shiftLeft, hw, Nat.shiftLeft_eq, Nat.mod_eq_of_lt hs]
  · rfl

/-- One step takes one bit off the top, XORing in the generator where the decision bit is set. -/
theorem crcStepNat_spec {g : Word} (hg : g ≠ 0) {comb i : Nat} (hi : i ≤ 7) (hc : comb < 2 ^ (bitlen g + 7 - i)) :
    crcStepNat g.toNat (bitlen g) comb i < 2 ^ (bitlen g + 6 - i) ∧
    ∃ b : Bool, crcStepNat g.toNat (bitlen g) comb i = if b then comb ^^^ g.toNat <<< (7 - i) else comb := by
  obtain ⟨h1, _, _, h4, h5⟩ := bitlen_spec hg
  refine ⟨?_, comb.testBit (bitlen g + 6 - i), rfl⟩
  unfold crcStepNat
  have he : bitlen g + 7 - i = (bitlen g + 6 - i) + 1 := by omega
  rw [he] at hc
  split
  · refine xor_lt_of_top hc ?_ ‹_› ?_
    · rw [Nat.shiftLeft_eq]
      calc g.toNat * 2 ^ (7 - i) < 2 ^ bitlen g * 2 ^ (7 - i) := Nat.mul_lt_mul_of_pos_right h4 (Nat.two_pow_pos _)
        _ = 2 ^ (bitlen g + 6 - i + 1) := by rw [← Nat.pow_add]; congr 1; omega
    · rw [Nat.testBit_shiftLeft, decide_eq_true (by omega), Bool.true_and,
        show bitlen g + 6 - i - (7 - i) = bitlen g - 1 by omega, h5]
  · exact lt_of_not_top hc (Bool.eq_false_iff.2 ‹_›)

/-- Any eight bits are the bits of a number below 256. -/
theorem byte_of_bits : ∀ b0 b1 b2 b3 b4 b5 b6 b7 : Bool, ∃ q < 256, q.testBit 0 = b0 ∧ q.testBit 1 = b1 ∧
    q.testBit 2 = b2 ∧ q.testBit 3 = b3 ∧ q.testBit 4 = b4 ∧ q.testBit 5 = b5 ∧ q.testBit 6 = b6 ∧
    q.testBit 7 = b7 := by
  intro b0 b1 b2 b3 b4 b5 b6 b7
  refine ⟨_, (BitVec.ofFnLE fun i : Fin 8 => [b0, b1, b2, b3, b4, b5, b6, b7].getD i false).isLt, ?_⟩
  simp only [BitVec.testBit_toNat, BitVec.getLsbD_ofFnLE]
  simp

/-- `y` XORed in where the decision bit is set. -/
abbrev xorIf (d : Bool) (y : Nat) : Nat := if d then y else 0

theorem clmul_eq (q g : Nat) : clmul q g =
    xorIf (q.testBit 0) (g <<< 0) ^^^ xorIf (q.testBit 1) (g <<< 1) ^^^ xorIf (q.testBit 2) (g <<< 2) ^^^
    xorIf (q.testBit 3) (g <<< 3) ^^^ xorIf (q.testBit 4) (g <<< 4) ^^^ xorIf (q.testBit 5) (g <<< 5) ^^^
    xorIf (q.testBit 6) (g <<< 6) ^^^ xorIf (q.testBit 7) (g <<< 7) := by
  have h : ∀ (d : Bool) (acc y : Nat), (if d = true then acc ^^^ y else acc) = acc ^^^ xorIf d y := by
    intro d acc y; cases d <;> simp [xorIf]
  simp only [clmul, List.range, List.range.loop, List.foldl, h, Nat.zero_xor]

theorem lowMask_toNat {n : Nat} (hn : n ≤ 40) : (lowMask n).toNat = 2 ^ n - 1 := by
  have := Nat.pow_le_pow_right (n := 2) (by norm_num) hn
  rw [lowMask, BitVec.toNat_ofNat, Nat.mod_eq_of_lt (by have := Nat.two_pow_pos n; omega)]

/-- The register and the byte side by side, before the first step. -/
theorem crcInput_toNat (reg : Word) (b : Byte) :
    ((reg.setWidth 40 <<< 8) ||| b.setWidth 40).toNat = reg.toNat * 256 + b.toNat := by
  have hreg : reg.toNat < 2 ^ 32 := reg.isLt
  have hby : b.toNat < 2 ^ 8 := b.isLt
  have hw : (reg.setWidth 40).toNat = reg.toNat := by
    rw [BitVec.toNat_setWidth]; exact Nat.mod_eq_of_lt (hreg.trans (by norm_num))
  have hwb : (b.setWidth 40).toNat = b.toNat := by
    rw [BitVec.toNat_setWidth]; exact Nat.mod_eq_of_lt (hby.trans (by norm_num))
  have hs : reg.toNat * 2 ^ 8 < 2 ^ 40 := by omega
  rw [BitVec.toNat_or, BitVec.toNat_shiftLeft, hw, hwb, Nat.shiftLeft_eq, Nat.mod_eq_of_lt hs, ← Nat.shiftLeft_eq,
    ← Nat.shiftLeft_add_eq_or_of_lt hby, Nat.shiftLeft_eq]

/-- All the byte step does on a legal context with a generator (R204, R208): the register times x^8 plus the byte, less
a multiple of the generator, and again below the generator's degree. -/
theorem crcByte_spec {gen reg : Word} (hg : gen ≠ 0) (hr : reg.toNat < 2 ^ (bitlen gen - 1)) (b : Byte) :
    (crcByte gen reg b).toNat < 2 ^ (bitlen gen - 1) ∧
    ∃ q < 256, (crcByte gen reg b).toNat = (reg.toNat * 256 + b.toNat) ^^^ clmul q gen.toNat := by
  obtain ⟨h1, h2, _, _, _⟩ := bitlen_spec hg
  have hL : 2 ^ bitlen gen = 2 ^ (bitlen gen - 1) * 2 := by rw [← Nat.pow_succ]; congr 1; omega
  have h8 : 2 ^ (bitlen gen + 8) = 2 ^ (bitlen gen - 1) * 512 := by
    rw [show bitlen gen + 8 = bitlen gen - 1 + 9 by omega, Nat.pow_add]
  have h7 : 2 ^ (bitlen gen + 7) = 2 ^ (bitlen gen - 1) * 256 := by
    rw [show bitlen gen + 7 = bitlen gen - 1 + 8 by omega, Nat.pow_add]
  have hlt7 : reg.toNat * 256 + b.toNat < 2 ^ (bitlen gen + 7) := by have := b.isLt; omega
  have hin : (((reg.setWidth 40 <<< 8) ||| b.setWidth 40) &&& lowMask (bitlen gen + 8)).toNat =
      reg.toNat * 256 + b.toNat := by
    rw [BitVec.toNat_and, lowMask_toNat (by omega), crcInput_toNat, Nat.and_two_pow_sub_one_eq_mod,
      Nat.mod_eq_of_lt (hlt7.trans (by omega))]
  have step : ∀ (comb : BitVec 40) (i : Nat), i ≤ 7 → comb.toNat < 2 ^ (bitlen gen + 7 - i) →
      (crcStep gen comb i).toNat < 2 ^ (bitlen gen + 7 - (i + 1)) ∧
      ∃ d : Bool, (crcStep gen comb i).toNat = comb.toNat ^^^ (if d then gen.toNat <<< (7 - i) else 0) := by
    intro comb i hi hc
    rw [crcStep_toNat]
    obtain ⟨ha, d, hd⟩ := crcStepNat_spec hg hi hc
    refine ⟨by rwa [show bitlen gen + 7 - (i + 1) = bitlen gen + 6 - i by omega], d, ?_⟩
    rw [hd]; cases d <;> simp
  unfold crcByte
  generalize ((reg.setWidth 40 <<< 8) ||| b.setWidth 40) &&& lowMask (bitlen gen + 8) = c0 at hin
  obtain ⟨l1, d1, e1⟩ := step c0 0 (by omega) (by rw [hin]; exact hlt7)
  obtain ⟨l2, d2, e2⟩ := step _ 1 (by omega) l1
  obtain ⟨l3, d3, e3⟩ := step _ 2 (by omega) l2
  obtain ⟨l4, d4, e4⟩ := step _ 3 (by omega) l3
  obtain ⟨l5, d5, e5⟩ := step _ 4 (by omega) l4
  obtain ⟨l6, d6, e6⟩ := step _ 5 (by omega) l5
  obtain ⟨l7, d7, e7⟩ := step _ 6 (by omega) l6
  obtain ⟨l8, d8, e8⟩ := step _ 7 (by omega) l7
  rw [show bitlen gen + 7 - (7 + 1) = bitlen gen - 1 by omega] at l8
  have hfold : (List.range 8).foldl (crcStep gen) c0 =
      crcStep gen (crcStep gen (crcStep gen (crcStep gen (crcStep gen (crcStep gen (crcStep gen (crcStep gen c0
        0) 1) 2) 3) 4) 5) 6) 7 := rfl
  have hout : ((List.range 8).foldl (crcStep gen) c0 &&& lowMask (bitlen gen)).toNat =
      (crcStep gen (crcStep gen (crcStep gen (crcStep gen (crcStep gen (crcStep gen (crcStep gen (crcStep gen c0
        0) 1) 2) 3) 4) 5) 6) 7).toNat := by
    rw [hfold, BitVec.toNat_and, lowMask_toNat (by omega), Nat.and_two_pow_sub_one_eq_mod, Nat.mod_eq_of_lt (by omega)]
  have hle : 2 ^ (bitlen gen - 1) ≤ 2 ^ 31 := Nat.pow_le_pow_right (by norm_num) (by omega)
  rw [BitVec.toNat_setWidth, hout, Nat.mod_eq_of_lt (by omega)]
  refine ⟨l8, ?_⟩
  obtain ⟨q, hq, b0, b1, b2, b3, b4, b5, b6, b7⟩ := byte_of_bits d8 d7 d6 d5 d4 d3 d2 d1
  refine ⟨q, hq, ?_⟩
  rw [e8, e7, e6, e5, e4, e3, e2, e1, hin, clmul_eq, b0, b1, b2, b3, b4, b5, b6, b7]
  ac_rfl

end Sys2Proof.Machine
end

