-- ==== Sys2Proof/Laws/Decode.lean ====
section
/-! SUPPORT. The fields of a word put together from fields, and a word put together from its own fields, for the three
formats of 30_encoding.md R71. -/

namespace Sys2Proof

/-- Appending bit vectors, as integers. -/
theorem toNat_append_add {n k : Nat} (x : BitVec n) (y : BitVec k) :
    (x ++ y).toNat = x.toNat * 2 ^ k + y.toNat := by
  rw [BitVec.toNat_append, ← Nat.shiftLeft_add_eq_or_of_lt y.isLt, Nat.shiftLeft_eq]

theorem fmtR_toNat (op : BitVec 8) (rd ra rb rc : BitVec 4) :
    (fmtR op rd ra rb rc).toNat =
      op.toNat * 16777216 + rd.toNat * 1048576 + ra.toNat * 65536 + rb.toNat * 4096 + rc.toNat * 256 := by
  have h : (fmtR op rd ra rb rc).toNat =
      ((((op.toNat * 2 ^ 4 + rd.toNat) * 2 ^ 4 + ra.toNat) * 2 ^ 4 + rb.toNat) * 2 ^ 4 + rc.toNat) * 2 ^ 8 + 0 := by
    simp only [← toNat_append_add]
    exact toNat_append_add (op ++ rd ++ ra ++ rb ++ rc) (0 : BitVec 8)
  rw [h]; ring

theorem fmtI_toNat (op : BitVec 8) (rd ra : BitVec 4) (imm : BitVec 16) :
    (fmtI op rd ra imm).toNat =
      op.toNat * 16777216 + rd.toNat * 1048576 + ra.toNat * 65536 + imm.toNat := by
  have h : (fmtI op rd ra imm).toNat =
      ((op.toNat * 2 ^ 4 + rd.toNat) * 2 ^ 4 + ra.toNat) * 2 ^ 16 + imm.toNat := by
    simp only [← toNat_append_add]
    rfl
  rw [h]; ring

theorem fmtM_toNat (op : BitVec 8) (rd : BitVec 4) (b8 : BitVec 8) (addr : BitVec 12) :
    (fmtM op rd b8 addr).toNat =
      op.toNat * 16777216 + rd.toNat * 1048576 + b8.toNat * 4096 + addr.toNat := by
  have h : (fmtM op rd b8 addr).toNat =
      ((op.toNat * 2 ^ 4 + rd.toNat) * 2 ^ 8 + b8.toNat) * 2 ^ 12 + addr.toNat := by
    simp only [← toNat_append_add]
    rfl
  rw [h]; ring

/-! The fields of a word, as integers. -/

theorem opcode_toNat (w : Word) : (opcode w).toNat = w.toNat / 16777216 := by
  have := w.isLt
  simp only [opcode, BitVec.extractLsb'_toNat, Nat.shiftRight_eq_div_pow]; omega

theorem fieldRd_toNat (w : Word) : (fieldRd w).toNat = w.toNat / 1048576 % 16 := by
  simp only [fieldRd, BitVec.extractLsb'_toNat, Nat.shiftRight_eq_div_pow, Nat.reducePow]

theorem fieldRa_toNat (w : Word) : (fieldRa w).toNat = w.toNat / 65536 % 16 := by
  simp only [fieldRa, BitVec.extractLsb'_toNat, Nat.shiftRight_eq_div_pow, Nat.reducePow]

theorem fieldRb_toNat (w : Word) : (fieldRb w).toNat = w.toNat / 4096 % 16 := by
  simp only [fieldRb, BitVec.extractLsb'_toNat, Nat.shiftRight_eq_div_pow, Nat.reducePow]

theorem fieldRc_toNat (w : Word) : (fieldRc w).toNat = w.toNat / 256 % 16 := by
  simp only [fieldRc, BitVec.extractLsb'_toNat, Nat.shiftRight_eq_div_pow, Nat.reducePow]

theorem fieldZero_toNat (w : Word) : (fieldZero w).toNat = w.toNat % 256 := by
  simp only [fieldZero, BitVec.extractLsb'_toNat, Nat.shiftRight_eq_div_pow, Nat.reducePow, Nat.div_one]

theorem fieldImm_toNat (w : Word) : (fieldImm w).toNat = w.toNat % 65536 := by
  simp only [fieldImm, BitVec.extractLsb'_toNat, Nat.shiftRight_eq_div_pow, Nat.reducePow, Nat.div_one]

theorem fieldB8_toNat (w : Word) : (fieldB8 w).toNat = w.toNat / 4096 % 256 := by
  simp only [fieldB8, BitVec.extractLsb'_toNat, Nat.shiftRight_eq_div_pow, Nat.reducePow]

theorem fieldAddr_toNat (w : Word) : (fieldAddr w).toNat = w.toNat % 4096 := by
  simp only [fieldAddr, BitVec.extractLsb'_toNat, Nat.shiftRight_eq_div_pow, Nat.reducePow, Nat.div_one]

/-! Format R -/

section FormatR
variable (op : BitVec 8) (rd ra rb rc : BitVec 4)

@[simp] theorem opcode_fmtR : opcode (fmtR op rd ra rb rc) = op :=
  BitVec.eq_of_toNat_eq (by rw [opcode_toNat, fmtR_toNat]; omega)
@[simp] theorem fieldRd_fmtR : fieldRd (fmtR op rd ra rb rc) = rd :=
  BitVec.eq_of_toNat_eq (by rw [fieldRd_toNat, fmtR_toNat]; omega)
@[simp] theorem fieldRa_fmtR : fieldRa (fmtR op rd ra rb rc) = ra :=
  BitVec.eq_of_toNat_eq (by rw [fieldRa_toNat, fmtR_toNat]; omega)
@[simp] theorem fieldRb_fmtR : fieldRb (fmtR op rd ra rb rc) = rb :=
  BitVec.eq_of_toNat_eq (by rw [fieldRb_toNat, fmtR_toNat]; omega)
@[simp] theorem fieldRc_fmtR : fieldRc (fmtR op rd ra rb rc) = rc :=
  BitVec.eq_of_toNat_eq (by rw [fieldRc_toNat, fmtR_toNat]; omega)
@[simp] theorem fieldZero_fmtR : fieldZero (fmtR op rd ra rb rc) = 0 :=
  BitVec.eq_of_toNat_eq (by rw [fieldZero_toNat, fmtR_toNat]; simp; omega)

end FormatR

/-! Format I -/

section FormatI
variable (op : BitVec 8) (rd ra : BitVec 4) (imm : BitVec 16)

@[simp] theorem opcode_fmtI : opcode (fmtI op rd ra imm) = op :=
  BitVec.eq_of_toNat_eq (by rw [opcode_toNat, fmtI_toNat]; omega)
@[simp] theorem fieldRd_fmtI : fieldRd (fmtI op rd ra imm) = rd :=
  BitVec.eq_of_toNat_eq (by rw [fieldRd_toNat, fmtI_toNat]; omega)
@[simp] theorem fieldRa_fmtI : fieldRa (fmtI op rd ra imm) = ra :=
  BitVec.eq_of_toNat_eq (by rw [fieldRa_toNat, fmtI_toNat]; omega)
@[simp] theorem fieldImm_fmtI : fieldImm (fmtI op rd ra imm) = imm :=
  BitVec.eq_of_toNat_eq (by rw [fieldImm_toNat, fmtI_toNat]; omega)

end FormatI

/-! Format M -/

section FormatM
variable (op : BitVec 8) (rd : BitVec 4) (b8 : BitVec 8) (addr : BitVec 12)

@[simp] theorem opcode_fmtM : opcode (fmtM op rd b8 addr) = op :=
  BitVec.eq_of_toNat_eq (by rw [opcode_toNat, fmtM_toNat]; omega)
@[simp] theorem fieldRd_fmtM : fieldRd (fmtM op rd b8 addr) = rd :=
  BitVec.eq_of_toNat_eq (by rw [fieldRd_toNat, fmtM_toNat]; omega)
@[simp] theorem fieldB8_fmtM : fieldB8 (fmtM op rd b8 addr) = b8 :=
  BitVec.eq_of_toNat_eq (by rw [fieldB8_toNat, fmtM_toNat]; omega)
@[simp] theorem fieldAddr_fmtM : fieldAddr (fmtM op rd b8 addr) = addr :=
  BitVec.eq_of_toNat_eq (by rw [fieldAddr_toNat, fmtM_toNat]; omega)

end FormatM

/-! A word is its fields. -/

theorem fmtR_of_fields {w : Word} (h : fieldZero w = 0) :
    fmtR (opcode w) (fieldRd w) (fieldRa w) (fieldRb w) (fieldRc w) = w := by
  have h0 : w.toNat % 256 = 0 := by rw [← fieldZero_toNat, h]; rfl
  apply BitVec.eq_of_toNat_eq
  rw [fmtR_toNat, opcode_toNat, fieldRd_toNat, fieldRa_toNat, fieldRb_toNat, fieldRc_toNat]; omega

theorem fmtI_of_fields (w : Word) : fmtI (opcode w) (fieldRd w) (fieldRa w) (fieldImm w) = w := by
  apply BitVec.eq_of_toNat_eq
  rw [fmtI_toNat, opcode_toNat, fieldRd_toNat, fieldRa_toNat, fieldImm_toNat]; omega

theorem fmtM_of_fields (w : Word) : fmtM (opcode w) (fieldRd w) (fieldB8 w) (fieldAddr w) = w := by
  apply BitVec.eq_of_toNat_eq
  rw [fmtM_toNat, opcode_toNat, fieldRd_toNat, fieldB8_toNat, fieldAddr_toNat]; omega

/-! Register indices in their fields -/

@[simp] theorem regE_toNat (r : EReg) : (regE r).toNat = r.val := by
  have := r.isLt; simp only [regE, BitVec.toNat_ofNat]; omega

@[simp] theorem regP_toNat (r : PReg) : (regP r).toNat = r.val := by
  have := r.isLt; simp only [regP, BitVec.toNat_ofNat]; omega

@[simp] theorem regC_toNat (r : CCtx) : (regC r).toNat = r.val := by
  have := r.isLt; simp only [regC, BitVec.toNat_ofNat]; omega

@[simp] theorem eIndex_regE (r : EReg) : eIndex (regE r) = r := by simp [eIndex]

@[simp] theorem regE_eIndex (f : BitVec 4) : regE (eIndex f) = f :=
  BitVec.eq_of_toNat_eq (by simp [eIndex])

@[simp] theorem withP_regP (r : PReg) (k : PReg → Decoded) : withP (regP r) k = k r := by simp [withP]

@[simp] theorem withC_regC (r : CCtx) (k : CCtx → Decoded) : withC (regC r) k = k r := by simp [withC]

@[simp] theorem withZero_true (k : Decoded) : withZero true k = k := rfl

/-- All a good answer of `withP` can be: the field holds an index below 8. -/
theorem withP_eq_ok {f : BitVec 4} {k : PReg → Decoded} {i : Instr} (h : withP f k = .ok i) :
    ∃ r : PReg, regP r = f ∧ k r = .ok i := by
  unfold withP at h; split at h
  · exact ⟨_, BitVec.eq_of_toNat_eq (by simp), h⟩
  · cases h

/-- All a good answer of `withC` can be: the field holds an index below 4. -/
theorem withC_eq_ok {f : BitVec 4} {k : CCtx → Decoded} {i : Instr} (h : withC f k = .ok i) :
    ∃ r : CCtx, regC r = f ∧ k r = .ok i := by
  unfold withC at h; split at h
  · exact ⟨_, BitVec.eq_of_toNat_eq (by simp), h⟩
  · cases h

/-- All a good answer of `withZero` can be: the unused fields are zero. -/
theorem withZero_eq_ok {b : Bool} {k : Decoded} {i : Instr} (h : withZero b k = .ok i) : b = true ∧ k = .ok i := by
  unfold withZero at h; split at h
  · exact ⟨‹_›, h⟩
  · cases h

/-! A word as its fields, and the fields of a masked word. -/

section Masked
variable (w v : Word)

theorem opcode_and : opcode (w &&& v) = opcode w &&& opcode v := BitVec.extractLsb'_and
theorem fieldRd_and : fieldRd (w &&& v) = fieldRd w &&& fieldRd v := BitVec.extractLsb'_and
theorem fieldRa_and : fieldRa (w &&& v) = fieldRa w &&& fieldRa v := BitVec.extractLsb'_and
theorem fieldRb_and : fieldRb (w &&& v) = fieldRb w &&& fieldRb v := BitVec.extractLsb'_and
theorem fieldRc_and : fieldRc (w &&& v) = fieldRc w &&& fieldRc v := BitVec.extractLsb'_and
theorem fieldZero_and : fieldZero (w &&& v) = fieldZero w &&& fieldZero v := BitVec.extractLsb'_and
theorem fieldImm_and : fieldImm (w &&& v) = fieldImm w &&& fieldImm v := BitVec.extractLsb'_and
theorem fieldB8_and : fieldB8 (w &&& v) = fieldB8 w &&& fieldB8 v := BitVec.extractLsb'_and
theorem fieldAddr_and : fieldAddr (w &&& v) = fieldAddr w &&& fieldAddr v := BitVec.extractLsb'_and

/-- Two words are equal exactly when their fields of format R are. -/
theorem word_ext_R : w = v ↔ opcode w = opcode v ∧ fieldRd w = fieldRd v ∧ fieldRa w = fieldRa v ∧
    fieldRb w = fieldRb v ∧ fieldRc w = fieldRc v ∧ fieldZero w = fieldZero v := by
  refine ⟨fun h => by simp [h], fun ⟨h1, h2, h3, h4, h5, h6⟩ => ?_⟩
  have e1 := congrArg BitVec.toNat h1; have e2 := congrArg BitVec.toNat h2; have e3 := congrArg BitVec.toNat h3
  have e4 := congrArg BitVec.toNat h4; have e5 := congrArg BitVec.toNat h5; have e6 := congrArg BitVec.toNat h6
  rw [opcode_toNat, opcode_toNat] at e1
  rw [fieldRd_toNat, fieldRd_toNat] at e2
  rw [fieldRa_toNat, fieldRa_toNat] at e3
  rw [fieldRb_toNat, fieldRb_toNat] at e4
  rw [fieldRc_toNat, fieldRc_toNat] at e5
  rw [fieldZero_toNat, fieldZero_toNat] at e6
  apply BitVec.eq_of_toNat_eq; omega

/-- Two words are equal exactly when their fields of format I are. -/
theorem word_ext_I : w = v ↔ opcode w = opcode v ∧ fieldRd w = fieldRd v ∧ fieldRa w = fieldRa v ∧
    fieldImm w = fieldImm v := by
  refine ⟨fun h => by simp [h], fun ⟨h1, h2, h3, h4⟩ => ?_⟩
  rw [← fmtI_of_fields w, ← fmtI_of_fields v, h1, h2, h3, h4]

/-- Two words are equal exactly when their fields of format M are. -/
theorem word_ext_M : w = v ↔ opcode w = opcode v ∧ fieldRd w = fieldRd v ∧ fieldB8 w = fieldB8 v ∧
    fieldAddr w = fieldAddr v := by
  refine ⟨fun h => by simp [h], fun ⟨h1, h2, h3, h4⟩ => ?_⟩
  rw [← fmtM_of_fields w, ← fmtM_of_fields v, h1, h2, h3, h4]

end Masked

/-! The mask and match test (R73), field by field. -/

theorem OpcodeRow.accepts_iff_R (r : OpcodeRow) (w : Word) : r.accepts w = true ↔
    opcode w &&& opcode r.mask = opcode r.pattern ∧ fieldRd w &&& fieldRd r.mask = fieldRd r.pattern ∧
    fieldRa w &&& fieldRa r.mask = fieldRa r.pattern ∧ fieldRb w &&& fieldRb r.mask = fieldRb r.pattern ∧
    fieldRc w &&& fieldRc r.mask = fieldRc r.pattern ∧ fieldZero w &&& fieldZero r.mask = fieldZero r.pattern := by
  simp only [OpcodeRow.accepts, beq_iff_eq, word_ext_R, opcode_and, fieldRd_and, fieldRa_and, fieldRb_and,
    fieldRc_and, fieldZero_and]

theorem OpcodeRow.accepts_iff_I (r : OpcodeRow) (w : Word) : r.accepts w = true ↔
    opcode w &&& opcode r.mask = opcode r.pattern ∧ fieldRd w &&& fieldRd r.mask = fieldRd r.pattern ∧
    fieldRa w &&& fieldRa r.mask = fieldRa r.pattern ∧ fieldImm w &&& fieldImm r.mask = fieldImm r.pattern := by
  simp only [OpcodeRow.accepts, beq_iff_eq, word_ext_I, opcode_and, fieldRd_and, fieldRa_and, fieldImm_and]

theorem OpcodeRow.accepts_iff_M (r : OpcodeRow) (w : Word) : r.accepts w = true ↔
    opcode w &&& opcode r.mask = opcode r.pattern ∧ fieldRd w &&& fieldRd r.mask = fieldRd r.pattern ∧
    fieldB8 w &&& fieldB8 r.mask = fieldB8 r.pattern ∧ fieldAddr w &&& fieldAddr r.mask = fieldAddr r.pattern := by
  simp only [OpcodeRow.accepts, beq_iff_eq, word_ext_M, opcode_and, fieldRd_and, fieldB8_and, fieldAddr_and]

/-- The top bit of the field of a polynomial register index is 0. -/
@[simp] theorem regP_and_top (r : PReg) : regP r &&& 8#4 = 0#4 := by revert r; decide

/-- The two top bits of the field of a CRC context index are 0. -/
@[simp] theorem regC_and_top (r : CCtx) : regC r &&& 12#4 = 0#4 := by revert r; decide

/-! All a good answer of each operand shape can be: the command of the indices and immediates that stand in the word,
and every field it does not use zero. -/

theorem decEImm_eq_ok {w : Word} {k : EReg → BitVec 16 → Instr} {i : Instr} (h : decEImm w k = .ok i) :
    ∃ (a : EReg) (n : BitVec 16), i = k a n ∧ w = fmtI (opcode w) (regE a) 0 n := by
  unfold decEImm at h
  obtain ⟨hz, h⟩ := withZero_eq_ok h
  simp only [beq_iff_eq] at hz
  cases h
  exact ⟨_, _, rfl, word_ext_I _ _ |>.2 (by simp [regE_eIndex, hz])⟩

theorem decEAddr_eq_ok {w : Word} {k : EReg → BitVec 12 → Instr} {i : Instr} (h : decEAddr w k = .ok i) :
    ∃ (a : EReg) (n : BitVec 12), i = k a n ∧ w = fmtM (opcode w) (regE a) 0 n := by
  unfold decEAddr at h
  obtain ⟨hz, h⟩ := withZero_eq_ok h
  simp only [beq_iff_eq] at hz
  cases h
  exact ⟨_, _, rfl, word_ext_M _ _ |>.2 (by simp [regE_eIndex, hz])⟩

theorem decReadE_eq_ok {w : Word} {k : EReg → Instr} {i : Instr} (h : decReadE w k = .ok i) :
    ∃ (a : EReg), i = k a ∧ w = fmtR (opcode w) 0 (regE a) 0 0 := by
  unfold decReadE at h
  obtain ⟨hz, h⟩ := withZero_eq_ok h
  simp only [Bool.and_eq_true, beq_iff_eq] at hz
  cases h
  exact ⟨_, rfl, word_ext_R _ _ |>.2 (by simp [regE_eIndex, hz])⟩

theorem decTestEE_eq_ok {w : Word} {k : EReg → EReg → Instr} {i : Instr} (h : decTestEE w k = .ok i) :
    ∃ (a b : EReg), i = k a b ∧ w = fmtR (opcode w) 0 (regE a) (regE b) 0 := by
  unfold decTestEE at h
  obtain ⟨hz, h⟩ := withZero_eq_ok h
  simp only [Bool.and_eq_true, beq_iff_eq] at hz
  cases h
  exact ⟨_, _, rfl, word_ext_R _ _ |>.2 (by simp [regE_eIndex, hz])⟩

theorem decEEE_eq_ok {w : Word} {k : EReg → EReg → EReg → Instr} {i : Instr} (h : decEEE w k = .ok i) :
    ∃ (d a b : EReg), i = k d a b ∧ w = fmtR (opcode w) (regE d) (regE a) (regE b) 0 := by
  unfold decEEE at h
  obtain ⟨hz, h⟩ := withZero_eq_ok h
  simp only [Bool.and_eq_true, beq_iff_eq] at hz
  cases h
  exact ⟨_, _, _, rfl, word_ext_R _ _ |>.2 (by simp [regE_eIndex, hz])⟩

theorem decEE_eq_ok {w : Word} {k : EReg → EReg → Instr} {i : Instr} (h : decEE w k = .ok i) :
    ∃ (d a : EReg), i = k d a ∧ w = fmtR (opcode w) (regE d) (regE a) 0 0 := by
  unfold decEE at h
  obtain ⟨hz, h⟩ := withZero_eq_ok h
  simp only [Bool.and_eq_true, beq_iff_eq] at hz
  cases h
  exact ⟨_, _, rfl, word_ext_R _ _ |>.2 (by simp [regE_eIndex, hz])⟩

theorem decPCntAddr_eq_ok {w : Word} {k : PReg → BitVec 8 → BitVec 12 → Instr} {i : Instr}
    (h : decPCntAddr w k = .ok i) :
    ∃ (d : PReg) (n : BitVec 8) (x : BitVec 12), i = k d n x ∧ w = fmtM (opcode w) (regP d) n x := by
  unfold decPCntAddr at h
  obtain ⟨r0, e0, h⟩ := withP_eq_ok h
  cases h
  exact ⟨r0, _, _, rfl, word_ext_M _ _ |>.2 (by simp [e0])⟩

theorem decPAddr_eq_ok {w : Word} {k : PReg → BitVec 12 → Instr} {i : Instr} (h : decPAddr w k = .ok i) :
    ∃ (d : PReg) (x : BitVec 12), i = k d x ∧ w = fmtM (opcode w) (regP d) 0 x := by
  unfold decPAddr at h
  obtain ⟨hz, h⟩ := withZero_eq_ok h
  simp only [beq_iff_eq] at hz
  obtain ⟨r0, e0, h⟩ := withP_eq_ok h
  cases h
  exact ⟨r0, _, rfl, word_ext_M _ _ |>.2 (by simp [e0, hz])⟩

theorem decReadP_eq_ok {w : Word} {k : PReg → Instr} {i : Instr} (h : decReadP w k = .ok i) :
    ∃ (a : PReg), i = k a ∧ w = fmtR (opcode w) 0 (regP a) 0 0 := by
  unfold decReadP at h
  obtain ⟨hz, h⟩ := withZero_eq_ok h
  simp only [Bool.and_eq_true, beq_iff_eq] at hz
  obtain ⟨r0, e0, h⟩ := withP_eq_ok h
  cases h
  exact ⟨r0, rfl, word_ext_R _ _ |>.2 (by simp [e0, hz])⟩

theorem decPPImm_eq_ok {w : Word} {k : PReg → PReg → BitVec 16 → Instr} {i : Instr} (h : decPPImm w k = .ok i) :
    ∃ (d a : PReg) (n : BitVec 16), i = k d a n ∧ w = fmtI (opcode w) (regP d) (regP a) n := by
  unfold decPPImm at h
  obtain ⟨r0, e0, h⟩ := withP_eq_ok h
  obtain ⟨r1, e1, h⟩ := withP_eq_ok h
  cases h
  exact ⟨r0, r1, _, rfl, word_ext_I _ _ |>.2 (by simp [e0, e1])⟩

theorem decPP_eq_ok {w : Word} {k : PReg → PReg → Instr} {i : Instr} (h : decPP w k = .ok i) :
    ∃ (d a : PReg), i = k d a ∧ w = fmtR (opcode w) (regP d) (regP a) 0 0 := by
  unfold decPP at h
  obtain ⟨hz, h⟩ := withZero_eq_ok h
  simp only [Bool.and_eq_true, beq_iff_eq] at hz
  obtain ⟨r0, e0, h⟩ := withP_eq_ok h
  obtain ⟨r1, e1, h⟩ := withP_eq_ok h
  cases h
  exact ⟨r0, r1, rfl, word_ext_R _ _ |>.2 (by simp [e0, e1, hz])⟩

theorem decPPP_eq_ok {w : Word} {k : PReg → PReg → PReg → Instr} {i : Instr} (h : decPPP w k = .ok i) :
    ∃ (d a b : PReg), i = k d a b ∧ w = fmtR (opcode w) (regP d) (regP a) (regP b) 0 := by
  unfold decPPP at h
  obtain ⟨hz, h⟩ := withZero_eq_ok h
  simp only [Bool.and_eq_true, beq_iff_eq] at hz
  obtain ⟨r0, e0, h⟩ := withP_eq_ok h
  obtain ⟨r1, e1, h⟩ := withP_eq_ok h
  obtain ⟨r2, e2, h⟩ := withP_eq_ok h
  cases h
  exact ⟨r0, r1, r2, rfl, word_ext_R _ _ |>.2 (by simp [e0, e1, e2, hz])⟩

theorem decPPE_eq_ok {w : Word} {k : PReg → PReg → EReg → Instr} {i : Instr} (h : decPPE w k = .ok i) :
    ∃ (d a : PReg) (b : EReg), i = k d a b ∧ w = fmtR (opcode w) (regP d) (regP a) (regE b) 0 := by
  unfold decPPE at h
  obtain ⟨hz, h⟩ := withZero_eq_ok h
  simp only [Bool.and_eq_true, beq_iff_eq] at hz
  obtain ⟨r0, e0, h⟩ := withP_eq_ok h
  obtain ⟨r1, e1, h⟩ := withP_eq_ok h
  cases h
  exact ⟨r0, r1, _, rfl, word_ext_R _ _ |>.2 (by simp [regE_eIndex, e0, e1, hz])⟩

theorem decPPPP_eq_ok {w : Word} {k : PReg → PReg → PReg → PReg → Instr} {i : Instr} (h : decPPPP w k = .ok i) :
    ∃ (d r a b : PReg), i = k d r a b ∧ w = fmtR (opcode w) (regP d) (regP a) (regP b) (regP r) ∧ d ≠ r := by
  unfold decPPPP at h
  obtain ⟨hz, h⟩ := withZero_eq_ok h
  simp only [beq_iff_eq] at hz
  obtain ⟨r0, e0, h⟩ := withP_eq_ok h
  obtain ⟨r1, e1, h⟩ := withP_eq_ok h
  obtain ⟨r2, e2, h⟩ := withP_eq_ok h
  obtain ⟨r3, e3, h⟩ := withP_eq_ok h
  split at h
  · cases h
  rename_i hne
  cases h
  exact ⟨r0, r1, r2, r3, rfl, word_ext_R _ _ |>.2 (by simp [e0, e1, e2, e3, hz]), hne⟩

theorem decEPE_eq_ok {w : Word} {k : EReg → PReg → EReg → Instr} {i : Instr} (h : decEPE w k = .ok i) :
    ∃ (d : EReg) (a : PReg) (b : EReg), i = k d a b ∧ w = fmtR (opcode w) (regE d) (regP a) (regE b) 0 := by
  unfold decEPE at h
  obtain ⟨hz, h⟩ := withZero_eq_ok h
  simp only [Bool.and_eq_true, beq_iff_eq] at hz
  obtain ⟨r0, e0, h⟩ := withP_eq_ok h
  cases h
  exact ⟨_, r0, _, rfl, word_ext_R _ _ |>.2 (by simp [regE_eIndex, e0, hz])⟩

theorem decTestPP_eq_ok {w : Word} {k : PReg → PReg → Instr} {i : Instr} (h : decTestPP w k = .ok i) :
    ∃ (a b : PReg), i = k a b ∧ w = fmtR (opcode w) 0 (regP a) (regP b) 0 := by
  unfold decTestPP at h
  obtain ⟨hz, h⟩ := withZero_eq_ok h
  simp only [Bool.and_eq_true, beq_iff_eq] at hz
  obtain ⟨r0, e0, h⟩ := withP_eq_ok h
  obtain ⟨r1, e1, h⟩ := withP_eq_ok h
  cases h
  exact ⟨r0, r1, rfl, word_ext_R _ _ |>.2 (by simp [e0, e1, hz])⟩

theorem decCImm_eq_ok {w : Word} {k : CCtx → BitVec 16 → Instr} {i : Instr} (h : decCImm w k = .ok i) :
    ∃ (c : CCtx) (n : BitVec 16), i = k c n ∧ w = fmtI (opcode w) (regC c) 0 n := by
  unfold decCImm at h
  obtain ⟨hz, h⟩ := withZero_eq_ok h
  simp only [beq_iff_eq] at hz
  obtain ⟨r0, e0, h⟩ := withC_eq_ok h
  cases h
  exact ⟨r0, _, rfl, word_ext_I _ _ |>.2 (by simp [e0, hz])⟩

theorem decC_eq_ok {w : Word} {k : CCtx → Instr} {i : Instr} (h : decC w k = .ok i) :
    ∃ (c : CCtx), i = k c ∧ w = fmtR (opcode w) (regC c) 0 0 0 := by
  unfold decC at h
  obtain ⟨hz, h⟩ := withZero_eq_ok h
  simp only [Bool.and_eq_true, beq_iff_eq] at hz
  obtain ⟨r0, e0, h⟩ := withC_eq_ok h
  cases h
  exact ⟨r0, rfl, word_ext_R _ _ |>.2 (by simp [e0, hz])⟩

theorem decCByte_eq_ok {w : Word} {k : CCtx → BitVec 8 → Instr} {i : Instr} (h : decCByte w k = .ok i) :
    ∃ (c : CCtx) (n : BitVec 8), i = k c n ∧ w = fmtM (opcode w) (regC c) n 0 := by
  unfold decCByte at h
  obtain ⟨hz, h⟩ := withZero_eq_ok h
  simp only [beq_iff_eq] at hz
  obtain ⟨r0, e0, h⟩ := withC_eq_ok h
  cases h
  exact ⟨r0, _, rfl, word_ext_M _ _ |>.2 (by simp [e0, hz])⟩

theorem decCCntAddr_eq_ok {w : Word} {k : CCtx → BitVec 8 → BitVec 12 → Instr} {i : Instr}
    (h : decCCntAddr w k = .ok i) :
    ∃ (c : CCtx) (n : BitVec 8) (x : BitVec 12), i = k c n x ∧ w = fmtM (opcode w) (regC c) n x := by
  unfold decCCntAddr at h
  obtain ⟨r0, e0, h⟩ := withC_eq_ok h
  cases h
  exact ⟨r0, _, _, rfl, word_ext_M _ _ |>.2 (by simp [e0])⟩

theorem decReadC_eq_ok {w : Word} {k : CCtx → Instr} {i : Instr} (h : decReadC w k = .ok i) :
    ∃ (c : CCtx), i = k c ∧ w = fmtR (opcode w) 0 (regC c) 0 0 := by
  unfold decReadC at h
  obtain ⟨hz, h⟩ := withZero_eq_ok h
  simp only [Bool.and_eq_true, beq_iff_eq] at hz
  obtain ⟨r0, e0, h⟩ := withC_eq_ok h
  cases h
  exact ⟨r0, rfl, word_ext_R _ _ |>.2 (by simp [e0, hz])⟩

theorem decBare_eq_ok {w : Word} {k : Instr} {i : Instr} (h : decBare w k = .ok i) :
    i = k ∧ w = fmtR (opcode w) 0 0 0 0 := by
  unfold decBare at h
  obtain ⟨hz, h⟩ := withZero_eq_ok h
  simp only [Bool.and_eq_true, beq_iff_eq] at hz
  cases h
  exact ⟨rfl, word_ext_R _ _ |>.2 (by simp [hz])⟩

theorem decImm_eq_ok {w : Word} {k : BitVec 16 → Instr} {i : Instr} (h : decImm w k = .ok i) :
    ∃ (n : BitVec 16), i = k n ∧ w = fmtI (opcode w) 0 0 n := by
  unfold decImm at h
  obtain ⟨hz, h⟩ := withZero_eq_ok h
  simp only [Bool.and_eq_true, beq_iff_eq] at hz
  cases h
  exact ⟨_, rfl, word_ext_I _ _ |>.2 (by simp [hz])⟩

theorem decByteAddr_eq_ok {w : Word} {k : BitVec 12 → BitVec 8 → Instr} {i : Instr} (h : decByteAddr w k = .ok i) :
    ∃ (x : BitVec 12) (n : BitVec 8), i = k x n ∧ w = fmtM (opcode w) 0 n x := by
  unfold decByteAddr at h
  obtain ⟨hz, h⟩ := withZero_eq_ok h
  simp only [beq_iff_eq] at hz
  cases h
  exact ⟨_, _, rfl, word_ext_M _ _ |>.2 (by simp [hz])⟩

theorem decAddr_eq_ok {w : Word} {k : BitVec 12 → Instr} {i : Instr} (h : decAddr w k = .ok i) :
    ∃ (x : BitVec 12), i = k x ∧ w = fmtM (opcode w) 0 0 x := by
  unfold decAddr at h
  obtain ⟨hz, h⟩ := withZero_eq_ok h
  simp only [Bool.and_eq_true, beq_iff_eq] at hz
  cases h
  exact ⟨_, rfl, word_ext_M _ _ |>.2 (by simp [hz])⟩

end Sys2Proof
end

