-- ==== Sys2Proof/Laws/Field.lean ====
section
/-! SUPPORT. The reduction into the field and the operators of 40_gf_modular_reduce.md R101, as integers. -/

namespace Sys2Proof.Machine

/-! ### Reduction (R11) -/

/-- For a legal modulus the reduced value is the integer remainder itself. -/
theorem reduce_toInt {m : Nat} (h1 : 1 ≤ m) (h2 : m ≤ 256) (z : Int) : ((reduce m z).toNat : Int) = z % m := by
  have hm : (0 : Int) < m := by omega
  have h0 := Int.emod_nonneg z (ne_of_gt hm)
  have h3 := Int.emod_lt_of_pos z hm
  rw [reduce, BitVec.toNat_ofInt]
  norm_num
  rw [max_eq_left (Int.emod_nonneg _ (by norm_num))]
  exact Int.emod_eq_of_lt h0 (by omega)

theorem reduce_toNat {m : Nat} (h1 : 1 ≤ m) (h2 : m ≤ 256) (n : Nat) : (reduce m n).toNat = n % m := by
  have := reduce_toInt h1 h2 (n : Int)
  exact_mod_cast this

/-- Every reduced value is below the modulus (R22, R102 (d)). -/
theorem reduce_lt {m : Nat} (h1 : 1 ≤ m) (h2 : m ≤ 256) (z : Int) : (reduce m z).toNat < m := by
  have := reduce_toInt h1 h2 z
  have h3 := Int.emod_lt_of_pos z (show (0 : Int) < m by omega)
  omega

/-- An element already in range is its own reduction. -/
theorem reduce_self {m : Nat} {v : Elem} (h2 : m ≤ 256) (hv : v.toNat < m) : reduce m v.toNat = v :=
  BitVec.eq_of_toNat_eq (by rw [reduce_toNat (by omega) h2, Nat.mod_eq_of_lt hv])

/-! ### The operators -/

section Operators
variable {m : Nat} (h1 : 1 ≤ m) (h2 : m ≤ 256) (a b : Elem)
include h1 h2

/-- Every result of an operator is an element of the field (R100). -/
theorem fop_lt (o : FieldOp) : (fop o m a b).toNat < m := reduce_lt h1 h2 _

theorem fop_add_toNat : (fop .add m a b).toNat = (a.toNat + b.toNat) % m := by
  rw [fop, rawOp]; exact_mod_cast reduce_toNat h1 h2 (a.toNat + b.toNat)

theorem fop_sub_toInt : ((fop .sub m a b).toNat : Int) = ((a.toNat : Int) - b.toNat) % m := reduce_toInt h1 h2 _

theorem fop_mul_toNat : (fop .mul m a b).toNat = a.toNat * b.toNat % m := by
  rw [fop, rawOp]; exact_mod_cast reduce_toNat h1 h2 (a.toNat * b.toNat)

theorem fop_div_toNat : (fop .div m a b).toNat = a.toNat / b.toNat % m := reduce_toNat h1 h2 _

theorem fop_rem_toNat : (fop .rem m a b).toNat = a.toNat % b.toNat % m := reduce_toNat h1 h2 _

theorem fop_pow_toNat : (fop .pow m a b).toNat = a.toNat ^ b.toNat % m := reduce_toNat h1 h2 _

theorem fop_shl_toNat : (fop .shl m a b).toNat = a.toNat * 2 ^ b.toNat % m := reduce_toNat h1 h2 _

theorem fop_shr_toNat : (fop .shr m a b).toNat = a.toNat / 2 ^ b.toNat % m := reduce_toNat h1 h2 _

theorem fop_and_toNat : (fop .and m a b).toNat = (a.toNat &&& b.toNat) % m := reduce_toNat h1 h2 _

theorem fop_or_toNat : (fop .or m a b).toNat = (a.toNat ||| b.toNat) % m := reduce_toNat h1 h2 _

theorem fop_xor_toNat : (fop .xor m a b).toNat = (a.toNat ^^^ b.toNat) % m := reduce_toNat h1 h2 _

theorem fop_neg_toInt : ((fop .neg m a b).toNat : Int) = (-(a.toNat : Int)) % m := reduce_toInt h1 h2 _

theorem fop_invert_toInt : ((fop .invert m a b).toNat : Int) = (-(a.toNat : Int) - 1) % m := reduce_toInt h1 h2 _

end Operators

/-- The operators that leave an element of the field as it is (R120, R121, R123 to R126). -/
theorem fop_copy {o : FieldOp} (ho : o = .pos ∨ o = .abs ∨ o = .round ∨ o = .trunc ∨ o = .floor ∨ o = .ceil)
    {m : Nat} (h2 : m ≤ 256) {a : Elem} (ha : a.toNat < m) (b : Elem) : fop o m a b = a := by
  have h : rawOp o a.toNat b.toNat = a.toNat := by
    rcases ho with rfl | rfl | rfl | rfl | rfl | rfl <;> simp [rawOp]
  rw [fop, h, reduce_self h2 ha]

/-! ### The shared shapes of the GFMR commands -/

/-- All `fopChecked` can do (R101, fault column). -/
theorem fopChecked_cases (o : FieldOp) (m : Nat) (a b : Elem) :
    (fopChecked o m a b = .error .rawArithmetic ∧ (o = .div ∨ o = .rem) ∧ b = 0) ∨
    (fopChecked o m a b = .ok (fop o m a b) ∧ ((o ≠ .div ∧ o ≠ .rem) ∨ b ≠ 0)) := by
  unfold fopChecked; split
  · exact .inl ⟨rfl, ‹_›⟩
  · refine .inr ⟨rfl, ?_⟩; tauto

theorem execBinary_ok {o : FieldOp} {s : State} (he : s.err = false) (ed ea eb : EReg)
    (h : (o ≠ .div ∧ o ≠ .rem) ∨ s.elem eb ≠ 0) :
    execBinary o ed ea eb s =
      .next ((s.setElem ed (fop o s.m (s.elem ea) (s.elem eb))).respond 0) := by
  rcases fopChecked_cases o s.m (s.elem ea) (s.elem eb) with ⟨_, h1, h2⟩ | ⟨hk, _⟩
  · rcases h with h | h
    · exact absurd h1 (by tauto)
    · exact absurd h2 h
  · rw [execBinary, hk]; exact s.command_ok he _

theorem execBinary_fault {o : FieldOp} {s : State} (he : s.err = false) (ed ea eb : EReg)
    (ho : o = .div ∨ o = .rem) (hb : s.elem eb = 0) :
    execBinary o ed ea eb s = .next (s.takeFault .rawArithmetic) := by
  rw [execBinary, fopChecked, if_pos ⟨ho, hb⟩]; exact s.command_error he _

theorem execUnary_ok {s : State} (he : s.err = false) (o : FieldOp) (ed ea : EReg) :
    execUnary o ed ea s = .next ((s.setElem ed (fop o s.m (s.elem ea) 0)).respond 0) := s.command_ok he _

end Sys2Proof.Machine
end

