-- ==== Sys2Proof/Laws/Poly.lean ====
section
/-! SUPPORT. What the helpers on coefficient lists (41_polynomial_ops.md R140 to R151) do to the coefficients, the raw
length and the degree of a list. -/

namespace Sys2Proof.Machine

/-! ### Coefficients -/

/-- The coefficient of x^k as an element. -/
def coeffE (c : Poly) (k : Nat) : Elem := c.reverse.getD k 0

theorem coeff_eq (c : Poly) (k : Nat) : coeff c k = (coeffE c k).toNat := rfl

@[simp] theorem coeffE_nil (k : Nat) : coeffE [] k = 0 := by simp [coeffE]

theorem coeffE_of_length_le {c : Poly} {k : Nat} (h : c.length ≤ k) : coeffE c k = 0 := by
  simp [coeffE, List.getD, List.getElem?_eq_none (l := c.reverse) (i := k) (by simpa using h)]

theorem coeffE_cons (v : Elem) (c : Poly) (k : Nat) :
    coeffE (v :: c) k = if k = c.length then v else coeffE c k := by
  simp only [coeffE, List.reverse_cons, List.getD]
  by_cases h : k < c.length
  · rw [List.getElem?_append_left (by simpa using h), if_neg (by omega)]
  · rw [List.getElem?_append_right (by simpa using h)]
    by_cases h2 : k = c.length
    · simp [h2]
    · rw [if_neg h2, List.getElem?_eq_none (l := [v]) (by simp; omega),
        List.getElem?_eq_none (l := c.reverse) (by simp; omega)]

theorem coeffE_mem {c : Poly} {k : Nat} (h : k < c.length) : coeffE c k ∈ c := by
  have hk : k < c.reverse.length := by simpa using h
  rw [coeffE, List.getD_eq_getElem _ _ hk, ← List.mem_reverse]
  exact List.getElem_mem hk

/-- Two lists of one raw length with the same coefficients are one list. -/
theorem eq_of_coeffE {a b : Poly} (hl : a.length = b.length) (h : ∀ k, coeffE a k = coeffE b k) : a = b := by
  induction a generalizing b with
  | nil => exact (List.length_eq_zero_iff.1 hl.symm).symm
  | cons v a ih =>
    rcases b with _ | ⟨w, b⟩
    · simp at hl
    · simp only [List.length_cons, Nat.add_right_cancel_iff] at hl
      have hv : v = w := by have := h a.length; simpa [coeffE_cons, hl] using this
      subst hv
      refine congrArg _ (ih hl fun k => ?_)
      by_cases hk : k < a.length
      · have := h k; rwa [coeffE_cons, coeffE_cons, if_neg (by omega), if_neg (by omega)] at this
      · rw [coeffE_of_length_le (by omega), coeffE_of_length_le (by omega)]

@[simp] theorem zeros_length (n : Nat) : (zeros n).length = n := List.length_replicate

theorem coeffE_zeros_append (n : Nat) (c : Poly) (k : Nat) : coeffE (zeros n ++ c) k = coeffE c k := by
  induction n with
  | zero => rfl
  | succ n ih =>
    rw [show zeros (n + 1) ++ c = 0 :: (zeros n ++ c) from rfl, coeffE_cons, ih]
    split
    · rw [coeffE_of_length_le]; simp at *; omega
    · rfl

theorem coeffE_append_zeros (c : Poly) (n k : Nat) :
    coeffE (c ++ zeros n) k = if k < n then 0 else coeffE c (k - n) := by
  induction c with
  | nil =>
    rw [List.nil_append, ← List.append_nil (zeros n), coeffE_zeros_append]; simp
  | cons v c ih =>
    rw [List.cons_append, coeffE_cons, ih, coeffE_cons]
    simp only [List.length_append, zeros_length]
    by_cases h1 : k < n
    · rw [if_neg (by omega), if_pos h1, if_pos h1]
    · rw [if_neg h1, if_neg h1]
      by_cases h2 : k = c.length + n
      · rw [if_pos h2, if_pos (by omega)]
      · rw [if_neg h2, if_neg (by omega)]

theorem coeffE_drop (c : Poly) (n k : Nat) :
    coeffE (c.drop n) k = if k < c.length - n then coeffE c k else 0 := by
  induction n generalizing c with
  | zero =>
    split
    · rfl
    · rw [List.drop_zero, coeffE_of_length_le (by omega)]
  | succ n ih =>
    rcases c with _ | ⟨v, c⟩
    · simp
    · rw [List.drop_succ_cons, ih, coeffE_cons, List.length_cons, Nat.add_sub_add_right]
      split
      · rw [if_neg (by omega)]
      · rfl

/-! ### Shortened form, degree, leading coefficient (R140 to R142) -/

@[simp] theorem shortened_nil : shortened [] = [] := rfl

theorem shortened_cons_zero (c : Poly) : shortened (0 :: c) = shortened c := if_pos rfl

theorem shortened_cons_of_ne {v : Elem} (h : v ≠ 0) (c : Poly) : shortened (v :: c) = v :: c := if_neg h

/-- The shortened form is the list without some leading zeros. -/
theorem shortened_spec (c : Poly) : c = zeros (c.length - (shortened c).length) ++ shortened c ∧
    (shortened c).length ≤ c.length ∧ (shortened c).head? ≠ some 0 := by
  induction c with
  | nil => simp [zeros]
  | cons v c ih =>
    obtain ⟨h1, h2, h3⟩ := ih
    by_cases hv : v = 0
    · subst hv
      rw [shortened_cons_zero, List.length_cons]
      refine ⟨?_, by omega, h3⟩
      rw [show c.length + 1 - (shortened c).length = (c.length - (shortened c).length) + 1 by omega]
      exact congrArg (List.cons 0) h1
    · rw [shortened_cons_of_ne hv]; exact ⟨by simp [zeros], le_rfl, fun h => hv (Option.some.inj h)⟩

theorem coeffE_shortened (c : Poly) (k : Nat) : coeffE (shortened c) k = coeffE c k := by
  conv_rhs => rw [(shortened_spec c).1]
  rw [coeffE_zeros_append]

theorem shortened_length_le (c : Poly) : (shortened c).length ≤ c.length := (shortened_spec c).2.1

/-- A list that does not begin with 0 is its own shortened form. -/
theorem shortened_of_head {c : Poly} (h : c.head? ≠ some 0) : shortened c = c := by
  rcases c with _ | ⟨v, c⟩
  · rfl
  · exact shortened_cons_of_ne (by simpa using h) c

@[simp] theorem shortened_shortened (c : Poly) : shortened (shortened c) = shortened c :=
  shortened_of_head (shortened_spec c).2.2

@[simp] theorem deg_shortened (c : Poly) : deg (shortened c) = deg c := by simp [deg]

@[simp] theorem lead_shortened (c : Poly) : lead (shortened c) = lead c := by simp [lead]

@[simp] theorem isZeroPoly_shortened (c : Poly) : isZeroPoly (shortened c) = isZeroPoly c := by simp [isZeroPoly]

theorem deg_ge (c : Poly) : -1 ≤ deg c := by simp only [deg]; omega

theorem deg_lt_length (c : Poly) : deg c < c.length := by
  have := shortened_length_le c; simp only [deg]; omega

theorem shortened_length (c : Poly) : ((shortened c).length : Int) = deg c + 1 := by simp only [deg]; omega

theorem isZeroPoly_iff_deg (c : Poly) : isZeroPoly c = true ↔ deg c = -1 := by
  simp only [isZeroPoly, deg, List.isEmpty_iff, ← List.length_eq_zero_iff]; omega

theorem isZeroPoly_iff_shortened (c : Poly) : isZeroPoly c = true ↔ shortened c = [] := by simp [isZeroPoly]

/-- The coefficients above the degree are 0. -/
theorem coeffE_of_deg_lt {c : Poly} {k : Nat} (h : deg c < k) : coeffE c k = 0 := by
  rw [← coeffE_shortened]; apply coeffE_of_length_le; have := shortened_length c; omega

/-- The leading coefficient stands at the degree and is not 0. -/
theorem coeffE_deg {c : Poly} (h : deg c ≠ -1) : coeffE c (deg c).toNat = lead c ∧ lead c ≠ 0 := by
  have h3 := (shortened_spec c).2.2
  rw [← coeffE_shortened]
  rcases hs : shortened c with _ | ⟨v, s⟩
  · exact absurd (by simp [deg, hs]) h
  · have hd : (deg c).toNat = s.length := by simp [deg, hs]
    rw [hs] at h3
    exact ⟨by rw [coeffE_cons, if_pos hd]; simp [lead, hs], by simpa [lead, hs] using h3⟩

theorem isZeroPoly_iff_coeffE (c : Poly) : isZeroPoly c = true ↔ ∀ k, coeffE c k = 0 := by
  rw [isZeroPoly_iff_deg]
  constructor
  · intro h k; exact coeffE_of_deg_lt (by omega)
  · intro h; by_contra hd; exact (coeffE_deg hd).2 ((coeffE_deg hd).1 ▸ h _)

theorem isZeroPoly_iff_mem (c : Poly) : isZeroPoly c = true ↔ ∀ v ∈ c, v = 0 := by
  induction c with
  | nil => simp [isZeroPoly]
  | cons v c ih =>
    by_cases hv : v = 0
    · subst hv
      rw [isZeroPoly, shortened_cons_zero, List.forall_mem_cons]
      exact ih.trans (by simp)
    · rw [isZeroPoly, shortened_cons_of_ne hv, List.forall_mem_cons]
      exact iff_of_false (by simp) fun h => hv h.1

theorem coeff_eq_zero_iff (c : Poly) (k : Nat) : coeff c k = 0 ↔ coeffE c k = 0 := by
  rw [coeff_eq, ← BitVec.toNat_inj]; rfl

/-- The degree is the one position with a non-zero coefficient and zeros above. -/
theorem deg_eq_of_coeffE {c : Poly} {d : Nat} (h1 : coeffE c d ≠ 0) (h2 : ∀ k, d < k → coeffE c k = 0) :
    deg c = d := by
  have hz : deg c ≠ -1 := fun h => h1 (coeffE_of_deg_lt (by omega))
  have h3 : ¬deg c < d := fun h => h1 (coeffE_of_deg_lt h)
  have h4 : ¬(d : Int) < deg c := fun h => (coeffE_deg hz).2 ((coeffE_deg hz).1 ▸ h2 _ (by have := deg_ge c; omega))
  omega

/-- Shortened forms agree exactly when all coefficients do (R153). -/
theorem shortened_eq_iff (a b : Poly) : shortened a = shortened b ↔ ∀ k, coeffE a k = coeffE b k := by
  constructor
  · intro h k; rw [← coeffE_shortened a, h, coeffE_shortened]
  · intro h
    have hd : deg a = deg b := by
      by_cases ha : deg a = -1
      · rw [ha, eq_comm, ← isZeroPoly_iff_deg, isZeroPoly_iff_coeffE]
        intro k; rw [← h]; exact coeffE_of_deg_lt (by omega)
      · have := coeffE_deg ha
        have hd := deg_ge a
        rw [eq_comm, show deg a = ((deg a).toNat : Int) by omega]
        refine deg_eq_of_coeffE (by rw [← h]; exact this.1 ▸ this.2) fun k hk => ?_
        rw [← h]; exact coeffE_of_deg_lt (by omega)
    refine eq_of_coeffE ?_ fun k => by rw [coeffE_shortened, coeffE_shortened, h]
    have := shortened_length a; have := shortened_length b; omega

theorem deg_congr {a b : Poly} (h : ∀ k, coeffE a k = coeffE b k) : deg a = deg b := by
  simp only [deg, (shortened_eq_iff a b).2 h]

/-! ### Construction and length changes (R141, R143, R148) -/

theorem coeffE_mkpoly (c : Poly) (k : Nat) : coeffE (mkpoly c) k = coeffE c k := by
  unfold mkpoly; split
  · rw [(isZeroPoly_iff_coeffE c).1 ‹_› k, coeffE_nil]
  · rfl

theorem mkpoly_of_zero {c : Poly} (h : isZeroPoly c = true) : mkpoly c = [] := if_pos h

theorem mkpoly_of_ne {c : Poly} (h : isZeroPoly c = false) : mkpoly c = c := if_neg (by simp [h])

theorem mkpoly_length_le (c : Poly) : (mkpoly c).length ≤ c.length := by
  unfold mkpoly; split <;> simp

theorem mem_of_mem_mkpoly {c : Poly} {v : Elem} (h : v ∈ mkpoly c) : v ∈ c := by
  unfold mkpoly at h; split at h
  · simp at h
  · exact h

@[simp] theorem regrade_length (c : Poly) (n : Nat) : (regrade c n).length = n := by
  unfold regrade; split <;> simp <;> omega

theorem coeffE_regrade (c : Poly) (n k : Nat) : coeffE (regrade c n) k = if k < n then coeffE c k else 0 := by
  unfold regrade; split
  · rw [coeffE_zeros_append]; split
    · rfl
    · exact coeffE_of_length_le (by omega)
  · rw [coeffE_drop]
    by_cases hk : k < n
    · rw [if_pos (by omega), if_pos hk]
    · rw [if_neg (by omega), if_neg hk]

theorem coeffE_shiftUp (a : Poly) (n k : Nat) :
    coeffE (shiftUp a n) k = if k < n then 0 else coeffE a (k - n) := by
  rw [shiftUp, coeffE_mkpoly, coeffE_append_zeros]

theorem shiftUp_length_le (a : Poly) (n : Nat) : (shiftUp a n).length ≤ a.length + n := by
  have := mkpoly_length_le (a ++ zeros n); simpa [shiftUp] using this

/-- All `pshl` can do (R148). -/
theorem pshl_cases (a : Poly) (n : Nat) :
    (pshl a n = .error .lengthOverflow ∧ Config.nmax < a.length + n) ∨
    (pshl a n = .ok (shiftUp a n) ∧ a.length + n ≤ Config.nmax) := by
  unfold pshl; split
  · exact .inl ⟨rfl, ‹_›⟩
  · exact .inr ⟨rfl, by omega⟩

/-- All `tograde` can do (R143). -/
theorem tograde_cases (a : Poly) (n : Nat) :
    (tograde a n = .error .lengthOverflow ∧ Config.nmax < n) ∨
    (tograde a n = .ok (regrade a n) ∧ n ≤ Config.nmax) := by
  unfold tograde; split
  · exact .inl ⟨rfl, ‹_›⟩
  · exact .inr ⟨rfl, by omega⟩

/-! ### Entry by entry operations (R145 to R147) -/

theorem coeffE_zipWith {f : Elem → Elem → Elem} (hf : f 0 0 = 0) {a b : Poly} (hl : a.length = b.length) (k : Nat) :
    coeffE (List.zipWith f a b) k = f (coeffE a k) (coeffE b k) := by
  induction a generalizing b with
  | nil => rw [List.length_eq_zero_iff.1 hl.symm]; exact hf.symm
  | cons v a ih =>
    rcases b with _ | ⟨w, b⟩
    · simp at hl
    · simp only [List.length_cons, Nat.add_right_cancel_iff] at hl
      rw [List.zipWith_cons_cons, coeffE_cons, ih hl, coeffE_cons, coeffE_cons, List.length_zipWith, ← hl, min_self]
      split <;> rfl

theorem coeffE_map {f : Elem → Elem} (hf : f 0 = 0) (a : Poly) (k : Nat) :
    coeffE (a.map f) k = f (coeffE a k) := by
  induction a with
  | nil => exact hf.symm
  | cons v a ih => rw [List.map_cons, coeffE_cons, ih, coeffE_cons, List.length_map]; split <;> rfl

theorem matchGrades_length (a b : Poly) : (matchGrades a b).1.length = max a.length b.length ∧
    (matchGrades a b).2.length = max a.length b.length := by simp [matchGrades]

theorem coeffE_matchGrades (a b : Poly) (k : Nat) :
    coeffE (matchGrades a b).1 k = coeffE a k ∧ coeffE (matchGrades a b).2 k = coeffE b k := by
  simp only [matchGrades, coeffE_regrade]
  constructor <;> split <;> first | rfl | (rw [coeffE_of_length_le]; omega)

theorem coeffE_combine {o : FieldOp} {m : Nat} (hf : fop o m 0 0 = 0) (a b : Poly) (k : Nat) :
    coeffE (combine o m a b) k = fop o m (coeffE a k) (coeffE b k) := by
  have hl := matchGrades_length a b
  rw [combine, coeffE_mkpoly, coeffE_zipWith hf (by rw [hl.1, hl.2]), (coeffE_matchGrades a b k).1,
    (coeffE_matchGrades a b k).2]

theorem combine_length_le (o : FieldOp) (m : Nat) (a b : Poly) :
    (combine o m a b).length ≤ max a.length b.length := by
  have hl := matchGrades_length a b
  have := mkpoly_length_le (List.zipWith (fop o m) (matchGrades a b).1 (matchGrades a b).2)
  rw [combine]; rw [List.length_zipWith, hl.1, hl.2, min_self] at this; exact this

/-- The raw length of a sum or difference: the larger one, or 0 when it is zero (R145). -/
theorem combine_length (o : FieldOp) (m : Nat) (a b : Poly) :
    (isZeroPoly (combine o m a b) = true → combine o m a b = []) ∧
    (isZeroPoly (combine o m a b) = false → (combine o m a b).length = max a.length b.length) := by
  have hl := matchGrades_length a b
  unfold combine mkpoly; split
  · exact ⟨fun _ => rfl, fun h => by simp [isZeroPoly] at h⟩
  · rename_i hz
    exact ⟨fun h => absurd h hz, fun _ => by rw [List.length_zipWith, hl.1, hl.2, min_self]⟩

theorem fop_add_zero_zero (m : Nat) : fop .add m 0 0 = 0 := by simp [fop, rawOp, reduce]

theorem fop_sub_zero_zero (m : Nat) : fop .sub m 0 0 = 0 := by simp [fop, rawOp, reduce]

theorem fop_mul_zero (m : Nat) (s : Elem) : fop .mul m 0 s = 0 := by simp [fop, rawOp, reduce]

theorem coeffE_padd (m : Nat) (a b : Poly) (k : Nat) :
    coeffE (padd m a b) k = fop .add m (coeffE a k) (coeffE b k) := coeffE_combine (fop_add_zero_zero m) a b k

theorem coeffE_psub (m : Nat) (a b : Poly) (k : Nat) :
    coeffE (psub m a b) k = fop .sub m (coeffE a k) (coeffE b k) := coeffE_combine (fop_sub_zero_zero m) a b k

theorem coeffE_pscale (m : Nat) (a : Poly) (s : Elem) (k : Nat) :
    coeffE (pscale m a s) k = fop .mul m (coeffE a k) s := by
  rw [pscale, coeffE_mkpoly, coeffE_map (f := fun v => fop .mul m v s) (fop_mul_zero m s)]

theorem pscale_length_le (m : Nat) (a : Poly) (s : Elem) : (pscale m a s).length ≤ a.length := by
  have := mkpoly_length_le (a.map fun v => fop .mul m v s); simpa [pscale] using this

/-! ### Legal lists (R27) -/

theorem PolyLegal.coeff_lt {m : Nat} {c : Poly} (hm : 1 ≤ m) (h : PolyLegal m c) (k : Nat) : coeff c k < m := by
  by_cases hk : k < c.length
  · exact h.2 _ (coeffE_mem hk)
  · rw [coeff_eq, coeffE_of_length_le (by omega)]; exact hm

theorem polyLegal_nil (m : Nat) : PolyLegal m [] := by simp [PolyLegal]

theorem PolyLegal.shortened {m : Nat} {c : Poly} (h : PolyLegal m c) : PolyLegal m (shortened c) := by
  refine ⟨(shortened_length_le c).trans h.1, fun v hv => h.2 v ?_⟩
  rw [(shortened_spec c).1]; exact List.mem_append_right _ hv

theorem PolyLegal.regrade {m : Nat} {c : Poly} (hm : 1 ≤ m) (h : PolyLegal m c) {n : Nat} (hn : n ≤ Config.nmax) :
    PolyLegal m (regrade c n) := by
  refine ⟨by simpa using hn, fun v hv => ?_⟩
  unfold Machine.regrade at hv; split at hv
  · rcases List.mem_append.1 hv with h0 | h0
    · rw [(List.mem_replicate.1 h0).2]; exact hm
    · exact h.2 v h0
  · exact h.2 v (List.mem_of_mem_drop hv)

theorem PolyLegal.shiftUp {m : Nat} {c : Poly} (hm : 1 ≤ m) (h : PolyLegal m c) {n : Nat}
    (hn : c.length + n ≤ Config.nmax) : PolyLegal m (shiftUp c n) := by
  refine ⟨(shiftUp_length_le c n).trans hn, fun v hv => ?_⟩
  rcases List.mem_append.1 (mem_of_mem_mkpoly hv) with h0 | h0
  · exact h.2 v h0
  · rw [(List.mem_replicate.1 h0).2]; exact hm

/-- A sum or difference of two lists is legal whatever the entries were, since every entry is reduced (R22). -/
theorem polyLegal_combine (o : FieldOp) {m : Nat} (h1 : 1 ≤ m) (h2 : m ≤ 256) {a b : Poly}
    (hl : max a.length b.length ≤ Config.nmax) : PolyLegal m (combine o m a b) := by
  refine ⟨(combine_length_le o m a b).trans hl, fun v hv => ?_⟩
  have := mem_of_mem_mkpoly hv
  rw [← List.map_uncurry_zip_eq_zipWith] at this
  obtain ⟨p, -, rfl⟩ := List.mem_map.1 this
  exact fop_lt h1 h2 _ _ o

theorem polyLegal_pscale {m : Nat} (h1 : 1 ≤ m) (h2 : m ≤ 256) {a : Poly} (s : Elem)
    (hl : a.length ≤ Config.nmax) : PolyLegal m (pscale m a s) := by
  refine ⟨(pscale_length_le m a s).trans hl, fun v hv => ?_⟩
  obtain ⟨p, -, rfl⟩ := List.mem_map.1 (mem_of_mem_mkpoly hv)
  exact fop_lt h1 h2 _ _ .mul

/-! ### Predicates (R152, R153) -/

/-- `a` is the greater of two: its coefficient is the larger one where the highest difference stands (R152). -/
abbrev HighestDifferenceGreater (a b : Poly) : Prop :=
  ∃ k, coeff b k < coeff a k ∧ ∀ j, k < j → coeff a j = coeff b j

theorem firstGreater_iff {a b : Poly} (hl : a.length = b.length) :
    firstGreater a b = true ↔ HighestDifferenceGreater a b := by
  induction a generalizing b with
  | nil => rw [List.length_eq_zero_iff.1 hl.symm]; simp [firstGreater, HighestDifferenceGreater]
  | cons x a ih =>
    rcases b with _ | ⟨y, b⟩
    · simp at hl
    · simp only [List.length_cons, Nat.add_right_cancel_iff] at hl
      have hx : ∀ k, coeff (x :: a) k = if k = a.length then x.toNat else coeff a k := fun k => by
        rw [coeff_eq, coeffE_cons, coeff_eq]; split <;> rfl
      have hy : ∀ k, coeff (y :: b) k = if k = a.length then y.toNat else coeff b k := fun k => by
        rw [coeff_eq, coeffE_cons, coeff_eq, hl]; split <;> rfl
      have hz : ∀ k, a.length ≤ k → coeff a k = 0 ∧ coeff b k = 0 := fun k hk => by
        rw [coeff_eq, coeff_eq, coeffE_of_length_le hk, coeffE_of_length_le (by omega)]; exact ⟨rfl, rfl⟩
      unfold firstGreater
      by_cases h : x = y
      · subst h
        rw [if_pos rfl, ih hl]
        constructor
        · rintro ⟨k, h1, h2⟩
          have hk : k < a.length := by by_contra hk; have := hz k (by omega); omega
          refine ⟨k, by rw [hx, hy, if_neg (by omega), if_neg (by omega)]; exact h1, fun j hj => ?_⟩
          rw [hx, hy]; split
          · rfl
          · exact h2 j hj
        · rintro ⟨k, h1, h2⟩
          rw [hx, hy] at h1
          have hk : k ≠ a.length := fun hk => by rw [if_pos hk, if_pos hk] at h1; omega
          rw [if_neg hk, if_neg hk] at h1
          refine ⟨k, h1, fun j hj => ?_⟩
          have := h2 j hj
          rw [hx, hy] at this
          by_cases hja : j = a.length
          · rw [(hz j (by omega)).1, (hz j (by omega)).2]
          · rwa [if_neg hja, if_neg hja] at this
      · rw [if_neg h, decide_eq_true_iff]
        have hne : x.toNat ≠ y.toNat := fun e => h (BitVec.eq_of_toNat_eq e)
        constructor
        · intro hlt
          refine ⟨a.length, by rwa [hx, hy, if_pos rfl, if_pos rfl], fun j hj => ?_⟩
          rw [hx, hy, if_neg (by omega), if_neg (by omega), (hz j (by omega)).1, (hz j (by omega)).2]
        · rintro ⟨k, h1, h2⟩
          rw [hx, hy] at h1
          by_cases hk : k = a.length
          · rwa [if_pos hk, if_pos hk] at h1
          · rw [if_neg hk, if_neg hk] at h1
            by_cases hka : k < a.length
            · have := h2 a.length hka
              rw [hx, hy, if_pos rfl, if_pos rfl] at this
              exact absurd this hne
            · have := hz k (by omega); omega

/-- All `pgt` says (R152). -/
theorem pgt_iff (a b : Poly) : pgt a b = true ↔ HighestDifferenceGreater a b := by
  have hge := deg_ge a
  have hgeb := deg_ge b
  have hs : ∀ c k, coeff (shortened c) k = coeff c k := fun c k => by rw [coeff_eq, coeffE_shortened, coeff_eq]
  have hzero : ∀ {c : Poly} {k : Nat}, deg c < k → coeff c k = 0 := fun h => by
    rw [coeff_eq, coeffE_of_deg_lt h]; rfl
  have htop : ∀ {c : Poly}, deg c ≠ -1 → coeff c (deg c).toNat ≠ 0 := fun {c} h h0 =>
    (coeffE_deg h).2 ((coeffE_deg h).1 ▸ (coeff_eq_zero_iff _ _).1 h0)
  unfold pgt
  split
  · rename_i h
    rw [firstGreater_iff (by have := shortened_length a; have := shortened_length b; omega)]
    simp only [HighestDifferenceGreater, hs]
  · rename_i h
    rw [decide_eq_true_iff]
    constructor
    · intro hlt
      refine ⟨(deg a).toNat, ?_, fun j hj => ?_⟩
      · rw [hzero (c := b) (by omega)]; exact Nat.pos_of_ne_zero (htop (by omega))
      · rw [hzero (c := a) (by omega), hzero (c := b) (by omega)]
    · rintro ⟨k, h1, h2⟩
      by_contra hlt
      have hb : deg b ≠ -1 := by omega
      have ha0 : coeff a (deg b).toNat = 0 := hzero (by omega)
      by_cases hk : k < (deg b).toNat
      · exact htop hb ((h2 _ hk).symm.trans ha0)
      · rw [hzero (c := a) (k := k) (by omega)] at h1; omega

/-- All `peq` says (R153). -/
theorem peq_iff (a b : Poly) : peq a b = true ↔ ∀ k, coeff a k = coeff b k := by
  rw [peq, decide_eq_true_iff, shortened_eq_iff]
  exact forall_congr' fun k => ⟨fun h => by rw [coeff_eq, h, coeff_eq], fun h => BitVec.eq_of_toNat_eq h⟩

/-- All `isZeroPoly` says. -/
theorem isZeroPoly_iff_coeff (c : Poly) : isZeroPoly c = true ↔ ∀ k, coeff c k = 0 := by
  rw [isZeroPoly_iff_coeffE]; exact forall_congr' fun k => (coeff_eq_zero_iff c k).symm

end Sys2Proof.Machine
end

