-- ==== Sys2Proof/Laws/PolyRing.lean ====
section
/-! SUPPORT. A coefficient list as a polynomial over the integers modulo m, and what the helpers of 41_polynomial_ops.md
R140 to R151 are in that ring. -/

namespace Sys2Proof.Machine

open Polynomial

/-- The polynomial a coefficient list stands for under modulus m (R13, R27). -/
noncomputable def ringPoly (m : Nat) (c : Poly) : (ZMod m)[X] :=
  ∑ k ∈ Finset.range c.length, monomial k (coeff c k : ZMod m)

theorem ringPoly_coeff (m : Nat) (c : Poly) (k : Nat) : (ringPoly m c).coeff k = (coeff c k : ZMod m) := by
  simp only [ringPoly, finsetSum_coeff, coeff_monomial, Finset.sum_ite_eq', Finset.mem_range]
  split
  · rfl
  · rw [coeff_eq, coeffE_of_length_le (by omega)]; simp

/-- Lists with the same coefficients stand for one polynomial. -/
theorem ringPoly_congr (m : Nat) {a b : Poly} (h : ∀ k, coeffE a k = coeffE b k) : ringPoly m a = ringPoly m b := by
  ext k; rw [ringPoly_coeff, ringPoly_coeff, coeff_eq, coeff_eq, h]

@[simp] theorem ringPoly_nil (m : Nat) : ringPoly m [] = 0 := by simp [ringPoly]

@[simp] theorem ringPoly_shortened (m : Nat) (c : Poly) : ringPoly m (shortened c) = ringPoly m c :=
  ringPoly_congr m (coeffE_shortened c)

@[simp] theorem ringPoly_mkpoly (m : Nat) (c : Poly) : ringPoly m (mkpoly c) = ringPoly m c :=
  ringPoly_congr m (coeffE_mkpoly c)

theorem ringPoly_cons (m : Nat) (v : Elem) (c : Poly) :
    ringPoly m (v :: c) = monomial c.length (v.toNat : ZMod m) + ringPoly m c := by
  ext k
  rw [coeff_add, ringPoly_coeff, ringPoly_coeff, coeff_monomial, coeff_eq, coeff_eq, coeffE_cons]
  by_cases h : k = c.length
  · rw [if_pos h, if_pos h.symm, coeffE_of_length_le (by omega)]; simp
  · rw [if_neg h, if_neg (Ne.symm h), zero_add]

/-- One more coefficient at the low end. -/
theorem ringPoly_concat (m : Nat) (c : Poly) (v : Elem) :
    ringPoly m (c ++ [v]) = X * ringPoly m c + C (v.toNat : ZMod m) := by
  induction c with
  | nil => simp [ringPoly_cons]
  | cons w c ih =>
    rw [List.cons_append, ringPoly_cons, ih, ringPoly_cons, List.length_append, List.length_singleton, mul_add,
      X_mul_monomial]
    ring

theorem ringPoly_shiftUp (m : Nat) (a : Poly) (n : Nat) : ringPoly m (shiftUp a n) = ringPoly m a * X ^ n := by
  ext k
  rw [ringPoly_coeff, coeff_eq, coeffE_shiftUp, coeff_mul_X_pow', ringPoly_coeff]
  by_cases h : k < n
  · rw [if_pos h, if_neg (by omega)]; simp
  · rw [if_neg h, if_pos (by omega), coeff_eq]

section Legal
variable {m : Nat} (h1 : 1 ≤ m) (h2 : m ≤ 256) (a b : Poly)
include h1 h2

theorem coeff_padd (k : Nat) : coeff (padd m a b) k = (coeff a k + coeff b k) % m := by
  rw [coeff_eq, coeffE_padd, fop_add_toNat h1 h2]; rfl

theorem coeff_psub (k : Nat) : (coeff (psub m a b) k : Int) = ((coeff a k : Int) - coeff b k) % m := by
  rw [coeff_eq, coeffE_psub, fop_sub_toInt h1 h2]; rfl

theorem coeff_pscale (s : Elem) (k : Nat) : coeff (pscale m a s) k = coeff a k * s.toNat % m := by
  rw [coeff_eq, coeffE_pscale, fop_mul_toNat h1 h2]; rfl

theorem ringPoly_padd : ringPoly m (padd m a b) = ringPoly m a + ringPoly m b := by
  ext k
  rw [coeff_add, ringPoly_coeff, ringPoly_coeff, ringPoly_coeff, coeff_padd h1 h2, ZMod.natCast_mod, Nat.cast_add]

theorem ringPoly_psub : ringPoly m (psub m a b) = ringPoly m a - ringPoly m b := by
  ext k
  rw [coeff_sub, ringPoly_coeff, ringPoly_coeff, ringPoly_coeff, ← Int.cast_natCast, coeff_psub h1 h2,
    ZMod.intCast_mod]
  push_cast; rfl

theorem ringPoly_pscale (s : Elem) : ringPoly m (pscale m a s) = ringPoly m a * C (s.toNat : ZMod m) := by
  ext k
  rw [coeff_mul_C, ringPoly_coeff, ringPoly_coeff, coeff_pscale h1 h2, ZMod.natCast_mod, Nat.cast_mul]

end Legal

/-- The product coefficient of `prodCoeff` is the one of the polynomial product. -/
theorem prodCoeff_cast (m : Nat) (a b : Poly) (k : Nat) :
    (prodCoeff a b k : ZMod m) = (ringPoly m a * ringPoly m b).coeff k := by
  rw [coeff_mul, Finset.Nat.sum_antidiagonal_eq_sum_range_succ_mk, prodCoeff]
  simp only [ringPoly_coeff, Nat.cast_sum, Nat.cast_mul, Nat.succ_eq_add_one]

/-- Two coefficients are congruent exactly when the ring sees one value. -/
theorem natCast_eq_iff_mod (m x y : Nat) : (x : ZMod m) = y ↔ x % m = y % m :=
  ZMod.natCast_eq_natCast_iff x y m

/-! ### The product (R149) -/

/-- The degree and the raw length of `pmul` as one bound: position `deg a` of the raw length of b. -/
theorem pmulLoop_ok {m : Nat} (h1 : 1 ≤ m) (h2 : m ≤ 256) (b vs : List Elem) (n : Nat) (acc : Poly) {L : Nat}
    (hL : L ≤ Config.nmax) (hfit : ∀ i, (h : i < vs.length) → vs[i] ≠ 0 → b.length + (n + i) ≤ L)
    (hacc : acc.length ≤ L) :
    ∃ c, pmulLoop m b vs n acc = .ok c ∧ c.length ≤ L ∧ (PolyLegal m acc → PolyLegal m c) ∧
      ringPoly m c = ringPoly m acc + X ^ n * ringPoly m vs.reverse * ringPoly m b := by
  induction vs generalizing n acc with
  | nil => exact ⟨acc, rfl, hacc, id, by simp⟩
  | cons v vs ih =>
    have hfit' : ∀ i, (h : i < vs.length) → vs[i] ≠ 0 → b.length + (n + 1 + i) ≤ L := fun i h hv => by
      have := hfit (i + 1) (by simpa using h) (by simpa using hv); omega
    have hr : ringPoly m (v :: vs).reverse = X * ringPoly m vs.reverse + C (v.toNat : ZMod m) := by
      rw [List.reverse_cons, ringPoly_concat]
    unfold pmulLoop
    by_cases hv : v = 0
    · rw [if_pos hv]
      obtain ⟨c, e1, e2, e3, e4⟩ := ih (n + 1) acc hfit' hacc
      refine ⟨c, e1, e2, e3, ?_⟩
      rw [e4, hr, hv]; simp; ring
    · rw [if_neg hv]
      have hn := hfit 0 (by simp) (by simpa using hv)
      rcases pshl_cases b n with ⟨_, h⟩ | ⟨hs, _⟩
      · omega
      · rw [hs]
        have hlen : (padd m acc (pscale m (shiftUp b n) v)).length ≤ L := by
          have e1 := combine_length_le .add m acc (pscale m (shiftUp b n) v)
          have e2 := pscale_length_le m (shiftUp b n) v
          have e3 := shiftUp_length_le b n
          simp only [padd]; omega
        obtain ⟨c, e1, e2, e3, e4⟩ := ih (n + 1) _ hfit' hlen
        refine ⟨c, e1, e2, fun _ => e3 (polyLegal_combine .add h1 h2 ?_), ?_⟩
        · have e2 := pscale_length_le m (shiftUp b n) v
          have e3 := shiftUp_length_le b n
          omega
        · rw [e4, hr, ringPoly_padd h1 h2, ringPoly_pscale h1 h2, ringPoly_shiftUp]; ring

/-- A term that does not fit raises LengthOverflow, whatever the modulus. -/
theorem pmulLoop_error (m : Nat) (b vs : List Elem) (n : Nat) (acc : Poly) {i : Nat} (hi : i < vs.length)
    (hv : vs[i] ≠ 0) (h : Config.nmax < b.length + (n + i)) : pmulLoop m b vs n acc = .error .lengthOverflow := by
  induction vs generalizing n acc i with
  | nil => simp at hi
  | cons v vs ih =>
    unfold pmulLoop
    rcases i with _ | i
    · have hv' : v ≠ 0 := by simpa using hv
      rw [if_neg hv', pshl, if_pos (by omega)]
    · have hi' : i < vs.length := by simpa using hi
      have hv' : vs[i] ≠ 0 := by simpa using hv
      split
      · exact ih (n + 1) acc hi' hv' (by omega)
      · rcases pshl_cases b n with ⟨hs, _⟩ | ⟨hs, _⟩
        · rw [hs]
        · rw [hs]; exact ih (n + 1) _ hi' hv' (by omega)

/-- The position of a non-zero entry, counted from the low end, is at most the degree. -/
theorem reverse_getElem_ne_zero {a : Poly} {i : Nat} (h : i < a.reverse.length) (hv : a.reverse[i] ≠ 0) :
    (i : Int) ≤ deg a := by
  by_contra hlt
  apply hv
  have := coeffE_of_deg_lt (c := a) (k := i) (by omega)
  rwa [coeffE, List.getD_eq_getElem _ _ h] at this

/-- The operands of a product that raises LengthOverflow (R149). -/
abbrev PmulOverflows (a b : Poly) : Prop := deg a ≠ -1 ∧ deg b ≠ -1 ∧ (Config.nmax : Int) < b.length + deg a

/-- All `pmul` can do (R149): LengthOverflow exactly when both operands are non-zero and the last shift does not fit;
else the product. -/
theorem pmul_cases {m : Nat} (h1 : 1 ≤ m) (h2 : m ≤ 256) (a b : Poly) :
    (PmulOverflows a b ∧ pmul m a b = .error .lengthOverflow) ∨
    (¬PmulOverflows a b ∧ ∃ c, pmul m a b = .ok c ∧ PolyLegal m c ∧
      ringPoly m c = ringPoly m a * ringPoly m b ∧ (deg a = -1 ∨ deg b = -1 → c = []) ∧
      (deg a ≠ -1 → (c.length : Int) ≤ b.length + deg a)) := by
  have hz : ∀ {c : Poly}, deg c = -1 → ringPoly m c = 0 := fun {c} h => by
    rw [ringPoly_congr m (b := []) fun k => ?_, ringPoly_nil]
    rw [(isZeroPoly_iff_coeffE c).1 ((isZeroPoly_iff_deg c).2 h), coeffE_nil]
  unfold pmul
  by_cases ha : deg a = -1
  · refine .inr ⟨fun h => h.1 ha, [], ?_, polyLegal_nil m, by simp [hz ha], fun _ => rfl, fun h => absurd ha h⟩
    rw [if_pos (by simp [(isZeroPoly_iff_deg a).2 ha])]
  by_cases hb : deg b = -1
  · refine .inr ⟨fun h => h.2.1 hb, [], ?_, polyLegal_nil m, by simp [hz hb], fun _ => rfl, fun _ => ?_⟩
    · rw [if_pos (by simp [(isZeroPoly_iff_deg b).2 hb])]
    · have := deg_ge a; simp only [List.length_nil]; omega
  have hcond : (isZeroPoly a || isZeroPoly b) ≠ true := by
    simp only [Bool.or_eq_true, isZeroPoly_iff_deg, ha, hb, or_self, not_false_eq_true, ne_eq]
  rw [if_neg hcond]
  have hd := deg_ge a
  have hl := deg_lt_length a
  by_cases hov : (Config.nmax : Int) < b.length + deg a
  · left
    refine ⟨⟨ha, hb, hov⟩, pmulLoop_error (i := (deg a).toNat) m b _ 0 _ ?_ ?_ (by omega)⟩
    · rw [List.length_reverse]; omega
    · have := coeffE_deg ha
      rw [coeffE, List.getD_eq_getElem _ _ (by rw [List.length_reverse]; omega)] at this
      rw [this.1]; exact this.2
  · right
    refine ⟨fun h => hov h.2.2, ?_⟩
    obtain ⟨c, e1, e2, e3, e4⟩ := pmulLoop_ok h1 h2 b a.reverse 0 [] (L := (b.length + deg a).toNat)
      (by omega) (fun i h hv => by have := reverse_getElem_ne_zero h hv; omega) (Nat.zero_le _)
    refine ⟨c, e1, e3 (polyLegal_nil m), ?_, fun h => ?_, fun _ => by omega⟩
    · rw [e4]; simp
    · rcases h with h | h
      · exact absurd h ha
      · exact absurd h hb

/-! The raw length of a product (R149, R164). -/

/-- A term that is 0 modulo m leaves the accumulator's raw length as it is, or the sum is `[]`. -/
theorem padd_nil_length (m : Nat) (acc : Poly) : (padd m acc []).length = acc.length ∨ padd m acc [] = [] := by
  have h := combine_length .add m acc []
  cases hz : isZeroPoly (combine .add m acc []) with
  | true => exact .inr (h.1 hz)
  | false => exact .inl (by rw [padd, h.2 hz, List.length_nil, Nat.max_eq_left (Nat.zero_le _)])

/-- A scaled list is `[]` or keeps the raw length (R147). -/
theorem pscale_length (m : Nat) (a : Poly) (s : Elem) :
    (isZeroPoly (pscale m a s) = true → pscale m a s = []) ∧
    (isZeroPoly (pscale m a s) = false → (pscale m a s).length = a.length) := by
  unfold pscale mkpoly; split
  · exact ⟨fun _ => rfl, fun h => by simp [isZeroPoly] at h⟩
  · rename_i hz; exact ⟨fun h => absurd h hz, fun _ => List.length_map ..⟩

/-- The scaled shift of b is 0 exactly when every product of the scalar with a coefficient of b is. -/
theorem isZeroPoly_term {m : Nat} (h1 : 1 ≤ m) (h2 : m ≤ 256) (b : Poly) (n : Nat) (v : Elem) :
    isZeroPoly (pscale m (shiftUp b n) v) = true ↔ ∀ j, v.toNat * coeff b j % m = 0 := by
  have hs : ∀ k, coeff (shiftUp b n) k = if k < n then 0 else coeff b (k - n) := fun k => by
    rw [coeff_eq, coeffE_shiftUp]; split <;> rfl
  simp only [isZeroPoly_iff_coeff, coeff_pscale h1 h2, hs]
  constructor
  · intro h j
    have := h (j + n)
    rwa [if_neg (by omega), Nat.add_sub_cancel, Nat.mul_comm] at this
  · intro h k
    split
    · simp
    · rw [Nat.mul_comm]; exact h _

/-- Where every further term is 0, the raw length stays, or the sum is `[]`. -/
theorem pmulLoop_length_zero {m : Nat} (h1 : 1 ≤ m) (h2 : m ≤ 256) (b vs : List Elem) (n : Nat) (acc : Poly) {c : Poly}
    (h : pmulLoop m b vs n acc = .ok c) (hz : ∀ v ∈ vs, ∀ j, v.toNat * coeff b j % m = 0) :
    c.length = acc.length ∨ c = [] := by
  induction vs generalizing n acc with
  | nil => cases h; exact .inl rfl
  | cons v vs ih =>
    have hz' : ∀ w ∈ vs, ∀ j, w.toNat * coeff b j % m = 0 := fun w hw => hz w (List.mem_cons_of_mem _ hw)
    unfold pmulLoop at h
    split at h
    · exact ih (n + 1) acc h hz'
    · rcases pshl_cases b n with ⟨hs, _⟩ | ⟨hs, _⟩
      · rw [hs] at h; cases h
      · rw [hs] at h
        have ht := (isZeroPoly_term h1 h2 b n v).2 (hz v List.mem_cons_self)
        simp only [(pscale_length m (shiftUp b n) v).1 ht] at h
        rcases ih (n + 1) _ h hz' with e | e
        · rcases padd_nil_length m acc with e' | e'
          · exact .inl (e.trans e')
          · exact .inr (List.length_eq_zero_iff.1 (by rw [e, e', List.length_nil]))
        · exact .inr e

/-- The last term that is not 0 fixes the raw length of a product that is not `[]`. -/
theorem pmulLoop_length {m : Nat} (h1 : 1 ≤ m) (h2 : m ≤ 256) (b vs : List Elem) (n : Nat) (acc : Poly) {c : Poly}
    (h : pmulLoop m b vs n acc = .ok c) (hacc : acc.length ≤ b.length + n) {i : Nat} (hi : i < vs.length)
    (hv : ∃ j, vs[i].toNat * coeff b j % m ≠ 0)
    (hz : ∀ k, (hk : k < vs.length) → i < k → ∀ j, vs[k].toNat * coeff b j % m = 0) :
    c.length = b.length + (n + i) ∨ c = [] := by
  induction vs generalizing n acc i with
  | nil => simp at hi
  | cons v vs ih =>
    have hshift := shiftUp_length_le b n
    have hadd : ∀ w, (padd m acc (pscale m (shiftUp b n) w)).length ≤ b.length + n := fun w => by
      have e1 := combine_length_le .add m acc (pscale m (shiftUp b n) w)
      have e2 := pscale_length_le m (shiftUp b n) w
      simp only [padd]; omega
    rcases i with _ | i
    · have hv0 : v ≠ 0 := fun e => by
        obtain ⟨j, hj⟩ := hv
        exact hj (by simp [e])
      have hrest : ∀ w ∈ vs, ∀ j, w.toNat * coeff b j % m = 0 := fun w hw => by
        obtain ⟨k, hk, rfl⟩ := List.mem_iff_getElem.1 hw
        exact hz (k + 1) (by simpa using hk) (by omega)
      unfold pmulLoop at h
      rw [if_neg hv0] at h
      rcases pshl_cases b n with ⟨hs, _⟩ | ⟨hs, _⟩
      · rw [hs] at h; cases h
      · rw [hs] at h
        have hlive : isZeroPoly (pscale m (shiftUp b n) v) = false := by
          rw [Bool.eq_false_iff, ne_eq, isZeroPoly_term h1 h2]
          obtain ⟨j, hj⟩ := hv
          exact fun hall => hj (hall j)
        have hb : isZeroPoly (b ++ zeros n) = false := by
          rw [Bool.eq_false_iff]
          intro hb
          rw [show shiftUp b n = [] from mkpoly_of_zero hb] at hlive
          simp [pscale, mkpoly, isZeroPoly] at hlive
        have hterm : (pscale m (shiftUp b n) v).length = b.length + n := by
          rw [(pscale_length _ _ _).2 hlive, show shiftUp b n = b ++ zeros n from mkpoly_of_ne hb]
          simp
        rcases pmulLoop_length_zero h1 h2 b vs (n + 1) _ h hrest with e | e
        · have hc := combine_length .add m acc (pscale m (shiftUp b n) v)
          cases hsum : isZeroPoly (combine .add m acc (pscale m (shiftUp b n) v)) with
          | true => exact .inr (List.length_eq_zero_iff.1 (by rw [e, padd, hc.1 hsum, List.length_nil]))
          | false => left; rw [e, padd, hc.2 hsum, hterm, Nat.max_eq_right hacc]; omega
        · exact .inr e
    · have hi' : i < vs.length := by simpa using hi
      have hz' : ∀ k, (hk : k < vs.length) → i < k → ∀ j, vs[k].toNat * coeff b j % m = 0 :=
        fun k hk hik => hz (k + 1) (by simpa using hk) (by omega)
      have hcount : n + 1 + i = n + (i + 1) := by omega
      unfold pmulLoop at h
      split at h
      · exact hcount ▸ ih (n + 1) acc h (by omega) hi' hv hz'
      · rcases pshl_cases b n with ⟨hs, _⟩ | ⟨hs, _⟩
        · rw [hs] at h; cases h
        · rw [hs] at h
          exact hcount ▸ ih (n + 1) _ h (by have := hadd v; omega) hi' hv hz'

/-- A finished accumulator is `[]` or not zero: every sum ends in `mkpoly` (R145). -/
theorem pmulLoop_zero {m : Nat} (b vs : List Elem) (n : Nat) (acc : Poly) {c : Poly}
    (h : pmulLoop m b vs n acc = .ok c) (hacc : isZeroPoly acc = true → acc = []) : isZeroPoly c = true → c = [] := by
  induction vs generalizing n acc with
  | nil => cases h; exact hacc
  | cons v vs ih =>
    unfold pmulLoop at h
    split at h
    · exact ih (n + 1) acc h hacc
    · split at h
      · cases h
      · exact ih (n + 1) _ h (combine_length .add m _ _).1

/-- What `pmul` answers where it answers a list (R149): that list and no other. -/
theorem pmul_isProduct {m : Nat} (h1 : 1 ≤ m) (h2 : m ≤ 256) {a b c : Poly} (h : pmul m a b = .ok c) :
    IsProduct m a b c := by
  rcases pmul_cases h1 h2 a b with ⟨_, e⟩ | ⟨_, c', e, hl, hr, _, _⟩
  · rw [h] at e; cases e
  obtain rfl : c = c' := by rw [h] at e; cases e; rfl
  have hzero : isZeroPoly c = true → c = [] := by
    unfold pmul at h; split at h
    · cases h; exact fun _ => rfl
    · exact pmulLoop_zero b _ 0 [] h fun _ => rfl
  refine ⟨fun k => ?_, fun hc => hzero ((isZeroPoly_iff_coeff c).2 hc), fun ⟨k, hk⟩ n hn hlast => ?_⟩
  · have := (natCast_eq_iff_mod m _ _).1 (show ((coeff c k : Nat) : ZMod m) = (prodCoeff a b k : Nat) by
      rw [prodCoeff_cast, ← hr, ringPoly_coeff])
    rwa [Nat.mod_eq_of_lt (hl.coeff_lt h1 k)] at this
  · have hne : c ≠ [] := fun e => hk (by simp [e, coeff])
    unfold pmul at h; split at h
    · cases h; exact absurd rfl hne
    have hrev : ∀ k, (hk : k < a.reverse.length) → a.reverse[k].toNat = coeff a k := fun k hk => by
      rw [coeff, List.getD_eq_getElem _ _ hk]
    have hi : n < a.reverse.length := by
      by_contra hlt
      obtain ⟨j, hj⟩ := hn
      exact hj (by rw [coeff, List.getD_eq_default _ _ (by omega)]; simp)
    rcases pmulLoop_length h1 h2 b a.reverse 0 [] h (Nat.zero_le _) hi (by simpa only [hrev n hi] using hn)
      (fun k hk hnk => by simpa only [hrev k hk] using hlast k hnk) with e | e
    · rw [e, Nat.zero_add]
    · exact absurd e hne

/-! ### Evaluation (R151) -/

/-- One more coefficient at the low end is one Horner step. -/
theorem peval_concat (m : Nat) (a : Poly) (v x : Elem) :
    peval m (a ++ [v]) x = fop .add m (fop .mul m (peval m a x) x) v := by simp [peval]

/-- `peval` is the value of the polynomial, an element of the field. -/
theorem peval_spec {m : Nat} (h1 : 1 ≤ m) (h2 : m ≤ 256) (a : Poly) (x : Elem) :
    (peval m a x).toNat < m ∧ ((peval m a x).toNat : ZMod m) = (ringPoly m a).eval (x.toNat : ZMod m) := by
  induction a using List.reverseRecOn with
  | nil => exact ⟨h1, by simp [peval]⟩
  | append_singleton a v ih =>
    rw [peval_concat]
    refine ⟨fop_lt h1 h2 _ _ .add, ?_⟩
    rw [fop_add_toNat h1 h2, fop_mul_toNat h1 h2, ringPoly_concat, ZMod.natCast_mod, Nat.cast_add, ZMod.natCast_mod,
      Nat.cast_mul, ih.2]
    simp [mul_comm]

/-- The sum of coefficient times power, as the spec writes the value. -/
theorem eval_ringPoly (m : Nat) (a : Poly) (x : Nat) :
    (ringPoly m a).eval (x : ZMod m) = ((∑ k ∈ Finset.range a.length, coeff a k * x ^ k : Nat) : ZMod m) := by
  rw [ringPoly, eval_finsetSum]; simp [eval_monomial]

/-! ### Powers (R150) -/

/-- One more product at the end. -/
theorem ppowLoop_succ (m : Nat) (a : Poly) (k : Nat) (acc : Poly) :
    ppowLoop m a (k + 1) acc =
      match ppowLoop m a k acc with
      | .error f => .error f
      | .ok c => pmul m c a := by
  induction k generalizing acc with
  | zero => simp only [ppowLoop]; cases pmul m acc a <;> rfl
  | succ k ih =>
    rw [ppowLoop]
    conv_rhs => rw [ppowLoop]
    rcases pmul m acc a with f | c
    · rfl
    · exact ih c

/-- The power n + 1 from the power n, from n = 1 on (R150). -/
theorem ppow_succ (m : Nat) (a : Poly) {n : Nat} (hn : 1 ≤ n) :
    ppow m a (n + 1) =
      match ppow m a n with
      | .error f => .error f
      | .ok c => pmul m c a := by
  obtain ⟨k, rfl⟩ : ∃ k, n = k + 1 := ⟨n - 1, by omega⟩
  exact ppowLoop_succ m a k a

/-- All `ppow` can do: LengthOverflow, or the power of the polynomial. -/
theorem ppow_cases {m : Nat} (h1 : 2 ≤ m) (h2 : m ≤ 256) {a : Poly} (ha : PolyLegal m a) (n : Nat) :
    ppow m a n = .error .lengthOverflow ∨
    ∃ c, ppow m a n = .ok c ∧ PolyLegal m c ∧ ringPoly m c = ringPoly m a ^ n := by
  rcases n with _ | n
  · refine .inr ⟨[1], rfl, ⟨by decide, by simp; omega⟩, ?_⟩
    rw [ringPoly_cons]; simp
  induction n with
  | zero => exact .inr ⟨a, rfl, ha, by simp⟩
  | succ n ih =>
    rw [ppow_succ m a (by omega)]
    rcases ih with h | ⟨c, h, _, hp⟩
    · rw [h]; exact .inl rfl
    · rw [h]
      rcases pmul_cases (by omega) h2 c a with ⟨_, he⟩ | ⟨_, d, hd, hl, hr, _, _⟩
      · exact .inl he
      · refine .inr ⟨d, hd, hl, ?_⟩
        rw [hr, hp]; ring

end Sys2Proof.Machine
end

