-- ==== Sys2Proof/Laws/Division.lean ====
section
/-! SUPPORT. What the long division of 42_polynomial_long_div.md R180 does: the loop keeps quotient times divisor plus
remainder, the degree of the remainder falls in every iteration (R183), and the only fault of the loop is an inexact
leading quotient (R182). -/

namespace Sys2Proof.Machine

open Polynomial

/-- Every entry is an element of the field. -/
abbrev EntriesBelow (m : Nat) (c : Poly) : Prop := ∀ v ∈ c, v.toNat < m

theorem EntriesBelow.shortened {m : Nat} {c : Poly} (h : EntriesBelow m c) : EntriesBelow m (shortened c) :=
  fun v hv => h v (by rw [(shortened_spec c).1]; exact List.mem_append_right _ hv)

theorem EntriesBelow.coeffE_lt {m : Nat} (hm : 1 ≤ m) {c : Poly} (h : EntriesBelow m c) (k : Nat) :
    (coeffE c k).toNat < m := by
  by_cases hk : k < c.length
  · exact h _ (coeffE_mem hk)
  · rw [coeffE_of_length_le (by omega)]; exact hm

theorem entriesBelow_combine (o : FieldOp) {m : Nat} (h1 : 1 ≤ m) (h2 : m ≤ 256) (a b : Poly) :
    EntriesBelow m (combine o m a b) := by
  intro v hv
  have := mem_of_mem_mkpoly hv
  rw [← List.map_uncurry_zip_eq_zipWith] at this
  obtain ⟨p, -, rfl⟩ := List.mem_map.1 this
  exact fop_lt h1 h2 _ _ o

/-- One entry of a list replaced, counted from the low end. -/
theorem coeffE_set {q : Poly} {n k : Nat} (hq : q.length = n + 1) (hk : k ≤ n) (t : Elem) (j : Nat) :
    coeffE (q.set (n - k) t) j = if j = k then t else coeffE q j := by
  by_cases hj : j < n + 1
  · rw [coeffE, coeffE, List.getD_eq_getElem _ _ (by simpa [hq] using hj),
      List.getD_eq_getElem _ _ (by simpa [hq] using hj), List.getElem_reverse, List.getElem_reverse, List.getElem_set]
    simp only [List.length_set, hq]
    by_cases h : j = k
    · rw [if_pos h, if_pos (by omega)]
    · rw [if_neg h, if_neg (by omega)]
  · rw [if_neg (by omega), coeffE_of_length_le (by simp [hq]; omega), coeffE_of_length_le (by omega)]

theorem ringPoly_set (m : Nat) {q : Poly} {n k : Nat} (hq : q.length = n + 1) (hk : k ≤ n) (h0 : coeffE q k = 0)
    (t : Elem) : ringPoly m (q.set (n - k) t) = ringPoly m q + C (t.toNat : ZMod m) * X ^ k := by
  ext j
  rw [coeff_add, ringPoly_coeff, ringPoly_coeff, coeff_C_mul_X_pow, coeff_eq, coeff_eq, coeffE_set hq hk]
  by_cases h : j = k
  · subst h; rw [if_pos rfl, if_pos rfl, h0]; simp
  · rw [if_neg h, if_neg h, add_zero]

theorem zeros_coeffE (n k : Nat) : coeffE (zeros n) k = 0 := by
  rw [← List.append_nil (zeros n), coeffE_zeros_append, coeffE_nil]

/-- The degree is below d when every coefficient from d on is 0. -/
theorem deg_lt_of_coeffE {c : Poly} {d : Int} (hd : 0 ≤ d) (h : ∀ k : Nat, d ≤ k → coeffE c k = 0) : deg c < d := by
  by_contra hlt
  have hz : deg c ≠ -1 := by omega
  exact (coeffE_deg hz).2 ((coeffE_deg hz).1 ▸ h _ (by have := deg_ge c; omega))

/-- One iteration of the loop: the exact leading quotient cancels the leading term (R183). -/
theorem divStep {m : Nat} (h1 : 1 ≤ m) (h2 : m ≤ 256) {dv r : Poly} (hdv : deg dv ≠ -1) (hr : EntriesBelow m r)
    (hge : ¬deg r < deg dv) (hex : (lead r).toNat % (lead dv).toNat = 0) {k : Nat} {t : Elem}
    (hk : k = (deg r - deg dv).toNat) (ht : t = fop .div m (lead r) (lead dv)) :
    t ≠ 0 ∧ deg (psub m r (pscale m (shiftUp dv k) t)) < deg dv + k ∧
      ringPoly m (psub m r (pscale m (shiftUp dv k) t)) =
        ringPoly m r - ringPoly m dv * X ^ k * C (t.toNat : ZMod m) := by
  have hge0 := deg_ge dv
  have hr0 : deg r ≠ -1 := by omega
  obtain ⟨hlr, hlr0⟩ := coeffE_deg hr0
  obtain ⟨hld, hld0⟩ := coeffE_deg hdv
  have hlt : (lead r).toNat < m := hlr ▸ hr.coeffE_lt h1 _
  have htn : t.toNat = (lead r).toNat / (lead dv).toNat := by
    rw [ht, fop_div_toNat h1 h2, Nat.mod_eq_of_lt ((Nat.div_le_self _ _).trans_lt hlt)]
  have hmul : (lead dv).toNat * t.toNat = (lead r).toNat := by
    rw [htn]; exact Nat.mul_div_cancel' (Nat.dvd_of_mod_eq_zero hex)
  have hpos : (lead r).toNat ≠ 0 := fun h => hlr0 (BitVec.eq_of_toNat_eq h)
  refine ⟨fun h => hpos (by rw [← hmul, h]; simp), ?_, ?_⟩
  · have hkd : deg dv + k = deg r := by omega
    rw [hkd]
    refine deg_lt_of_coeffE (by omega) fun j hj => ?_
    rw [← coeff_eq_zero_iff]
    have hc : (coeff (psub m r (pscale m (shiftUp dv k) t)) j : Int) = 0 := by
      rw [coeff_psub h1 h2, coeff_pscale h1 h2, coeff_eq (shiftUp dv k), coeffE_shiftUp, if_neg (by omega)]
      by_cases hjd : (j : Int) = deg r
      · rw [show j = (deg r).toNat by omega, coeff_eq, hlr,
          show (deg r).toNat - k = (deg dv).toNat by omega, hld, hmul, Nat.mod_eq_of_lt hlt]
        simp
      · rw [coeffE_of_deg_lt (c := dv) (by omega), coeff_eq, coeffE_of_deg_lt (c := r) (by omega)]; simp
    exact_mod_cast hc
  · rw [ringPoly_psub h1 h2, ringPoly_pscale h1 h2, ringPoly_shiftUp]

/-- What a finished loop leaves (R180, R181, R183). -/
structure DivDone (m : Nat) (dv : Poly) (n Z : Nat) (q r q' r' : Poly) : Prop where
  identity : ringPoly m q' * ringPoly m dv + ringPoly m r' = ringPoly m q * ringPoly m dv + ringPoly m r
  degree : deg r' < deg dv
  short : shortened r' = r'
  length : q'.length = n + 1
  above : ∀ j, Z ≤ j → coeffE q' j = coeffE q j
  top : Z ≠ 0 → deg r = deg dv + (Z - 1 : Nat) → coeffE q' (Z - 1) ≠ 0
  belowQ : EntriesBelow m q → EntriesBelow m q'
  belowR : EntriesBelow m r'

/-- All the loop can do: the inexact leading quotient, never with a leading coefficient 1, or a finished division. `Z`
bounds the positions of the quotient still to be computed. -/
theorem divLoop_cases {m : Nat} (h1 : 1 ≤ m) (h2 : m ≤ 256) {dv : Poly} (hdv : deg dv ≠ -1) {n : Nat} :
    ∀ (fuel Z : Nat) (q r : Poly), Z ≤ fuel → Z ≤ n + 1 → deg r < deg dv + Z → q.length = n + 1 →
      (∀ j, j < Z → coeffE q j = 0) → shortened r = r → EntriesBelow m r →
      (lead dv ≠ 1 ∧ divLoop m dv n fuel q r = .error .inexactLeadingQuotient) ∨
      ∃ q' r', divLoop m dv n fuel q r = .ok (q', r') ∧ DivDone m dv n Z q r q' r' := by
  intro fuel
  induction fuel with
  | zero =>
    intro Z q r hZ _ hd hq _ hs hb
    obtain rfl : Z = 0 := by omega
    refine .inr ⟨q, r, rfl, rfl, by simpa using hd, hs, hq, fun _ _ => rfl, fun h => absurd rfl h, id, hb⟩
  | succ fuel ih =>
    intro Z q r hZ hZn hd hq h0 hs hb
    unfold divLoop
    by_cases hlt : deg r < deg dv
    · rw [if_pos hlt]
      exact .inr ⟨q, r, rfl, rfl, hlt, hs, hq, fun _ _ => rfl, fun _ h => by omega, id, hb⟩
    rw [if_neg hlt]
    by_cases hex : (lead r).toNat % (lead dv).toNat = 0
    · have hge0 := deg_ge dv
      have hkZ : (deg r - deg dv).toNat < Z := by omega
      obtain ⟨ht0, hdeg, hring⟩ := divStep h1 h2 hdv hb hlt hex rfl rfl
      simp only [ne_eq, hex, not_true_eq_false, if_false]
      generalize hk : (deg r - deg dv).toNat = k at *
      generalize ht : fop .div m (lead r) (lead dv) = t at *
      have hset := coeffE_set hq (show k ≤ n by omega) t
      have hlen : (q.set (n - k) t).length = n + 1 := by simpa using hq
      have hbr : EntriesBelow m (shortened (psub m r (pscale m (shiftUp dv k) t))) :=
        (entriesBelow_combine .sub h1 h2 _ _).shortened
      have hrec := ih k (q.set (n - k) t) (shortened (psub m r (pscale m (shiftUp dv k) t))) (by omega) (by omega)
        (by rw [deg_shortened]; exact hdeg) hlen
        (fun j hj => by rw [hset, if_neg (by omega)]; exact h0 j (by omega)) (shortened_shortened _) hbr
      rcases hrec with herr | ⟨q', r', he, hD⟩
      · exact .inl herr
      · refine .inr ⟨q', r', he, ?_, hD.degree, hD.short, hD.length, fun j hj => ?_, fun _ htop => ?_, fun hbq => ?_,
          hD.belowR⟩
        · rw [hD.identity, ringPoly_shortened, hring, ringPoly_set m hq (by omega) (h0 k hkZ)]; ring
        · rw [hD.above j (by omega), hset, if_neg (by omega)]
        · obtain rfl : k = Z - 1 := by omega
          rw [hD.above _ le_rfl, hset, if_pos rfl]; exact ht0
        · refine hD.belowQ fun v hv => ?_
          rcases List.mem_or_eq_of_mem_set hv with h | rfl
          · exact hbq v h
          · rw [← ht]; exact fop_lt h1 h2 _ _ .div
    · refine .inl ⟨fun hl => hex (by rw [hl]; exact Nat.mod_one _), ?_⟩
      simp only [ne_eq, hex, not_false_eq_true, if_true]

/-- Two runs of the loop on one remainder, with quotient lists of any two sizes that are still 0 below `Z`: both fault, or
both end with one remainder and the same quotient terms below `Z`, each keeping its own terms from `Z` on. So an
iteration does not depend on those before it but by the remainder (R180, R181). -/
theorem divLoop_agree {m : Nat} (h1 : 1 ≤ m) (h2 : m ≤ 256) {dv : Poly} (hdv : deg dv ≠ -1) {n n' : Nat} :
    ∀ (fuel fuel' Z : Nat) (q q' r : Poly), Z ≤ fuel → Z ≤ fuel' → Z ≤ n + 1 → Z ≤ n' + 1 → deg r < deg dv + Z →
      q.length = n + 1 → q'.length = n' + 1 → (∀ j, j < Z → coeffE q j = coeffE q' j) → EntriesBelow m r →
      (divLoop m dv n fuel q r = .error .inexactLeadingQuotient ∧
        divLoop m dv n' fuel' q' r = .error .inexactLeadingQuotient) ∨
      ∃ u u' v, divLoop m dv n fuel q r = .ok (u, v) ∧ divLoop m dv n' fuel' q' r = .ok (u', v) ∧
        (∀ j, j < Z → coeffE u j = coeffE u' j) ∧ (∀ j, Z ≤ j → coeffE u j = coeffE q j) ∧
        (∀ j, Z ≤ j → coeffE u' j = coeffE q' j) := by
  intro fuel
  induction fuel with
  | zero =>
    intro fuel' Z q q' r hZ _ _ _ hd _ _ h0 _
    obtain rfl : Z = 0 := by omega
    refine .inr ⟨q, q', r, rfl, ?_, h0, fun _ _ => rfl, fun _ _ => rfl⟩
    cases fuel' with
    | zero => rfl
    | succ f => unfold divLoop; rw [if_pos (by simpa using hd)]
  | succ fuel ih =>
    intro fuel' Z q q' r hZ hZ' hn hn' hd hq hq' h0 hb
    by_cases hlt : deg r < deg dv
    · refine .inr ⟨q, q', r, ?_, ?_, h0, fun _ _ => rfl, fun _ _ => rfl⟩
      · unfold divLoop; rw [if_pos hlt]
      · cases fuel' with
        | zero => rfl
        | succ f => unfold divLoop; rw [if_pos hlt]
    have hge0 := deg_ge dv
    obtain ⟨f, rfl⟩ : ∃ f, fuel' = f + 1 := ⟨fuel' - 1, by omega⟩
    unfold divLoop
    rw [if_neg hlt, if_neg hlt]
    by_cases hex : (lead r).toNat % (lead dv).toNat = 0
    · have hkZ : (deg r - deg dv).toNat < Z := by omega
      obtain ⟨_, hdeg, _⟩ := divStep h1 h2 hdv hb hlt hex rfl rfl
      simp only [ne_eq, hex, not_true_eq_false, if_false]
      generalize hk : (deg r - deg dv).toNat = k at *
      generalize fop .div m (lead r) (lead dv) = t at *
      have hset := coeffE_set hq (show k ≤ n by omega) t
      have hset' := coeffE_set hq' (show k ≤ n' by omega) t
      rcases ih f k (q.set (n - k) t) (q'.set (n' - k) t) (shortened (psub m r (pscale m (shiftUp dv k) t)))
        (by omega) (by omega) (by omega) (by omega) (by rw [deg_shortened]; exact hdeg) (by simpa using hq)
        (by simpa using hq') (fun j hj => by rw [hset, hset', if_neg (by omega), if_neg (by omega), h0 j (by omega)])
        (entriesBelow_combine .sub h1 h2 _ _).shortened with h | ⟨u, u', v, e, e', hbelow, hu, hu'⟩
      · exact .inl h
      · refine .inr ⟨u, u', v, e, e', fun j hj => ?_, fun j hj => ?_, fun j hj => ?_⟩
        · by_cases hjk : j < k
          · exact hbelow j hjk
          · rw [hu j (by omega), hu' j (by omega), hset, hset', h0 j hj]
        · rw [hu j (by omega), hset, if_neg (by omega)]
        · rw [hu' j (by omega), hset', if_neg (by omega)]
    · left
      simp only [ne_eq, hex, not_false_eq_true, if_true, and_self]

/-- The only fault of the loop, in any state whatever (R182). -/
theorem divLoop_error {m : Nat} {dv : Poly} {n fuel : Nat} {q r : Poly} {f : FaultCode}
    (h : divLoop m dv n fuel q r = .error f) : f = .inexactLeadingQuotient := by
  induction fuel generalizing q r with
  | zero => simp [divLoop] at h
  | succ fuel ih =>
    unfold divLoop at h
    split at h
    · cases h
    · simp only at h
      split at h
      · cases h; rfl
      · exact ih h

/-- What a finished division of lists with entries in the field leaves (R180, R181, R183). -/
structure Divided (m : Nat) (a d q r : Poly) : Prop where
  identity : ringPoly m q * ringPoly m d + ringPoly m r = ringPoly m a
  degree : deg r < deg d
  early : deg a < deg d → q = [] ∧ r = a
  late : deg d ≤ deg a → shortened r = r ∧ shortened q = q ∧ (q.length : Int) = deg a - deg d + 1
  belowQ : EntriesBelow m q
  belowR : EntriesBelow m r

/-- All `pdivmod` can do (R180, R182, R188). -/
theorem pdivmod_cases {m : Nat} (h1 : 1 ≤ m) (h2 : m ≤ 256) {a : Poly} (ha : EntriesBelow m a) (d : Poly) :
    (deg d = -1 ∧ pdivmod m a d = .error .divideByZeroPolynomial) ∨
    (deg d ≠ -1 ∧ deg d ≤ deg a ∧ lead d ≠ 1 ∧ pdivmod m a d = .error .inexactLeadingQuotient) ∨
    (deg d ≠ -1 ∧ ∃ q r, pdivmod m a d = .ok (q, r) ∧ Divided m a d q r) := by
  unfold pdivmod
  by_cases hd : deg d = -1
  · exact .inl ⟨hd, if_pos ((isZeroPoly_iff_deg d).2 hd)⟩
  right
  rw [if_neg (by rwa [isZeroPoly_iff_deg])]
  by_cases hlt : deg a < deg d
  · rw [if_pos hlt]
    exact .inr ⟨hd, [], a, rfl, by simp, hlt, fun _ => ⟨rfl, rfl⟩, fun h => absurd hlt (by omega),
      fun v hv => absurd hv List.not_mem_nil, ha⟩
  rw [if_neg hlt]
  have hge0 := deg_ge d
  have hdv : deg (shortened d) ≠ -1 := by rwa [deg_shortened]
  generalize hn : (deg a - deg d).toNat = n
  have hloop := divLoop_cases h1 h2 hdv (n := n) (n + 1) (n + 1) (zeros (n + 1)) (shortened a) le_rfl le_rfl
    (by rw [deg_shortened, deg_shortened]; push_cast; omega) (zeros_length _) (fun j _ => zeros_coeffE _ _)
    (shortened_shortened a) ha.shortened
  rcases hloop with ⟨hl, he⟩ | ⟨q, r, he, hD⟩
  · refine .inl ⟨hd, by omega, by simpa using hl, ?_⟩
    simp only [he]; rfl
  · refine .inr ⟨hd, mkpoly q, r, by simp only [he]; rfl, ?_, ?_, fun h => absurd h hlt, fun _ => ⟨hD.short, ?_, ?_⟩,
      fun v hv => hD.belowQ ?_ v (mem_of_mem_mkpoly hv), hD.belowR⟩
    · have := hD.identity
      rw [ringPoly_congr m (a := zeros (n + 1)) (b := []) fun k => by rw [zeros_coeffE, coeffE_nil]] at this
      simpa using this
    · simpa using hD.degree
    all_goals
      have htop : coeffE q n ≠ 0 := by
        have := hD.top (by omega) (by rw [deg_shortened, deg_shortened]; simp only [Nat.add_sub_cancel]; omega)
        simpa using this
      have hz : isZeroPoly q = false := by
        rw [Bool.eq_false_iff, ne_eq, isZeroPoly_iff_coeffE]; exact fun h => htop (h n)
    · rw [mkpoly_of_ne hz]
      have hdq := deg_eq_of_coeffE htop fun k hk => coeffE_of_length_le (by rw [hD.length]; omega)
      have hsl := shortened_length q
      have hspec := (shortened_spec q).1
      rw [show q.length - (shortened q).length = 0 by rw [hD.length]; omega] at hspec
      simpa [zeros] using hspec.symm
    · rw [mkpoly_of_ne hz, hD.length]; push_cast; omega
    · intro v hv; rw [(List.mem_replicate.1 hv).2]; exact h1

end Sys2Proof.Machine
end

