-- ==== Sys2Proof/Laws/Exec.lean ====
section
/-! SUPPORT. All a command can do, said once for the whole command set: what `exec` answers, and the one change of state
a completed command makes. -/

namespace Sys2Proof.Machine

/-- Every register file is as its own rules want it: what a command may rely on (R22, R24, R27). -/
structure State.FieldLegal (s : State) : Prop where
  modulus : s.ModulusLegal
  elems : s.ElemsReduced
  polys : s.PolysLegal

/-- The one change of state a completed command makes, whatever the command. -/
inductive Effect (i : Instr) (s : State) : State → Prop where
  | none : Effect i s s
  | elem (r : EReg) (z : Int) (h : r ∈ i.elemDest) : Effect i s (s.setElem r (reduce s.m z))
  | poly (r : PReg) (c : Poly) (h : r ∈ i.polyDest) (legal : s.FieldLegal → PolyLegal s.m c) :
      Effect i s (s.setPoly r c)
  | polys (q r : PReg) (cq cr : Poly) (hq : q ∈ i.polyDest) (hr : r ∈ i.polyDest)
      (legal : s.FieldLegal → PolyLegal s.m cq ∧ PolyLegal s.m cr) : Effect i s ((s.setPoly q cq).setPoly r cr)
  | reg (c : CCtx) (r : Word) (h : c ∈ i.ctxDest)
      (legal : CrcLegal (s.gen c) (s.reg c) → CrcLegal (s.gen c) r) : Effect i s (s.setReg c r)
  | gen (c : CCtx) (g : Word) (h : c ∈ i.ctxDest) : Effect i s (s.loadGen c g)
  | flag (b : Bool) (h : i.writesT = true) : Effect i s (s.setT b)
  | bytes (bs : List Byte) (h : bs.length = (i.stores s).2)
      (fits : bs = [] ∨ (i.stores s).1 + bs.length ≤ Config.dsize) : Effect i s (s.writeBytes (i.stores s).1 bs)
  | modulus (n : Nat) (h : i.isSetmod = true) (h2 : 2 ≤ n) (h256 : n ≤ 256) : Effect i s (s.setModulus n)

/-- All `exec` can do (R222, R246, R248). -/
inductive ExecOutcome (i : Instr) (s : State) : Prop where
  /-- ERRCLR is executed in either error state. -/
  | errclr (hi : i = .errclr) (h : exec i s = .next (s.clearFault.respond 0))
  /-- So is RDCSR of a control register. -/
  | csr (n : BitVec 16) (v : Word) (hi : i = .rdcsr n) (hv : s.csr (unsignedImm n) = some v)
      (h : exec i s = .next (s.respond v))
  | dropped (he : s.err = true) (h : exec i s = .next s.drop)
  | faulted (he : s.err = false) (f : FaultCode) (hf : f ≠ .crossFieldOperand)
      (h : exec i s = .next (s.takeFault f))
  | completed (he : s.err = false) (t : State) (v : Word) (ht : Effect i s t) (hv : v = 0 ∨ i.isRead = true)
      (h : exec i s = .next (t.respond v))

section Shapes
variable {i : Instr} {s : State}

/-- A command without data. -/
theorem outcome_command {b : Except FaultCode State} (h : exec i s = s.command b)
    (hf : b ≠ .error .crossFieldOperand) (ht : ∀ t, b = .ok t → Effect i s t) : ExecOutcome i s := by
  rcases s.command_cases b with ⟨he, hc⟩ | ⟨he, t, hb, hc⟩ | ⟨he, f, hb, hc⟩
  · exact .dropped he (h.trans hc)
  · exact .completed he t 0 (ht t hb) (.inl rfl) (h.trans hc)
  · exact .faulted he f (fun e => hf (e ▸ hb)) (h.trans hc)

/-- A command that always completes. -/
theorem outcome_ok {t : State} (h : exec i s = s.command (.ok t)) (ht : Effect i s t) : ExecOutcome i s :=
  outcome_command h (by simp) fun t' e => by cases e; exact ht

/-- A read command. -/
theorem outcome_query {v : Word} (h : exec i s = s.query v) (hr : i.isRead = true) : ExecOutcome i s := by
  rcases s.query_cases v with ⟨he, hq⟩ | ⟨he, hq⟩
  · exact .dropped he (h.trans hq)
  · exact .completed he s v .none (.inr hr) (h.trans hq)

/-- A binary operator (R108 to R118). -/
theorem outcome_binary {o : FieldOp} {ed ea eb : EReg} (h : exec i s = execBinary o ed ea eb s)
    (hd : ed ∈ i.elemDest) : ExecOutcome i s := by
  refine outcome_command h ?_ fun t ht => ?_
  · rcases fopChecked_cases o s.m (s.elem ea) (s.elem eb) with ⟨hb, _⟩ | ⟨hb, _⟩ <;> rw [hb] <;> simp [Except.map]
  · rcases fopChecked_cases o s.m (s.elem ea) (s.elem eb) with ⟨hb, _⟩ | ⟨hb, _⟩ <;> rw [hb] at ht <;> cases ht
    exact .elem ed _ hd

/-- A unary operator (R119 to R126). -/
theorem outcome_unary {o : FieldOp} {ed ea : EReg} (h : exec i s = execUnary o ed ea s)
    (hd : ed ∈ i.elemDest) : ExecOutcome i s := outcome_ok h (.elem ed _ hd)

/-- A command that computes one list for one register, or raises a fault. -/
theorem outcome_poly {pd : PReg} {b : Except FaultCode Poly} (h : exec i s = s.command (b.map (s.setPoly pd)))
    (hd : pd ∈ i.polyDest) (hf : b ≠ .error .crossFieldOperand)
    (hl : ∀ c, b = .ok c → s.FieldLegal → PolyLegal s.m c) : ExecOutcome i s := by
  refine outcome_command h ?_ fun t ht => ?_
  · rcases b with f | c <;> simp [Except.map] at hf ⊢; exact hf
  · rcases b with f | c
    · cases ht
    · cases ht; exact .poly pd c hd (hl c rfl)

/-- A store. -/
theorem outcome_store {bs : List Byte} {a : Nat} (h : exec i s = s.command (s.memWrite a bs))
    (ha : (i.stores s).1 = a) (hl : bs.length = (i.stores s).2) : ExecOutcome i s := by
  subst ha
  refine outcome_command h ?_ fun t ht => ?_
  · rcases s.memWrite_cases (i.stores s).1 bs with ⟨hb, _⟩ | ⟨hb, _⟩ <;> rw [hb] <;> simp
  · rcases s.memWrite_cases (i.stores s).1 bs with ⟨hb, _⟩ | ⟨hb, hfit⟩ <;> rw [hb] at ht <;> cases ht
    exact .bytes bs hl hfit

end Shapes

/-- The results of the division are legal when the operands are. -/
theorem pdivmod_legal {m : Nat} {a d q r : Poly} (h1 : 2 ≤ m) (h2 : m ≤ 256) (ha : PolyLegal m a)
    (h : pdivmod m a d = .ok (q, r)) : PolyLegal m q ∧ PolyLegal m r := by
  rcases pdivmod_cases (show 1 ≤ m by omega) h2 ha.2 d with ⟨_, he⟩ | ⟨_, _, _, he⟩ | ⟨hd, q', r', he, hD⟩
  · rw [he] at h; cases h
  · rw [he] at h; cases h
  · rw [he] at h; cases h
    have hla := deg_lt_length a
    have hge := deg_ge d
    have hlen := ha.1
    by_cases hlt : deg a < deg d
    · obtain ⟨rfl, rfl⟩ := hD.early hlt; exact ⟨polyLegal_nil m, ha⟩
    · obtain ⟨hs, _, hq⟩ := hD.late (by omega)
      have hr := shortened_length r
      have hdeg := hD.degree
      rw [hs] at hr
      exact ⟨⟨by omega, hD.belowQ⟩, ⟨by omega, hD.belowR⟩⟩

/-- The faults of the division, in any state whatever. -/
theorem pdivmod_error {m : Nat} {a d : Poly} {f : FaultCode} (h : pdivmod m a d = .error f) :
    f = .divideByZeroPolynomial ∨ f = .inexactLeadingQuotient := by
  unfold pdivmod at h
  split at h
  · cases h; exact .inl rfl
  split at h
  · cases h
  · simp only at h
    rcases hl : divLoop m (shortened d) (deg a - deg d).toNat ((deg a - deg d).toNat + 1)
      (zeros ((deg a - deg d).toNat + 1)) (shortened a) with g | p
    · rw [hl] at h; cases h; exact .inr (divLoop_error hl)
    · rw [hl] at h; cases h

/-- The one fault of a product, in any state whatever. -/
theorem pmul_error {m : Nat} {a b : Poly} {f : FaultCode} (h : pmul m a b = .error f) : f = .lengthOverflow := by
  have hloop : ∀ (vs : List Elem) (n : Nat) (acc : Poly), pmulLoop m b vs n acc = .error f → f = .lengthOverflow := by
    intro vs
    induction vs with
    | nil => intro n acc h; cases h
    | cons v vs ih =>
      intro n acc h
      unfold pmulLoop at h
      split at h
      · exact ih _ _ h
      · rcases pshl_cases b n with ⟨hs, _⟩ | ⟨hs, _⟩ <;> rw [hs] at h
        · cases h; rfl
        · exact ih _ _ h
  unfold pmul at h
  split at h
  · cases h
  · exact hloop _ _ _ h

/-- The one fault of a power, in any state whatever. -/
theorem ppow_error {m : Nat} {a : Poly} {n : Nat} {f : FaultCode} (h : ppow m a n = .error f) :
    f = .lengthOverflow := by
  rcases n with _ | n
  · cases h
  induction n with
  | zero => cases h
  | succ n ih =>
    rw [ppow_succ m a (by omega)] at h
    rcases hp : ppow m a (n + 1) with g | c
    · rw [hp] at h; cases h; exact ih hp
    · rw [hp] at h; exact pmul_error h

/-- The bytes fed one after another keep a context legal (R208 (a)). -/
theorem crcBytes_legal {gen : Word} (bytes : List Byte) {reg : Word} (h : CrcLegal gen reg) (hg : gen ≠ 0) :
    CrcLegal gen (bytes.foldl (crcByte gen) reg) := by
  induction bytes generalizing reg with
  | nil => exact h
  | cons b bytes ih =>
    refine ih (.inr ⟨hg, (crcByte_spec hg ?_ b).1⟩)
    rcases h with ⟨h0, _⟩ | ⟨_, h⟩
    · exact absurd h0 hg
    · exact h

/-- Every command, in every state, has one of the outcomes. -/
theorem exec_outcome (i : Instr) (s : State) : ExecOutcome i s := by
  cases i with
  | fli ed simm => exact outcome_ok rfl (.elem ed _ (by simp [Instr.elemDest]))
  | fld ed addr =>
    have h : exec (.fld ed addr) s = s.command (.ok (s.setElem ed (elemOfByte s.m (s.readByte (address addr))))) := by
      simp only [exec, execFld, s.memRead_one]; rfl
    exact outcome_ok h (.elem ed _ (by simp [Instr.elemDest]))
  | fst es addr => exact outcome_store rfl rfl rfl
  | frd ea => exact outcome_query rfl rfl
  | feq ea eb => exact outcome_ok rfl (.flag _ rfl)
  | fadd ed ea eb => exact outcome_binary (o := .add) (ea := ea) (eb := eb) rfl (by simp [Instr.elemDest])
  | fsub ed ea eb => exact outcome_binary (o := .sub) (ea := ea) (eb := eb) rfl (by simp [Instr.elemDest])
  | fmul ed ea eb => exact outcome_binary (o := .mul) (ea := ea) (eb := eb) rfl (by simp [Instr.elemDest])
  | fdiv ed ea eb => exact outcome_binary (o := .div) (ea := ea) (eb := eb) rfl (by simp [Instr.elemDest])
  | fmod ed ea eb => exact outcome_binary (o := .rem) (ea := ea) (eb := eb) rfl (by simp [Instr.elemDest])
  | fpow ed ea eb => exact outcome_binary (o := .pow) (ea := ea) (eb := eb) rfl (by simp [Instr.elemDest])
  | fshl ed ea eb => exact outcome_binary (o := .shl) (ea := ea) (eb := eb) rfl (by simp [Instr.elemDest])
  | fshr ed ea eb => exact outcome_binary (o := .shr) (ea := ea) (eb := eb) rfl (by simp [Instr.elemDest])
  | fand ed ea eb => exact outcome_binary (o := .and) (ea := ea) (eb := eb) rfl (by simp [Instr.elemDest])
  | for_ ed ea eb => exact outcome_binary (o := .or) (ea := ea) (eb := eb) rfl (by simp [Instr.elemDest])
  | fxor ed ea eb => exact outcome_binary (o := .xor) (ea := ea) (eb := eb) rfl (by simp [Instr.elemDest])
  | fneg ed ea => exact outcome_unary rfl (by simp [Instr.elemDest])
  | fpos ed ea => exact outcome_unary rfl (by simp [Instr.elemDest])
  | fabs ed ea => exact outcome_unary rfl (by simp [Instr.elemDest])
  | finv ed ea => exact outcome_unary rfl (by simp [Instr.elemDest])
  | fround ed ea => exact outcome_unary rfl (by simp [Instr.elemDest])
  | ftrunc ed ea => exact outcome_unary rfl (by simp [Instr.elemDest])
  | ffloor ed ea => exact outcome_unary rfl (by simp [Instr.elemDest])
  | fceil ed ea => exact outcome_unary rfl (by simp [Instr.elemDest])
  | pld pd cnt addr =>
    refine outcome_command rfl ?_ fun t ht => ?_
    · split
      · simp
      · rcases s.memRead_cases (address addr) (unsignedImm cnt) with ⟨h, _⟩ | ⟨h, _⟩ <;> rw [h] <;> simp [Except.map]
    · split at ht
      · cases ht
      · rename_i hn
        rcases s.memRead_cases (address addr) (unsignedImm cnt) with ⟨h, _⟩ | ⟨h, _⟩ <;> rw [h] at ht <;> cases ht
        refine .poly pd _ (by simp [Instr.polyDest]) fun hl => ⟨?_, fun v hv => ?_⟩
        · refine (mkpoly_length_le _).trans ?_
          rw [List.length_map, State.readBytes_length]; omega
        · obtain ⟨b, _, rfl⟩ := List.mem_map.1 (mem_of_mem_mkpoly hv)
          exact reduce_lt (by have := hl.modulus; omega) hl.modulus.2 _
  | pst ps addr => exact outcome_store rfl rfl rfl
  | plen pa => exact outcome_query rfl rfl
  | pdeg pa => exact outcome_query rfl rfl
  | pgrade pd pa n =>
    refine outcome_poly rfl (by simp [Instr.polyDest]) ?_ fun c hc hl => ?_ <;>
      rcases tograde_cases (s.poly pa) (unsignedImm n) with ⟨h, _⟩ | ⟨h, hn⟩
    · rw [h]; simp
    · rw [h]; simp
    · rw [h] at hc; cases hc
    · rw [h] at hc; cases hc; exact (hl.polys pa).regrade (by have := hl.modulus; omega) hn
  | pshort pd pa => exact outcome_ok rfl (.poly pd _ (by simp [Instr.polyDest]) fun hl => (hl.polys pa).shortened)
  | pshl pd pa n =>
    refine outcome_poly rfl (by simp [Instr.polyDest]) ?_ fun c hc hl => ?_ <;>
      rcases pshl_cases (s.poly pa) (unsignedImm n) with ⟨h, _⟩ | ⟨h, hn⟩
    · rw [h]; simp
    · rw [h]; simp
    · rw [h] at hc; cases hc
    · rw [h] at hc; cases hc; exact (hl.polys pa).shiftUp (by have := hl.modulus; omega) hn
  | padd pd pa pb =>
    exact outcome_ok rfl (.poly pd _ (by simp [Instr.polyDest]) fun hl =>
      polyLegal_combine _ (by have := hl.modulus; omega) hl.modulus.2 (max_le (hl.polys pa).1 (hl.polys pb).1))
  | psub pd pa pb =>
    exact outcome_ok rfl (.poly pd _ (by simp [Instr.polyDest]) fun hl =>
      polyLegal_combine _ (by have := hl.modulus; omega) hl.modulus.2 (max_le (hl.polys pa).1 (hl.polys pb).1))
  | pmul pd pa pb =>
    refine outcome_poly rfl (by simp [Instr.polyDest]) (fun h => by cases pmul_error h) fun c hc hl => ?_
    rcases pmul_cases (by have := hl.modulus; omega) hl.modulus.2 (s.poly pa) (s.poly pb) with ⟨_, h⟩ | ⟨_, d, h, hd, _⟩
    · rw [h] at hc; cases hc
    · rw [h] at hc; cases hc; exact hd
  | pscale pd pa eb =>
    exact outcome_ok rfl (.poly pd _ (by simp [Instr.polyDest]) fun hl =>
      polyLegal_pscale (by have := hl.modulus; omega) hl.modulus.2 _ (hl.polys pa).1)
  | pdivmod pq pr pa pb =>
    refine outcome_command rfl ?_ fun t ht => ?_
    · split
      · simp
      · rcases h : pdivmod s.m (s.poly pa) (s.poly pb) with f | p
        · rcases pdivmod_error h with rfl | rfl <;> simp [Except.map]
        · simp [Except.map]
    · split at ht
      · cases ht
      · rcases h : pdivmod s.m (s.poly pa) (s.poly pb) with f | ⟨q, r⟩ <;> rw [h] at ht <;> cases ht
        exact .polys pq pr q r (by simp [Instr.polyDest]) (by simp [Instr.polyDest]) fun hl =>
          pdivmod_legal hl.modulus.1 hl.modulus.2 (hl.polys pa) h
  | pdiv pd pa pb =>
    refine outcome_command rfl ?_ fun t ht => ?_ <;>
      rcases h : pdivmod s.m (s.poly pa) (s.poly pb) with f | ⟨q, r⟩
    · rcases pdivmod_error h with rfl | rfl <;> simp [Except.map]
    · simp [Except.map]
    · rw [h] at ht; cases ht
    · rw [h] at ht; cases ht
      exact .poly pd q (by simp [Instr.polyDest]) fun hl =>
        (pdivmod_legal hl.modulus.1 hl.modulus.2 (hl.polys pa) h).1
  | pmod pd pa pb =>
    refine outcome_command rfl ?_ fun t ht => ?_ <;>
      rcases h : pdivmod s.m (s.poly pa) (s.poly pb) with f | ⟨q, r⟩
    · rcases pdivmod_error h with rfl | rfl <;> simp [Except.map]
    · simp [Except.map]
    · rw [h] at ht; cases ht
    · rw [h] at ht; cases ht
      exact .poly pd r (by simp [Instr.polyDest]) fun hl =>
        (pdivmod_legal hl.modulus.1 hl.modulus.2 (hl.polys pa) h).2
  | ppow pd pa n =>
    refine outcome_poly rfl (by simp [Instr.polyDest]) (fun h => by cases ppow_error h) fun c hc hl => ?_
    rcases ppow_cases hl.modulus.1 hl.modulus.2 (hl.polys pa) (unsignedImm n) with h | ⟨d, h, hd, _⟩
    · rw [h] at hc; cases hc
    · rw [h] at hc; cases hc; exact hd
  | peval ed pa eb =>
    have h : exec (.peval ed pa eb) s =
        s.command (.ok (s.setElem ed (peval s.m (s.poly pa) (s.elem eb)))) := rfl
    rcases List.eq_nil_or_concat (s.poly pa) with hp | ⟨a, v, hp⟩
    · rw [hp, show peval s.m [] (s.elem eb) = reduce s.m 0 by simp [peval, reduce]] at h
      exact outcome_ok h (.elem ed _ (by simp [Instr.elemDest]))
    · rw [hp, List.concat_eq_append, peval_concat] at h
      exact outcome_ok h (.elem ed _ (by simp [Instr.elemDest]))
  | peq pa pb => exact outcome_ok rfl (.flag _ rfl)
  | pgt pa pb => exact outcome_ok rfl (.flag _ rfl)
  | pnz pa => exact outcome_ok rfl (.flag _ rfl)
  | cgenl c imm => exact outcome_ok rfl (.gen c _ (by simp [Instr.ctxDest]))
  | cgenh c imm => exact outcome_ok rfl (.gen c _ (by simp [Instr.ctxDest]))
  | cinit c =>
    refine outcome_ok rfl (.reg c 0 (by simp [Instr.ctxDest]) fun _ => ?_)
    by_cases hg : s.gen c = 0
    · exact .inl ⟨hg, rfl⟩
    · exact .inr ⟨hg, Nat.two_pow_pos _⟩
  | cbyte c imm =>
    have h : exec (.cbyte c imm) s = s.command ((cbyte (s.reg c) (s.gen c) imm).map (s.setReg c)) := rfl
    by_cases hg : s.gen c = 0
    · rw [cbyte, if_pos hg] at h
      exact outcome_command h (by simp [Except.map]) fun t ht => by cases ht
    · rw [cbyte, if_neg hg] at h
      exact outcome_ok h (.reg c _ (by simp [Instr.ctxDest]) fun hl => crcBytes_legal [imm] hl hg)
  | cbuf c cnt addr =>
    rcases s.memRead_cases (address addr) (unsignedImm cnt) with ⟨hm, _⟩ | ⟨hm, _⟩
    · have h : exec (.cbuf c cnt addr) s = s.command (.error .addressRange) := by simp only [exec, execCbuf, hm]
      exact outcome_command h (by simp) fun t ht => by cases ht
    · have h : exec (.cbuf c cnt addr) s = s.command
          ((cbufBody (s.reg c) (s.gen c) (s.readBytes (address addr) (unsignedImm cnt))).map (s.setReg c)) := by
        simp only [exec, execCbuf, hm]
      by_cases hg : s.gen c = 0
      · rw [cbufBody, if_pos hg] at h
        exact outcome_command h (by simp [Except.map]) fun t ht => by cases ht
      · rw [cbufBody, if_neg hg] at h
        exact outcome_ok h (.reg c _ (by simp [Instr.ctxDest]) fun hl => crcBytes_legal _ hl hg)
  | crd c => exact outcome_query rfl rfl
  | nop => exact outcome_ok rfl .none
  | setmod n =>
    refine outcome_command rfl ?_ fun t ht => ?_ <;> by_cases h : legalModulus (unsignedImm n) = true
    · simp [h]
    · simp [h]
    · rw [if_pos h] at ht; cases ht
      simp only [legalModulus, Bool.and_eq_true, decide_eq_true_eq] at h
      exact .modulus _ rfl h.1 h.2
    · rw [if_neg h] at ht; cases ht
  | rdcsr n =>
    rcases h : s.csr (unsignedImm n) with _ | v
    · exact outcome_command (b := .error .illegalCommand) (by simp only [exec, execRdcsr, h]) (by simp)
        fun t ht => by cases ht
    · exact .csr n v rfl h (by simp only [exec, execRdcsr, h])
  | errclr => exact .errclr rfl rfl
  | stb addr imm => exact outcome_store rfl rfl rfl
  | ldb addr =>
    have h : exec (.ldb addr) s = s.query (zext (s.readByte (address addr))) := by
      simp only [exec, execLdb, s.memRead_one]; rfl
    exact outcome_query h rfl

end Sys2Proof.Machine
end

