-- ==== Sys2Proof/Laws/PerInstr.lean ====
section
/-! SUPPORT. Families of statements made for each command as syntax. EncodesItsRow: the word the encoder writes for a
well-formed command passes the mask and match test of its row of the opcode map (30_encoding.md R73, R78), named here
with the table's own numbers. -/

namespace Sys2Proof.Laws.EncodesItsRow

/-- The word of a well-formed command passes the test of a row that has the command's opcode. -/
def Statement (i : Instr) : Prop :=
  i.wellFormed = true → ∃ r ∈ opcodeRows, r.accepts (encode i) = true ∧ opcode r.pattern = opcode (encode i)

theorem and_all8 (x : BitVec 8) : x &&& 255#8 = x := by
  rw [show (255#8) = BitVec.allOnes 8 from rfl, BitVec.and_allOnes]

/-- A command of format R fits its row when each field does. -/
theorem of_fmtR {i : Instr} {op : BitVec 8} {rd ra rb rc : BitVec 4} (e : encode i = fmtR op rd ra rb rc)
    (r : OpcodeRow) (hr : r ∈ opcodeRows) (ho : opcode r.mask = 255#8 ∧ opcode r.pattern = op)
    (h : rd &&& fieldRd r.mask = fieldRd r.pattern ∧ ra &&& fieldRa r.mask = fieldRa r.pattern ∧
      rb &&& fieldRb r.mask = fieldRb r.pattern ∧ rc &&& fieldRc r.mask = fieldRc r.pattern ∧
      fieldZero r.pattern = 0) : Statement i := fun _ =>
  ⟨r, hr, (r.accepts_iff_R _).2 (by
    simp only [e, opcode_fmtR, fieldRd_fmtR, fieldRa_fmtR, fieldRb_fmtR, fieldRc_fmtR, fieldZero_fmtR, h, ho]
    simp [and_all8]),
    by rw [e, opcode_fmtR, ho.2]⟩

/-- A command of format I fits its row when each field does. -/
theorem of_fmtI {i : Instr} {op : BitVec 8} {rd ra : BitVec 4} {imm : BitVec 16} (e : encode i = fmtI op rd ra imm)
    (r : OpcodeRow) (hr : r ∈ opcodeRows) (ho : opcode r.mask = 255#8 ∧ opcode r.pattern = op)
    (h : rd &&& fieldRd r.mask = fieldRd r.pattern ∧ ra &&& fieldRa r.mask = fieldRa r.pattern ∧
      fieldImm r.mask = 0 ∧ fieldImm r.pattern = 0) : Statement i := fun _ =>
  ⟨r, hr, (r.accepts_iff_I _).2 (by
    simp only [e, opcode_fmtI, fieldRd_fmtI, fieldRa_fmtI, fieldImm_fmtI, h, ho]
    simp [and_all8]),
    by rw [e, opcode_fmtI, ho.2]⟩

/-- A command of format M fits its row when each field does. -/
theorem of_fmtM {i : Instr} {op b8 : BitVec 8} {rd : BitVec 4} {addr : BitVec 12} (e : encode i = fmtM op rd b8 addr)
    (r : OpcodeRow) (hr : r ∈ opcodeRows) (ho : opcode r.mask = 255#8 ∧ opcode r.pattern = op)
    (h : rd &&& fieldRd r.mask = fieldRd r.pattern ∧ b8 &&& fieldB8 r.mask = fieldB8 r.pattern ∧
      addr &&& fieldAddr r.mask = fieldAddr r.pattern) : Statement i := fun _ =>
  ⟨r, hr, (r.accepts_iff_M _).2 (by
    simp only [e, opcode_fmtM, fieldRd_fmtM, fieldB8_fmtM, fieldAddr_fmtM, h, ho]
    simp [and_all8]),
    by rw [e, opcode_fmtM, ho.2]⟩

theorem fli (ed : EReg) (simm : BitVec 16) : Statement (.fli ed simm) :=
  of_fmtI rfl ⟨"FLI", 0xFF0F0000, 0x10000000⟩ (by decide) (by decide) (by simp [fieldRd, fieldRa, fieldImm])

theorem fld (ed : EReg) (addr : BitVec 12) : Statement (.fld ed addr) :=
  of_fmtM rfl ⟨"FLD", 0xFF0FF000, 0x11000000⟩ (by decide) (by decide) (by simp [fieldRd, fieldB8, fieldAddr])

theorem fst (es : EReg) (addr : BitVec 12) : Statement (.fst es addr) :=
  of_fmtM rfl ⟨"FST", 0xFF0FF000, 0x12000000⟩ (by decide) (by decide) (by simp [fieldRd, fieldB8, fieldAddr])

theorem frd (ea : EReg) : Statement (.frd ea) :=
  of_fmtR rfl ⟨"FRD", 0xFFF0FFFF, 0x13000000⟩ (by decide) (by decide)
    (by simp [fieldRd, fieldRa, fieldRb, fieldRc, fieldZero])

theorem feq (ea eb : EReg) : Statement (.feq ea eb) :=
  of_fmtR rfl ⟨"FEQ", 0xFFF00FFF, 0x14000000⟩ (by decide) (by decide)
    (by simp [fieldRd, fieldRa, fieldRb, fieldRc, fieldZero])

theorem fadd (ed ea eb : EReg) : Statement (.fadd ed ea eb) :=
  of_fmtR rfl ⟨"FADD", 0xFF000FFF, 0x18000000⟩ (by decide) (by decide)
    (by simp [fieldRd, fieldRa, fieldRb, fieldRc, fieldZero])

theorem fsub (ed ea eb : EReg) : Statement (.fsub ed ea eb) :=
  of_fmtR rfl ⟨"FSUB", 0xFF000FFF, 0x19000000⟩ (by decide) (by decide)
    (by simp [fieldRd, fieldRa, fieldRb, fieldRc, fieldZero])

theorem fmul (ed ea eb : EReg) : Statement (.fmul ed ea eb) :=
  of_fmtR rfl ⟨"FMUL", 0xFF000FFF, 0x1A000000⟩ (by decide) (by decide)
    (by simp [fieldRd, fieldRa, fieldRb, fieldRc, fieldZero])

theorem fdiv (ed ea eb : EReg) : Statement (.fdiv ed ea eb) :=
  of_fmtR rfl ⟨"FDIV", 0xFF000FFF, 0x1B000000⟩ (by decide) (by decide)
    (by simp [fieldRd, fieldRa, fieldRb, fieldRc, fieldZero])

theorem fmod (ed ea eb : EReg) : Statement (.fmod ed ea eb) :=
  of_fmtR rfl ⟨"FMOD", 0xFF000FFF, 0x1C000000⟩ (by decide) (by decide)
    (by simp [fieldRd, fieldRa, fieldRb, fieldRc, fieldZero])

theorem fpow (ed ea eb : EReg) : Statement (.fpow ed ea eb) :=
  of_fmtR rfl ⟨"FPOW", 0xFF000FFF, 0x1D000000⟩ (by decide) (by decide)
    (by simp [fieldRd, fieldRa, fieldRb, fieldRc, fieldZero])

theorem fshl (ed ea eb : EReg) : Statement (.fshl ed ea eb) :=
  of_fmtR rfl ⟨"FSHL", 0xFF000FFF, 0x1E000000⟩ (by decide) (by decide)
    (by simp [fieldRd, fieldRa, fieldRb, fieldRc, fieldZero])

theorem fshr (ed ea eb : EReg) : Statement (.fshr ed ea eb) :=
  of_fmtR rfl ⟨"FSHR", 0xFF000FFF, 0x1F000000⟩ (by decide) (by decide)
    (by simp [fieldRd, fieldRa, fieldRb, fieldRc, fieldZero])

theorem fand (ed ea eb : EReg) : Statement (.fand ed ea eb) :=
  of_fmtR rfl ⟨"FAND", 0xFF000FFF, 0x20000000⟩ (by decide) (by decide)
    (by simp [fieldRd, fieldRa, fieldRb, fieldRc, fieldZero])

theorem for_ (ed ea eb : EReg) : Statement (.for_ ed ea eb) :=
  of_fmtR rfl ⟨"FOR", 0xFF000FFF, 0x21000000⟩ (by decide) (by decide)
    (by simp [fieldRd, fieldRa, fieldRb, fieldRc, fieldZero])

theorem fxor (ed ea eb : EReg) : Statement (.fxor ed ea eb) :=
  of_fmtR rfl ⟨"FXOR", 0xFF000FFF, 0x22000000⟩ (by decide) (by decide)
    (by simp [fieldRd, fieldRa, fieldRb, fieldRc, fieldZero])

theorem fneg (ed ea : EReg) : Statement (.fneg ed ea) :=
  of_fmtR rfl ⟨"FNEG", 0xFF00FFFF, 0x28000000⟩ (by decide) (by decide)
    (by simp [fieldRd, fieldRa, fieldRb, fieldRc, fieldZero])

theorem fpos (ed ea : EReg) : Statement (.fpos ed ea) :=
  of_fmtR rfl ⟨"FPOS", 0xFF00FFFF, 0x29000000⟩ (by decide) (by decide)
    (by simp [fieldRd, fieldRa, fieldRb, fieldRc, fieldZero])

theorem fabs (ed ea : EReg) : Statement (.fabs ed ea) :=
  of_fmtR rfl ⟨"FABS", 0xFF00FFFF, 0x2A000000⟩ (by decide) (by decide)
    (by simp [fieldRd, fieldRa, fieldRb, fieldRc, fieldZero])

theorem finv (ed ea : EReg) : Statement (.finv ed ea) :=
  of_fmtR rfl ⟨"FINV", 0xFF00FFFF, 0x2B000000⟩ (by decide) (by decide)
    (by simp [fieldRd, fieldRa, fieldRb, fieldRc, fieldZero])

theorem fround (ed ea : EReg) : Statement (.fround ed ea) :=
  of_fmtR rfl ⟨"FROUND", 0xFF00FFFF, 0x2C000000⟩ (by decide) (by decide)
    (by simp [fieldRd, fieldRa, fieldRb, fieldRc, fieldZero])

theorem ftrunc (ed ea : EReg) : Statement (.ftrunc ed ea) :=
  of_fmtR rfl ⟨"FTRUNC", 0xFF00FFFF, 0x2D000000⟩ (by decide) (by decide)
    (by simp [fieldRd, fieldRa, fieldRb, fieldRc, fieldZero])

theorem ffloor (ed ea : EReg) : Statement (.ffloor ed ea) :=
  of_fmtR rfl ⟨"FFLOOR", 0xFF00FFFF, 0x2E000000⟩ (by decide) (by decide)
    (by simp [fieldRd, fieldRa, fieldRb, fieldRc, fieldZero])

theorem fceil (ed ea : EReg) : Statement (.fceil ed ea) :=
  of_fmtR rfl ⟨"FCEIL", 0xFF00FFFF, 0x2F000000⟩ (by decide) (by decide)
    (by simp [fieldRd, fieldRa, fieldRb, fieldRc, fieldZero])

theorem pld (pd : PReg) (cnt : BitVec 8) (addr : BitVec 12) : Statement (.pld pd cnt addr) :=
  of_fmtM rfl ⟨"PLD", 0xFF800000, 0x40000000⟩ (by decide) (by decide) (by simp [fieldRd, fieldB8, fieldAddr])

theorem pst (ps : PReg) (addr : BitVec 12) : Statement (.pst ps addr) :=
  of_fmtM rfl ⟨"PST", 0xFF8FF000, 0x41000000⟩ (by decide) (by decide) (by simp [fieldRd, fieldB8, fieldAddr])

theorem plen (pa : PReg) : Statement (.plen pa) :=
  of_fmtR rfl ⟨"PLEN", 0xFFF8FFFF, 0x42000000⟩ (by decide) (by decide)
    (by simp [fieldRd, fieldRa, fieldRb, fieldRc, fieldZero])

theorem pdeg (pa : PReg) : Statement (.pdeg pa) :=
  of_fmtR rfl ⟨"PDEG", 0xFFF8FFFF, 0x43000000⟩ (by decide) (by decide)
    (by simp [fieldRd, fieldRa, fieldRb, fieldRc, fieldZero])

theorem pgrade (pd pa : PReg) (n : BitVec 16) : Statement (.pgrade pd pa n) :=
  of_fmtI rfl ⟨"PGRADE", 0xFF880000, 0x44000000⟩ (by decide) (by decide) (by simp [fieldRd, fieldRa, fieldImm])

theorem pshort (pd pa : PReg) : Statement (.pshort pd pa) :=
  of_fmtR rfl ⟨"PSHORT", 0xFF88FFFF, 0x45000000⟩ (by decide) (by decide)
    (by simp [fieldRd, fieldRa, fieldRb, fieldRc, fieldZero])

theorem pshl (pd pa : PReg) (n : BitVec 16) : Statement (.pshl pd pa n) :=
  of_fmtI rfl ⟨"PSHL", 0xFF880000, 0x46000000⟩ (by decide) (by decide) (by simp [fieldRd, fieldRa, fieldImm])

theorem padd (pd pa pb : PReg) : Statement (.padd pd pa pb) :=
  of_fmtR rfl ⟨"PADD", 0xFF888FFF, 0x48000000⟩ (by decide) (by decide)
    (by simp [fieldRd, fieldRa, fieldRb, fieldRc, fieldZero])

theorem psub (pd pa pb : PReg) : Statement (.psub pd pa pb) :=
  of_fmtR rfl ⟨"PSUB", 0xFF888FFF, 0x49000000⟩ (by decide) (by decide)
    (by simp [fieldRd, fieldRa, fieldRb, fieldRc, fieldZero])

theorem pmul (pd pa pb : PReg) : Statement (.pmul pd pa pb) :=
  of_fmtR rfl ⟨"PMUL", 0xFF888FFF, 0x4A000000⟩ (by decide) (by decide)
    (by simp [fieldRd, fieldRa, fieldRb, fieldRc, fieldZero])

theorem pscale (pd pa : PReg) (eb : EReg) : Statement (.pscale pd pa eb) :=
  of_fmtR rfl ⟨"PSCALE", 0xFF880FFF, 0x4B000000⟩ (by decide) (by decide)
    (by simp [fieldRd, fieldRa, fieldRb, fieldRc, fieldZero])

theorem pdivmod (pq pr pa pb : PReg) : Statement (.pdivmod pq pr pa pb) :=
  of_fmtR rfl ⟨"PDIVMOD", 0xFF8888FF, 0x4C000000⟩ (by decide) (by decide)
    (by simp [fieldRd, fieldRa, fieldRb, fieldRc, fieldZero])

theorem pdiv (pd pa pb : PReg) : Statement (.pdiv pd pa pb) :=
  of_fmtR rfl ⟨"PDIV", 0xFF888FFF, 0x4D000000⟩ (by decide) (by decide)
    (by simp [fieldRd, fieldRa, fieldRb, fieldRc, fieldZero])

theorem pmod (pd pa pb : PReg) : Statement (.pmod pd pa pb) :=
  of_fmtR rfl ⟨"PMOD", 0xFF888FFF, 0x4E000000⟩ (by decide) (by decide)
    (by simp [fieldRd, fieldRa, fieldRb, fieldRc, fieldZero])

theorem ppow (pd pa : PReg) (n : BitVec 16) : Statement (.ppow pd pa n) :=
  of_fmtI rfl ⟨"PPOW", 0xFF880000, 0x4F000000⟩ (by decide) (by decide) (by simp [fieldRd, fieldRa, fieldImm])

theorem peval (ed : EReg) (pa : PReg) (eb : EReg) : Statement (.peval ed pa eb) :=
  of_fmtR rfl ⟨"PEVAL", 0xFF080FFF, 0x50000000⟩ (by decide) (by decide)
    (by simp [fieldRd, fieldRa, fieldRb, fieldRc, fieldZero])

theorem peq (pa pb : PReg) : Statement (.peq pa pb) :=
  of_fmtR rfl ⟨"PEQ", 0xFFF88FFF, 0x51000000⟩ (by decide) (by decide)
    (by simp [fieldRd, fieldRa, fieldRb, fieldRc, fieldZero])

theorem pgt (pa pb : PReg) : Statement (.pgt pa pb) :=
  of_fmtR rfl ⟨"PGT", 0xFFF88FFF, 0x52000000⟩ (by decide) (by decide)
    (by simp [fieldRd, fieldRa, fieldRb, fieldRc, fieldZero])

theorem pnz (pa : PReg) : Statement (.pnz pa) :=
  of_fmtR rfl ⟨"PNZ", 0xFFF8FFFF, 0x53000000⟩ (by decide) (by decide)
    (by simp [fieldRd, fieldRa, fieldRb, fieldRc, fieldZero])

theorem cgenl (c : CCtx) (imm : BitVec 16) : Statement (.cgenl c imm) :=
  of_fmtI rfl ⟨"CGENL", 0xFFCF0000, 0x60000000⟩ (by decide) (by decide) (by simp [fieldRd, fieldRa, fieldImm])

theorem cgenh (c : CCtx) (imm : BitVec 16) : Statement (.cgenh c imm) :=
  of_fmtI rfl ⟨"CGENH", 0xFFCF0000, 0x61000000⟩ (by decide) (by decide) (by simp [fieldRd, fieldRa, fieldImm])

theorem cinit (c : CCtx) : Statement (.cinit c) :=
  of_fmtR rfl ⟨"CINIT", 0xFFCFFFFF, 0x62000000⟩ (by decide) (by decide)
    (by simp [fieldRd, fieldRa, fieldRb, fieldRc, fieldZero])

theorem cbyte (c : CCtx) (imm : BitVec 8) : Statement (.cbyte c imm) :=
  of_fmtM rfl ⟨"CBYTE", 0xFFC00FFF, 0x63000000⟩ (by decide) (by decide) (by simp [fieldRd, fieldB8, fieldAddr])

theorem cbuf (c : CCtx) (cnt : BitVec 8) (addr : BitVec 12) : Statement (.cbuf c cnt addr) :=
  of_fmtM rfl ⟨"CBUF", 0xFFC00000, 0x64000000⟩ (by decide) (by decide) (by simp [fieldRd, fieldB8, fieldAddr])

theorem crd (c : CCtx) : Statement (.crd c) :=
  of_fmtR rfl ⟨"CRD", 0xFFFCFFFF, 0x65000000⟩ (by decide) (by decide)
    (by simp [fieldRd, fieldRa, fieldRb, fieldRc, fieldZero])

theorem nop : Statement (.nop) :=
  of_fmtR rfl ⟨"NOP", 0xFFFFFFFF, 0x00000000⟩ (by decide) (by decide)
    (by simp [fieldRd, fieldRa, fieldRb, fieldRc, fieldZero])

theorem setmod (m : BitVec 16) : Statement (.setmod m) :=
  of_fmtI rfl ⟨"SETMOD", 0xFFFF0000, 0x01000000⟩ (by decide) (by decide) (by simp [fieldRd, fieldRa, fieldImm])

theorem rdcsr (n : BitVec 16) : Statement (.rdcsr n) :=
  of_fmtI rfl ⟨"RDCSR", 0xFFFF0000, 0x02000000⟩ (by decide) (by decide) (by simp [fieldRd, fieldRa, fieldImm])

theorem errclr : Statement (.errclr) :=
  of_fmtR rfl ⟨"ERRCLR", 0xFFFFFFFF, 0x03000000⟩ (by decide) (by decide)
    (by simp [fieldRd, fieldRa, fieldRb, fieldRc, fieldZero])

theorem stb (addr : BitVec 12) (imm : BitVec 8) : Statement (.stb addr imm) :=
  of_fmtM rfl ⟨"STB", 0xFFF00000, 0x04000000⟩ (by decide) (by decide) (by simp [fieldRd, fieldB8, fieldAddr])

theorem ldb (addr : BitVec 12) : Statement (.ldb addr) :=
  of_fmtM rfl ⟨"LDB", 0xFFFFF000, 0x05000000⟩ (by decide) (by decide) (by simp [fieldRd, fieldB8, fieldAddr])

end Sys2Proof.Laws.EncodesItsRow
end

