-- ==== Sys2Proof/Tests/Slice0.lean ====
section
/-! SUPPORT. The model's own tests. Decoding: the words of spec/95_test_vectors.md section 2.1, one for each command,
and the illegal words of section 2.2. Commands: expected values from spec/95_test_vectors.md sections 2.3 to 2.6, one
step each. Witnesses: for each obligation with hypotheses, a concrete state and operands that meet them. -/

namespace Sys2Proof.Tests

open Sys2Proof Sys2Proof.Machine

/-! ### Helpers -/

/-- The state a step answered. -/
def after : Result → State
  | .next t => t
  | _ => State.reset

/-- A state under modulus m with the given element and polynomial registers, everything else as after reset, the word
0xC0DE on `cmd`. -/
def start (m : Nat) (es : List (EReg × Elem)) (ps : List (PReg × Poly)) : State :=
  ps.foldl (fun s x => s.setPoly x.1 x.2)
    (es.foldl (fun s x => s.setElem x.1 x.2) { State.reset with modulus := BitVec.ofNat 9 m, cmd := 0xC0DE })

/-- The state after reset with context 0 holding a generator and a register. -/
def crc (gen reg : Word) : State := { State.reset with c := State.reset.c.set 0 ⟨gen, reg⟩, cmd := 0xC0DE }

/-- E0 after `i` on E1 = a, E2 = b under modulus m. -/
def binary (m : Nat) (a b : Elem) (i : Instr) : Elem := (after (exec i (start m [(1, a), (2, b)] []))).elem 0

/-- P0 after `i` on P1 = a, P2 = b, E3 = x under modulus m. -/
def onPolys (m : Nat) (a b : Poly) (x : Elem) (i : Instr) : Poly :=
  (after (exec i (start m [(3, x)] [(1, a), (2, b)]))).poly 0

/-- CAUSE after `i` on the same registers, 0 where it completed. -/
def causeOn (m : Nat) (a b : Poly) (i : Instr) : BitVec 4 := (after (exec i (start m [] [(1, a), (2, b)]))).cause

/-- A state that presents one command word to the core. -/
def presenting (s : State) (w : Word) : State := { s with events := [.command w] }

/-! ### WellFormed: the one check -/

theorem test_wf_refuses_one_destination : (Instr.pdivmod 2 2 0 1).wellFormed = false := by decide

theorem test_wf_accepts_two_destinations : (Instr.pdivmod 2 3 0 1).wellFormed = true := by decide

/-! ### Decoding, one word for each command (section 2.1) -/

theorem test_decode_fli : decode 0x1050FFFD = .ok (.fli 5 (-3)) := by decide

theorem test_decode_pshort : decode 0x45100000 = .ok (.pshort 1 0) := by decide

theorem test_decode_fld : decode 0x11300FFF = .ok (.fld 3 0xFFF) := by decide

theorem test_decode_pshl : decode 0x4676000A = .ok (.pshl 7 6 10) := by decide

theorem test_decode_fst : decode 0x12300FFE = .ok (.fst 3 0xFFE) := by decide

theorem test_decode_padd : decode 0x48012000 = .ok (.padd 0 1 2) := by decide

theorem test_decode_frd : decode 0x130F0000 = .ok (.frd 15) := by decide

theorem test_decode_psub : decode 0x49345000 = .ok (.psub 3 4 5) := by decide

theorem test_decode_feq : decode 0x14012000 = .ok (.feq 1 2) := by decide

theorem test_decode_pmul : decode 0x4A670000 = .ok (.pmul 6 7 0) := by decide

theorem test_decode_fadd : decode 0x18012000 = .ok (.fadd 0 1 2) := by decide

theorem test_decode_pscale : decode 0x4B12F000 = .ok (.pscale 1 2 15) := by decide

theorem test_decode_fsub : decode 0x19345000 = .ok (.fsub 3 4 5) := by decide

theorem test_decode_pdivmod : decode 0x4C201300 = .ok (.pdivmod 2 3 0 1) := by decide

theorem test_decode_fmul : decode 0x1A678000 = .ok (.fmul 6 7 8) := by decide

theorem test_decode_pdiv : decode 0x4D456000 = .ok (.pdiv 4 5 6) := by decide

theorem test_decode_fdiv : decode 0x1B9AB000 = .ok (.fdiv 9 10 11) := by decide

theorem test_decode_pmod : decode 0x4E701000 = .ok (.pmod 7 0 1) := by decide

theorem test_decode_fmod : decode 0x1CCDE000 = .ok (.fmod 12 13 14) := by decide

theorem test_decode_ppow : decode 0x4F23003F = .ok (.ppow 2 3 63) := by decide

theorem test_decode_fpow : decode 0x1DF01000 = .ok (.fpow 15 0 1) := by decide

theorem test_decode_peval : decode 0x5097A000 = .ok (.peval 9 7 10) := by decide

theorem test_decode_fshl : decode 0x1E234000 = .ok (.fshl 2 3 4) := by decide

theorem test_decode_peq : decode 0x51067000 = .ok (.peq 6 7) := by decide

theorem test_decode_fshr : decode 0x1F567000 = .ok (.fshr 5 6 7) := by decide

theorem test_decode_pgt : decode 0x52001000 = .ok (.pgt 0 1) := by decide

theorem test_decode_fand : decode 0x2089A000 = .ok (.fand 8 9 10) := by decide

theorem test_decode_pnz : decode 0x53070000 = .ok (.pnz 7) := by decide

theorem test_decode_for : decode 0x21BCD000 = .ok (.for_ 11 12 13) := by decide

theorem test_decode_cgenl : decode 0x6030FFFF = .ok (.cgenl 3 0xFFFF) := by decide

theorem test_decode_fxor : decode 0x22EF0000 = .ok (.fxor 14 15 0) := by decide

theorem test_decode_cgenh : decode 0x61208000 = .ok (.cgenh 2 0x8000) := by decide

theorem test_decode_fneg : decode 0x28120000 = .ok (.fneg 1 2) := by decide

theorem test_decode_cinit : decode 0x62100000 = .ok (.cinit 1) := by decide

theorem test_decode_fpos : decode 0x29340000 = .ok (.fpos 3 4) := by decide

theorem test_decode_cbyte : decode 0x633FF000 = .ok (.cbyte 3 0xFF) := by decide

theorem test_decode_fabs : decode 0x2A560000 = .ok (.fabs 5 6) := by decide

theorem test_decode_cbuf : decode 0x642FFABC = .ok (.cbuf 2 255 0xABC) := by decide

theorem test_decode_finv : decode 0x2B780000 = .ok (.finv 7 8) := by decide

theorem test_decode_crd : decode 0x65030000 = .ok (.crd 3) := by decide

theorem test_decode_fround : decode 0x2C9A0000 = .ok (.fround 9 10) := by decide

theorem test_decode_nop : decode 0x00000000 = .ok .nop := by decide

theorem test_decode_ftrunc : decode 0x2DBC0000 = .ok (.ftrunc 11 12) := by decide

theorem test_decode_setmod : decode 0x01000100 = .ok (.setmod 256) := by decide

theorem test_decode_ffloor : decode 0x2EDE0000 = .ok (.ffloor 13 14) := by decide

theorem test_decode_rdcsr : decode 0x02000003 = .ok (.rdcsr 3) := by decide

theorem test_decode_fceil : decode 0x2FF00000 = .ok (.fceil 15 0) := by decide

theorem test_decode_errclr : decode 0x03000000 = .ok .errclr := by decide

theorem test_decode_pld : decode 0x40740FC0 = .ok (.pld 7 64 0xFC0) := by decide

theorem test_decode_stb : decode 0x040ABFFF = .ok (.stb 0xFFF 0xAB) := by decide

theorem test_decode_pst : decode 0x41600123 = .ok (.pst 6 0x123) := by decide

theorem test_decode_ldb : decode 0x05000FFF = .ok (.ldb 0xFFF) := by decide

theorem test_decode_plen : decode 0x42050000 = .ok (.plen 5) := by decide

theorem test_decode_pgrade : decode 0x44320040 = .ok (.pgrade 3 2 64) := by decide

theorem test_decode_pdeg : decode 0x43040000 = .ok (.pdeg 4) := by decide

/-! ### Illegal words (section 2.2) -/

theorem test_illegal_reserved : decode 0x06000000 = .error .reservedOpcode := by decide

theorem test_illegal_gap : decode 0x47000000 = .error .reservedOpcode := by decide

theorem test_illegal_nop_low_bit : decode 0x00000001 = .error .nonzeroField := by decide

theorem test_illegal_padd_rc : decode 0x48001100 = .error .nonzeroField := by decide

theorem test_illegal_cbyte_addr : decode 0x63097001 = .error .nonzeroField := by decide

theorem test_illegal_poly_index : decode 0x48081000 = .error .polyIndex := by decide

theorem test_illegal_context_index : decode 0x60400087 = .error .contextIndex := by decide

theorem test_illegal_same_destination : decode 0x4C201200 = .error .sameDestination := by decide

/-- A table word is one 32-bit command (R70). -/
theorem test_decodeTableWord : decodeTableWord 32 0x18012000 = some (.fadd 0 1 2) := by decide

/-! ### Unit GFMR (section 2.3, R103 to R126) -/

theorem test_fli_negative : (after (exec (.fli 5 (-3)) (start 16 [] []))).elem 5 = 13 := by decide

theorem test_fli_most_negative : (after (exec (.fli 5 0x8000) (start 10 [] []))).elem 5 = 2 := by decide

theorem test_fld_reduces :
    (after (exec (.fld 1 0x025) { start 16 [] [] with dmem := [(0x25, 0x17)] })).elem 1 = 7 := by decide

theorem test_fst : (after (exec (.fst 2 0x124) (start 16 [(2, 10)] []))).readByte 0x124 = 10 := by decide

theorem test_frd : (after (exec (.frd 7) (start 16 [(7, 13)] []))).rsp = some ⟨true, 13⟩ := by decide

theorem test_feq_equal : (after (exec (.feq 1 2) (start 16 [(1, 7), (2, 7)] []))).t = true := by decide

theorem test_feq_different :
    (after (exec (.feq 1 2) { start 16 [(1, 7), (2, 8)] [] with t := true })).t = false := by decide

theorem test_fadd : binary 16 15 15 (.fadd 0 1 2) = 14 := by decide

theorem test_fsub : binary 16 3 10 (.fsub 0 1 2) = 9 := by decide

theorem test_fmul : binary 16 10 7 (.fmul 0 1 2) = 6 := by decide

theorem test_fdiv : binary 16 10 7 (.fdiv 0 1 2) = 1 := by decide

theorem test_fmod : binary 16 10 7 (.fmod 0 1 2) = 3 := by decide

theorem test_fpow : binary 16 3 10 (.fpow 0 1 2) = 9 := by decide

theorem test_fshl : binary 10 9 6 (.fshl 0 1 2) = 6 := by decide

theorem test_fshr : binary 16 10 1 (.fshr 0 1 2) = 5 := by decide

theorem test_fand : binary 16 10 7 (.fand 0 1 2) = 2 := by decide

theorem test_for : binary 10 9 6 (.for_ 0 1 2) = 5 := by decide

theorem test_fxor : binary 10 9 6 (.fxor 0 1 2) = 5 := by decide

theorem test_fadd_same_register : (after (exec (.fadd 1 1 1) (start 16 [(1, 7)] []))).elem 1 = 14 := by decide

theorem test_fdiv_by_zero : (after (exec (.fdiv 0 1 2) (start 16 [(0, 5), (1, 7)] []))).cause = 3 := by decide

theorem test_fdiv_by_zero_keeps_destination :
    (after (exec (.fdiv 0 1 2) (start 16 [(0, 5), (1, 7)] []))).elem 0 = 5 := by decide

theorem test_fmod_by_zero : (after (exec (.fmod 0 1 2) (start 16 [(1, 7)] []))).einfo = 0xC0DE := by decide

theorem test_fpow_zero_zero : binary 16 0 0 (.fpow 0 1 2) = 1 := by decide

theorem test_fneg : binary 16 5 0 (.fneg 0 1) = 11 := by decide

theorem test_fpos : binary 16 5 0 (.fpos 0 1) = 5 := by decide

theorem test_fabs : binary 16 15 0 (.fabs 0 1) = 15 := by decide

theorem test_finv : binary 10 3 0 (.finv 0 1) = 6 := by decide

theorem test_fround : binary 16 5 0 (.fround 0 1) = 5 := by decide

theorem test_ftrunc : binary 16 5 0 (.ftrunc 0 1) = 5 := by decide

theorem test_ffloor : binary 16 5 0 (.ffloor 0 1) = 5 := by decide

theorem test_fceil : binary 16 5 0 (.fceil 0 1) = 5 := by decide

theorem test_fneg_zero : binary 16 0 0 (.fneg 0 1) = 0 := by decide

/-! ### Unit PLDE (section 2.4, R155 to R170, R184 to R186) -/

theorem test_pld :
    (after (exec (.pld 0 4 0) { start 16 [] [] with dmem := [(0, 0), (1, 0), (2, 0x11), (3, 1)] })).poly 0 =
      [0, 0, 1, 1] := by decide

theorem test_pld_collapses :
    (after (exec (.pld 0 2 0) { start 16 [] [(0, [1])] with dmem := [(0, 16), (1, 32)] })).poly 0 = [] := by decide

theorem test_pst_first_and_last :
    (fun t : State => (t.readByte 0x10, t.readByte 0x12)) (after (exec (.pst 0 0x010)
      (start 16 [] [(0, [0, 1, 5])]))) = (0, 5) := by decide

theorem test_pst_past_end : (after (exec (.pst 6 0xFFF) (start 16 [] [(6, [1, 2])]))).cause = 7 := by decide

theorem test_plen : (after (exec (.plen 0) (start 16 [] [(0, [0, 0, 1, 1])]))).rsp = some ⟨true, 4⟩ := by decide

theorem test_pdeg : (after (exec (.pdeg 0) (start 16 [] [(0, [0, 0, 1, 1])]))).rsp = some ⟨true, 1⟩ := by decide

theorem test_pdeg_zero : (after (exec (.pdeg 0) (start 16 [] [(0, [0, 0])]))).rsp = some ⟨true, 0xFFFFFFFF⟩ := by decide

theorem test_pgrade_pads : onPolys 16 [1, 2, 3] [] 0 (.pgrade 0 1 5) = [0, 0, 1, 2, 3] := by decide

theorem test_pgrade_drops : onPolys 16 [1, 2, 3] [] 0 (.pgrade 0 1 2) = [2, 3] := by decide

theorem test_pshort : onPolys 16 [0, 0, 1, 1] [] 0 (.pshort 0 1) = [1, 1] := by decide

theorem test_pshl : onPolys 16 [1, 1] [] 0 (.pshl 0 1 3) = [1, 1, 0, 0, 0] := by decide

theorem test_pshl_zero_operand_overflows : causeOn 16 [] [] (.pshl 0 1 65) = 5 := by decide

theorem test_padd_aligns : onPolys 16 [10] [0, 0, 1, 1] 0 (.padd 0 1 2) = [0, 0, 1, 11] := by decide

theorem test_padd_collapses : onPolys 16 [9, 9] [7, 7] 0 (.padd 0 1 2) = [] := by decide

theorem test_psub : onPolys 16 [10] [0, 0, 1, 1] 0 (.psub 0 1 2) = [0, 0, 15, 9] := by decide

theorem test_pmul : onPolys 7 [1, 2, 3] [6, 5, 4] 0 (.pmul 0 1 2) = [6, 3, 4, 2, 5] := by decide

theorem test_pmul_raw_length : onPolys 16 [10] [0, 0, 1, 1] 0 (.pmul 0 1 2) = [0, 0, 10, 10] := by decide

theorem test_pscale : onPolys 16 [1, 2, 3] [] 5 (.pscale 0 1 3) = [5, 10, 15] := by decide

theorem test_pscale_collapses : onPolys 16 [8, 4] [] 4 (.pscale 0 1 3) = [] := by decide

theorem test_pdivmod_quotient : onPolys 16 [4, 0, 1] [2, 1] 0 (.pdivmod 0 3 1 2) = [2, 7] := by decide

theorem test_pdivmod_remainder : onPolys 16 [4, 0, 1] [2, 1] 0 (.pdivmod 3 0 1 2) = [10] := by decide

theorem test_pdiv_position : onPolys 2 [1, 0, 0, 0, 0] [1, 0] 0 (.pdiv 0 1 2) = [1, 0, 0, 0] := by decide

theorem test_pdiv_integer_terms : causeOn 16 [6, 5, 4] [3] (.pdiv 0 1 2) = 4 ∧
    causeOn 16 [15, 5, 10, 14] [3, 0, 2] (.pdiv 0 1 2) = 4 ∧
    onPolys 16 [8, 0] [8] 0 (.pdiv 0 1 2) = [1, 0] := by decide

theorem test_pmod : onPolys 16 [1, 0, 0, 0, 1] [1, 1] 0 (.pmod 0 1 2) = [2] := by decide

theorem test_pmod_early_keeps_padding : onPolys 2 [0, 1, 1] [0, 0, 1, 0, 0] 0 (.pmod 0 1 2) = [0, 1, 1] := by decide

theorem test_ppow : onPolys 16 [1, 1] [] 0 (.ppow 0 1 3) = [1, 3, 3, 1] := by decide

theorem test_ppow_one_keeps_padding : onPolys 16 [0, 0] [] 0 (.ppow 0 1 1) = [0, 0] := by decide

theorem test_peval : (after (exec (.peval 0 1 3) (start 7 [(3, 3)] [(1, [2, 3, 1])]))).elem 0 = 0 := by decide

theorem test_peval_at_zero : (after (exec (.peval 0 1 3) (start 16 [] [(1, [0, 3])]))).elem 0 = 3 := by decide

theorem test_peq_ignores_padding :
    (after (exec (.peq 0 1) (start 16 [] [(0, [0, 0, 5]), (1, [5])]))).t = true := by decide

theorem test_pgt_degree_first : (after (exec (.pgt 0 1) (start 16 [] [(0, [1, 2]), (1, [3])]))).t = true := by decide

theorem test_pgt_equal :
    (after (exec (.pgt 0 1) { start 16 [] [(0, [0, 0, 5]), (1, [5])] with t := true })).t = false := by decide

theorem test_pnz : (after (exec (.pnz 0) (start 16 [] [(0, [0, 0, 5])]))).t = true := by decide

theorem test_pnz_padded_zero :
    (after (exec (.pnz 0) { start 16 [] [(0, [0, 0])] with t := true })).t = false := by decide

/-! ### Unit CSXR (section 2.5, R201 to R207) -/

theorem test_cgenl_clears_high_half : (after (exec (.cgenl 0 0x87) (crc 0x11021 5))).gen 0 = 0x87 := by decide

theorem test_cgenh_keeps_low_half : (after (exec (.cgenh 0 1) (crc 0x1021 5))).gen 0 = 0x11021 := by decide

theorem test_cgenh_clears_reg : (after (exec (.cgenh 0 1) (crc 0x1021 5))).reg 0 = 0 := by decide

theorem test_cinit : (after (exec (.cinit 0) (crc 0x87 0x69))).reg 0 = 0 := by decide

theorem test_cbyte_second_byte : (after (exec (.cbyte 0 0x3E) (crc 0x87 0x10))).reg 0 = 0x59 := by decide

theorem test_cbyte_widest : (after (exec (.cbyte 0 0x3E) (crc 0xFFFFFFFF 0x97))).reg 0 = 0x973E := by decide

set_option maxRecDepth 2000 in
theorem test_cbuf :
    (after (exec (.cbuf 0 2 4) { crc 0x87 0 with dmem := [(4, 0x97), (5, 0x3E)] })).reg 0 = 0x59 := by decide

theorem test_cbuf_address_before_generator : (after (exec (.cbuf 0 2 0xFFF) (crc 0 0))).cause = 7 := by decide

theorem test_crd : (after (exec (.crd 0) (crc 0x87 0x69))).rsp = some ⟨true, 0x69⟩ := by decide

/-! ### System commands, faults, the port (section 2.6, R223 to R228, R246 to R252, R271) -/

theorem test_nop : (after (exec .nop (start 16 [(1, 7)] []))).rsp = some ⟨true, 0⟩ := by decide

theorem test_setmod_clears : (after (exec (.setmod 16) (start 16 [(1, 7)] []))).elem 1 = 0 := by decide

theorem test_setmod_257 : (after (exec (.setmod 257) (start 16 [(1, 7)] []))).cause = 8 := by decide

theorem test_rdcsr_mod : (after (exec (.rdcsr 3) State.reset)).rsp = some ⟨true, 2⟩ := by decide

theorem test_rdcsr_status : (after (exec (.rdcsr 0) { State.reset with t := true })).rsp = some ⟨true, 2⟩ := by decide

theorem test_errclr :
    (after (exec .errclr { State.reset with err := true, cause := 3, t := true })).cause = 0 := by decide

theorem test_stb : (after (exec (.stb 0xFFF 0xAB) State.reset)).readByte 0xFFF = 0xAB := by decide

theorem test_ldb :
    (after (exec (.ldb 0x100) { State.reset with dmem := [(0x100, 0x97)] })).rsp = some ⟨true, 0x97⟩ := by decide

theorem test_dropped_while_err :
    (after (step (presenting { State.reset with err := true } 0x01000010))).rsp = some ⟨false, 0⟩ := by decide

theorem test_illegal_word_einfo : (after (step (presenting State.reset 0x06000000))).einfo = 0x06000000 := by decide

theorem test_fetch_word_runs : (after (step (State.reset.withFetchWord 32 0x01000010))).m = 16 := by decide

theorem test_rst_event : (after (step { start 16 [(1, 7)] [] with events := [.rst] })).m = 2 := by decide

theorem test_memory_canonical : Memory.wf (Memory.insert (Memory.insert [] 7 1) 3 2) = true := by decide

theorem test_memory_out_of_order : Memory.wf [(7, 1), (3, 2)] = false := by decide

/-! ### Witnesses: the hypotheses of each obligation, met by a concrete state and operands, clause by clause -/

/-- MOD = 16 with elements and lists of several shapes, one of them padded, one 64 entries long, one all zero. -/
def sample : State :=
  { start 16 [(1, 10), (2, 7)]
      [(1, [0, 0, 1, 1]), (2, [4, 0, 1]), (3, [2, 1]), (4, [0, 0]), (5, 1 :: List.replicate 63 0), (6, [3, 0, 1])] with
    c := #v[⟨0x87, 0x59⟩, ⟨0, 0⟩, ⟨0x11021, 0⟩, ⟨1, 0⟩], dmem := [(0x20, 0x0A), (0xFFF, 0xAB)] }

theorem sample_inv : sample.Inv := by constructor <;> decide

/-- The same under MOD = 2, all lists binary. -/
def sample2 : State := start 2 [(1, 1)] [(1, [1, 0, 0, 0, 1]), (2, [1, 1]), (3, [1, 0, 0])]

theorem sample2_inv : sample2.Inv := by constructor <;> decide

theorem witness_DecodeInvertsEncode : (Instr.pdivmod 7 0 0 0).wellFormed = true := by decide

theorem witness_EncodeInvertsDecode : decode 0x4C201300 = .ok (.pdivmod 2 3 0 1) := by decide

theorem witness_StepRunsTheDecodedCommand :
    (presenting sample 0x18012000).events = [.command 0x18012000] ∧ decode 0x18012000 = .ok (.fadd 0 1 2) := by decide

theorem illegal_06 (i : Instr) : decode 0x06000000 ≠ .ok i := by
  rw [show decode 0x06000000 = .error .reservedOpcode by decide]; simp

theorem witness_IllegalWordsFault_undecodable :
    (presenting sample 0x06000000).events = [.command 0x06000000] ∧ (∀ i, decode 0x06000000 ≠ .ok i) ∧
    (presenting sample 0x06000000).err = false := ⟨rfl, illegal_06, by decide⟩

theorem witness_IllegalWordsFault_rdcsr4_while_err :
    (presenting { sample with err := true } 0x02000004).events = [.command 0x02000004] ∧
    3 < (4 : BitVec 16).toNat ∧ decode 0x02000004 = .ok (.rdcsr 4) ∧
    (presenting { sample with err := true } 0x02000004).err = true := by decide

theorem witness_ResetEventGivesResetValues :
    { sample with events := [.rst] }.events = [.rst] ∧ { sample with events := [.rst] }.DmemLegal := by decide

theorem witness_EveryStepKeepsTheInvariant : (presenting sample 0x18012000).Inv ∧
    ∃ t, step (presenting sample 0x18012000) = .next t := ⟨by constructor <;> decide, _, rfl⟩

theorem witness_IdleStepChangesNothing : sample.events = [] := rfl

/-- A dropped SETMOD, ERRCLR, and RDCSR 0 to 3: every branch. -/
theorem witness_ErrorStateDropsAllButTwo :
    { sample with err := true }.err = true ∧
    (presenting { sample with err := true } 0x01000010).events = [.command 0x01000010] ∧
    (presenting { sample with err := true } 0x03000000).events = [.command 0x03000000] ∧
    (presenting { sample with err := true } 0x02000000).events = [.command 0x02000000] ∧
    (presenting { sample with err := true } 0x02000001).events = [.command 0x02000001] ∧
    (presenting { sample with err := true } 0x02000002).events = [.command 0x02000002] ∧
    (presenting { sample with err := true } 0x02000003).events = [.command 0x02000003] :=
  ⟨rfl, rfl, rfl, rfl, rfl, rfl, rfl⟩

/-- FDIV e0, e1, e0 with E0 = 0. -/
theorem witness_FaultsArePrecise : (presenting sample 0x1B010000).err = false ∧
    (presenting sample 0x1B010000).events = [.command 0x1B010000] ∧
    ∃ t, step (presenting sample 0x1B010000) = .next t ∧ t.err = true := ⟨by decide, by decide, _, rfl, by decide⟩

/-- The kinds of response: a fault, a drop, data, and with ERR = 1 the two commands that are not dropped. -/
theorem witness_EveryCommandHasOneResponse :
    (∃ t, step (presenting sample 0x1B010000) = .next t ∧ t.rsp = some ⟨false, 0⟩ ∧ t.err = true) ∧
    (∃ t, step (presenting { sample with err := true } 0) = .next t ∧ t.rsp = some ⟨false, 0⟩) ∧
    (∃ t, step (presenting sample 0x13010000) = .next t ∧ t.rsp = some ⟨true, 10⟩) ∧
    (∃ t, step (presenting { sample with err := true } 0x03000000) = .next t ∧ t.rsp = some ⟨true, 0⟩) ∧
    (∃ t, step (presenting { sample with err := true } 0x02000003) = .next t ∧ t.rsp = some ⟨true, 16⟩) :=
  ⟨⟨_, rfl, by decide, by decide⟩, ⟨_, rfl, by decide⟩, ⟨_, rfl, by decide⟩, ⟨_, rfl, by decide⟩, ⟨_, rfl, by decide⟩⟩

/-- STB at 5 does not store at 4 nor at 6. -/
theorem witness_OnlyStoresWriteDmem : (∃ t, exec (.stb 5 1) sample = .next t) ∧
    ∀ a ∈ [4, 6], ¬(((Instr.stb 5 1).stores sample).1 ≤ a ∧
      a < ((Instr.stb 5 1).stores sample).1 + ((Instr.stb 5 1).stores sample).2) := ⟨⟨_, rfl⟩, by decide⟩

theorem witness_RegistersWrittenOnlyByTheirCommands :
    ∃ t, exec (.fadd 0 1 2) sample = .next t ∧ (Instr.fadd 0 1 2).isSetmod = false ∧
      (15 : EReg) ∉ (Instr.fadd 0 1 2).elemDest ∧ (0 : PReg) ∉ (Instr.fadd 0 1 2).polyDest ∧
      (3 : CCtx) ∉ (Instr.fadd 0 1 2).ctxDest ∧ (Instr.fadd 0 1 2).writesT = false ∧
      Instr.fadd 0 1 2 ≠ .errclr ∧ t.err = sample.err :=
  ⟨_, rfl, by decide, by decide, by decide, by decide, by decide, by decide, by decide⟩

/-- A command other than ERRCLR that runs with ERR = 1. -/
theorem witness_RegistersWrittenOnlyByTheirCommands_err : (∃ t, exec (.rdcsr 0) { sample with err := true } = .next t) ∧
    Instr.rdcsr 0 ≠ .errclr ∧ { sample with err := true }.err = true := ⟨⟨_, rfl⟩, by decide, by decide⟩

theorem witness_FieldAddSubMul : sample.Inv ∧ sample.err = false := ⟨sample_inv, rfl⟩

/-- E0 is 0, E2 is not. -/
theorem witness_FieldDivRem : sample.Inv ∧ sample.err = false ∧ sample.elem 0 = 0 ∧ sample.elem 2 ≠ 0 :=
  ⟨sample_inv, rfl, by decide, by decide⟩

theorem witness_FieldPowShift : sample2.Inv ∧ sample2.err = false := ⟨sample2_inv, rfl⟩

theorem witness_FieldBitwise : sample.Inv ∧ sample.err = false := ⟨sample_inv, rfl⟩

theorem witness_FieldNegInvert : sample.Inv ∧ sample.err = false := ⟨sample_inv, rfl⟩

theorem witness_FieldCopies : sample.Inv ∧ sample.err = false := ⟨sample_inv, rfl⟩

theorem witness_FieldImmediate : sample2.Inv ∧ sample2.err = false := ⟨sample2_inv, rfl⟩

theorem witness_FieldLoadStore : sample.Inv ∧ sample.err = false := ⟨sample_inv, rfl⟩

theorem witness_FieldReadAndCompare : sample.err = false := rfl

/-- The smallest and the largest modulus. -/
theorem witness_FieldOperatorsFormARing :
    (2 ≤ 2 ∧ 2 ≤ 256 ∧ (1 : Elem).toNat < 2 ∧ (0 : Elem).toNat < 2) ∧
    (2 ≤ 256 ∧ 256 ≤ 256 ∧ (255 : Elem).toNat < 256 ∧ (200 : Elem).toNat < 256) := by decide

theorem witness_PowIsRepeatedProduct : 2 ≤ 256 ∧ 256 ≤ 256 ∧ (255 : Elem).toNat < 256 := by decide

/-- The clauses at 64 and 65 bytes, at 4096 and 4097, with all bytes 0 modulo MOD and with one that is not. -/
theorem witness_PolyLoad : sample.Inv ∧ sample.err = false ∧ 64 < (65 : BitVec 8).toNat ∧
    ((64 : BitVec 8).toNat ≤ 64 ∧ 4096 < (0xFC1 : BitVec 12).toNat + (64 : BitVec 8).toNat) ∧
    ((64 : BitVec 8).toNat ≤ 64 ∧ (0xFC0 : BitVec 12).toNat + (64 : BitVec 8).toNat ≤ 4096) ∧
    (∀ j < (0 : BitVec 8).toNat, (sample.readByte (0xFFF + j)).toNat % sample.m = 0) ∧
    (∃ j < (1 : BitVec 8).toNat, (sample.readByte (0xFFF + j)).toNat % sample.m ≠ 0) :=
  ⟨sample_inv, rfl, by decide, by decide, by decide, by decide, 0, by decide, by decide⟩

/-- P5 has raw length 64: it fits at 0xFC0 and not at 0xFC1. -/
theorem witness_PolyStore : sample.Inv ∧ sample.err = false ∧
    4096 < (0xFC1 : BitVec 12).toNat + (sample.poly 5).length ∧
    (0xFC0 : BitVec 12).toNat + (sample.poly 5).length ≤ 4096 := ⟨sample_inv, rfl, by decide, by decide⟩

/-- P4 is zero with padding; P1 = [0, 0, 1, 1] has degree 1. -/
theorem witness_PolyLengthAndDegree : sample.Inv ∧ sample.err = false ∧ (∀ k, coeff (sample.poly 4) k = 0) ∧
    coeff (sample.poly 1) 1 ≠ 0 ∧ (∀ k, 1 < k → coeff (sample.poly 1) k = 0) := by
  refine ⟨sample_inv, rfl, (isZeroPoly_iff_coeff _).1 (by decide), by decide, fun k hk => ?_⟩
  rw [coeff_eq, coeffE_of_deg_lt]
  · rfl
  · rw [show deg (sample.poly 1) = 1 by decide]; omega

theorem witness_PolyRegrade : sample.Inv ∧ sample.err = false ∧ 64 < (65 : BitVec 16).toNat ∧
    (64 : BitVec 16).toNat ≤ 64 := ⟨sample_inv, rfl, by decide, by decide⟩

/-- P5 and a shift by 0 and by 1; P4 all zero, P1 not. -/
theorem witness_PolyShortenAndShift : sample.Inv ∧ sample.err = false ∧
    64 < (sample.poly 5).length + (1 : BitVec 16).toNat ∧ (sample.poly 5).length + (0 : BitVec 16).toNat ≤ 64 ∧
    (∀ v ∈ sample.poly 4, v = 0) ∧ (∃ v ∈ sample.poly 1, v ≠ 0) :=
  ⟨sample_inv, rfl, by decide, by decide, by decide, by decide⟩

theorem witness_PolyAddSub : sample.Inv ∧ sample.err = false := ⟨sample_inv, rfl⟩

theorem witness_PolyScale : sample.Inv ∧ sample.err = false := ⟨sample_inv, rfl⟩

/-- P5 * P2 overflows by two (LEN 3 + DEG 63), P1 * P2 fits, P4 is zero, and the leading coefficients of P1 and P2 do
not multiply to 0. -/
theorem witness_PolyProductIsTheOrdinaryProduct : sample.Inv ∧ sample.err = false ∧
    (deg (sample.poly 5) ≠ -1 ∧ deg (sample.poly 2) ≠ -1 ∧
      64 < ((sample.poly 2).length : Int) + deg (sample.poly 5)) ∧
    ¬(64 < ((sample.poly 2).length : Int) + deg (sample.poly 1)) ∧ deg (sample.poly 4) = -1 ∧
    (lead (sample.poly 1)).toNat * (lead (sample.poly 2)).toNat % sample.m ≠ 0 :=
  ⟨sample_inv, rfl, by decide, by decide, by decide, by decide⟩

/-- MOD = 16 with lists whose leading coefficients vanish in products: P1 = [4], P2 = [4, 1], P3 = [2, 0]. -/
def sampleVanishing : State := start 16 [] [(1, [4]), (2, [4, 1]), (3, [2, 0])]

theorem sampleVanishing_inv : sampleVanishing.Inv := by constructor <;> decide

/-- [4] * [4, 1] = [0, 4] (R164): position 0 of [4] is its last term that is not 0 modulo 16, and the raw length is 2. -/
theorem witness_IsProduct_rawLength : IsProduct 16 [4] [4, 1] [0, 4] ∧ (∃ k, coeff [0, 4] k ≠ 0) ∧
    (∃ j, coeff [4] 0 * coeff [4, 1] j % 16 ≠ 0) ∧ ([0, 4] : Poly).length = ([4, 1] : Poly).length + 0 :=
  ⟨pmul_isProduct (by decide) (by decide) (by decide), ⟨0, by decide⟩, ⟨0, by decide⟩, rfl⟩

theorem test_pmul_vanishing_lead : (after (exec (.pmul 0 1 2) sampleVanishing)).poly 0 = [0, 4] ∧
    (after (exec (.pmul 0 2 1) sampleVanishing)).poly 0 = [4] ∧
    (after (exec (.pmul 0 1 1) sampleVanishing)).poly 0 = [] := by decide

/-- Powers 63 and 64 of [2, 0]: power 63 is `[]` and LEN + 63 * DEG is 65. -/
theorem witness_PolyPower_vanishing : sampleVanishing.Inv ∧ sampleVanishing.err = false ∧
    64 < ((sampleVanishing.poly 3).length : Int) + 63 * deg (sampleVanishing.poly 3) ∧
    WritesPoly (.ppow 0 3 (BitVec.ofNat 16 63)) sampleVanishing 0 [] ∧
    ¬(deg [] ≠ -1 ∧ deg (sampleVanishing.poly 3) ≠ -1 ∧
      64 < ((sampleVanishing.poly 3).length : Int) + deg []) :=
  ⟨sampleVanishing_inv, rfl, by decide, rfl, by decide⟩

/-- P1 = [0, 0, 1, 1]: the second power fits; P5 = x^63: its second power does not, nor does its third. -/
theorem witness_PolyPower : sample.Inv ∧ sample.err = false ∧
    ((sample.poly 1).length : Int) + 1 * deg (sample.poly 1) ≤ 64 ∧
    (WritesPoly (.ppow 0 5 (BitVec.ofNat 16 1)) sample 0 (sample.poly 5) ∧ deg (sample.poly 5) ≠ -1 ∧
      64 < ((sample.poly 5).length : Int) + deg (sample.poly 5)) ∧
    TakesFault (.ppow 0 5 (BitVec.ofNat 16 2)) sample 5 :=
  ⟨sample_inv, rfl, by decide, ⟨rfl, by decide, by decide⟩, rfl⟩

theorem witness_PolyEvaluate : sample.Inv ∧ sample.err = false := ⟨sample_inv, rfl⟩

theorem witness_PolyPredicates : sample.err = false := rfl

/-- P4 is zero; P3 has a lower degree than P2; 3 is no multiple of 2 (P6 by P3). -/
theorem witness_DivisionEarlyOutcomes : sample.err = false ∧ (1 : PReg) ≠ 2 ∧ deg (sample.poly 4) = -1 ∧
    (deg (sample.poly 2) ≠ -1 ∧ deg (sample.poly 3) < deg (sample.poly 2)) ∧
    (deg (sample.poly 3) ≠ -1 ∧ deg (sample.poly 3) ≤ deg (sample.poly 6) ∧
      (lead (sample.poly 6)).toNat % (lead (sample.poly 3)).toNat ≠ 0) :=
  ⟨rfl, by decide, by decide, by decide, by decide⟩

/-- [4,0,1] by [2,1] under 16 (spec/95_test_vectors.md 2.4), the early return, and an overflow-free product. -/
theorem witness_DivisionRoundTrip : 2 ≤ 16 ∧ 16 ≤ 256 ∧ PolyLegal 16 [4, 0, 1] ∧ PolyLegal 16 [2, 1] ∧
    pdivmod 16 [4, 0, 1] [2, 1] = .ok ([2, 7], [10]) ∧ pmul 16 [2, 7] [2, 1] = .ok [4, 0, 7] ∧
    deg [2, 1] ≤ deg [4, 0, 1] := by decide

/-- a - t * x^k * d for R187's example, [15,5,10,14] by [3,0,2] with t = 5 and k = 1, and for [8,0] by [8] with t = 1. -/
theorem witness_DivisionStep_rest :
    (∀ j, (coeff [5, 0, 14] j + if 1 ≤ j then 5 * coeff [3, 0, 2] (j - 1) else 0) % 16 = coeff [15, 5, 10, 14] j) ∧
    (∀ j, (coeff [] j + if 1 ≤ j then 1 * coeff [8] (j - 1) else 0) % 16 = coeff [8, 0] j) := by
  have beyond : ∀ (c : Poly) (j : Nat), c.length ≤ j → coeff c j = 0 := fun c j h => by
    rw [coeff_eq, coeffE_of_length_le h]; rfl
  constructor <;> intro j
  · rcases j with _ | _ | _ | _ | j
    · decide
    · decide
    · decide
    · decide
    · simp [beyond]
  · rcases j with _ | _ | j
    · decide
    · decide
    · simp [beyond]

/-- Every case: a zero divisor, a divisor of higher degree, a first term that is inexact, an exact one after which the
division is inexact (R187: '5 mod 3 != 0'), and an exact one after which it ends. -/
theorem witness_DivisionStep : 2 ≤ 16 ∧ 16 ≤ 256 ∧ PolyLegal 16 [15, 5, 10, 14] ∧ PolyLegal 16 [3, 0, 2] ∧
    PolyLegal 16 [5, 0, 14] ∧ PolyLegal 16 [8, 0] ∧ PolyLegal 16 [8] ∧ PolyLegal 16 [] ∧ deg [0, 0] = -1 ∧
    deg [8] < deg [3, 0, 2] ∧ ((lead [5, 0, 14]).toNat % (lead [3, 0, 2]).toNat ≠ 0 ∧ deg [3, 0, 2] ≤ deg [5, 0, 14]) ∧
    (deg [3, 0, 2] ≠ -1 ∧ deg [15, 5, 10, 14] = deg [3, 0, 2] + (1 : Nat) ∧
      (lead [15, 5, 10, 14]).toNat % (lead [3, 0, 2]).toNat = 0 ∧
      5 = (lead [15, 5, 10, 14]).toNat / (lead [3, 0, 2]).toNat ∧
      pdivmod 16 [5, 0, 14] [3, 0, 2] = .error .inexactLeadingQuotient) ∧
    (deg [8] ≠ -1 ∧ deg [8, 0] = deg [8] + (1 : Nat) ∧ (lead [8, 0]).toNat % (lead [8]).toNat = 0 ∧
      1 = (lead [8, 0]).toNat / (lead [8]).toNat ∧ pdivmod 16 [] [8] = .ok ([], [])) := by decide

/-- MOD = 2, and under MOD = 16 the monic divisor P1. -/
theorem witness_MonicDivisionCompletes :
    (sample2.Inv ∧ sample2.err = false ∧ (4 : PReg) ≠ 5 ∧ deg (sample2.poly 2) ≠ -1 ∧ sample2.m = 2) ∧
    (sample.Inv ∧ sample.err = false ∧ deg (sample.poly 1) ≠ -1 ∧ lead (sample.poly 1) = 1) ∧
    ((∀ v ∈ [1, 1, 1, 1], (v : Elem).toNat < sample2.m) ∧ deg [] < deg (sample2.poly 2)) :=
  ⟨⟨sample2_inv, rfl, by decide, by decide, by decide⟩, ⟨sample_inv, rfl, by decide, by decide⟩, by decide, by decide⟩

/-- A division that ends, one by zero and one that is inexact. -/
theorem witness_DivisionCommandsAgree : sample.err = false ∧ (1 : PReg) ≠ 2 ∧
    pdivmod sample.m (sample.poly 2) (sample.poly 3) = .ok ([2, 7], [10]) ∧
    pdivmod sample.m (sample.poly 2) (sample.poly 4) = .error .divideByZeroPolynomial ∧
    pdivmod sample.m (sample.poly 6) (sample.poly 3) = .error .inexactLeadingQuotient := by decide

theorem witness_CrcSetUpAndRead : sample.err = false ∧
    (opcode 0x60400087 = 0x60 ∧ 4 ≤ (fieldRd 0x60400087).toNat) ∧ (opcode 0x61010001 = 0x61 ∧ fieldRa 0x61010001 ≠ 0) ∧
    (opcode 0x62400000 = 0x62 ∧ 4 ≤ (fieldRd 0x62400000).toNat) ∧
    (opcode 0x65040000 = 0x65 ∧ 4 ≤ (fieldRa 0x65040000).toNat) := by decide

/-- Context 1 has no generator, context 0 has one. -/
theorem witness_CrcByteIsTheRemainder : sample.Inv ∧ sample.err = false ∧ sample.gen 1 = 0 ∧ sample.gen 0 ≠ 0 ∧
    (opcode 0x63400000 = 0x63 ∧ 4 ≤ (fieldRd 0x63400000).toNat) ∧ (opcode 0x63000001 = 0x63 ∧ fieldAddr 0x63000001 ≠ 0) :=
  ⟨sample_inv, rfl, by decide, by decide, by decide, by decide⟩

/-- 1 byte at 0xFFF fits, 2 do not. -/
theorem witness_CbufIsCbyteRepeated : sample.err = false ∧ 4096 < (0xFFF : BitVec 12).toNat + (2 : BitVec 8).toNat ∧
    (0xFFF : BitVec 12).toNat + (1 : BitVec 8).toNat ≤ 4096 ∧ sample.gen 1 = 0 ∧ sample.gen 0 ≠ 0 ∧
    opcode 0x64400000 = 0x64 ∧ 4 ≤ (fieldRd 0x64400000).toNat := by decide

theorem witness_CrcAgreesWithPolynomialDivision : sample.err = false ∧ sample.gen 2 ≠ 0 ∧ sample.reg 2 = 0 := by decide

/-- A generator whose high half may be left out, one whose may not, and a stretch of DMEM that ends at its last byte. -/
theorem witness_ComputeRemainderSequence : sample.err = false ∧ (0 : BitVec 16) ++ (0x87 : BitVec 16) ≠ (0 : Word) ∧
    (1 : BitVec 16) ++ (0x1021 : BitVec 16) ≠ (0 : Word) ∧
    (0x20 : BitVec 12).toNat + (1 : BitVec 8).toNat ≤ 4096 ∧ (0xFFF : BitVec 12).toNat + (1 : BitVec 8).toNat ≤ 4096 := by
  decide

theorem witness_ContextsAreIndependent : (0 : CCtx) ≠ 2 ∧ sample.err = false ∧ sample.gen 0 ≠ 0 ∧ sample.gen 2 ≠ 0 := by
  decide

theorem witness_CrcIgnoresTheField : (Instr.cbyte 0 0x97).isCrc = true ∧ { sample with t := true }.c = sample.c ∧
    { sample with t := true }.dmem = sample.dmem ∧ { sample with t := true }.err = sample.err ∧
    (∃ t, exec (.cbyte 0 0x97) sample = .next t) ∧ ∃ t, exec (.cbyte 0 0x97) { sample with t := true } = .next t :=
  ⟨rfl, rfl, rfl, rfl, ⟨_, rfl⟩, ⟨_, rfl⟩⟩

theorem witness_SetmodChoosesTheField : sample.err = false ∧
    ((1 : BitVec 16).toNat < 2 ∨ 256 < (1 : BitVec 16).toNat) ∧
    ((257 : BitVec 16).toNat < 2 ∨ 256 < (257 : BitVec 16).toNat) ∧
    (2 ≤ (2 : BitVec 16).toNat ∧ (2 : BitVec 16).toNat ≤ 256) ∧
    (2 ≤ (256 : BitVec 16).toNat ∧ (256 : BitVec 16).toNat ≤ 256) := by decide

theorem witness_RdcsrReadsTheControlRegisters : 3 < (4 : BitVec 16).toNat ∧ sample.err = false ∧
    { sample with err := true }.err = true := by decide

theorem witness_NopAndErrclr : sample.Inv ∧ sample.err = false ∧ { sample with err := true }.err = true ∧
    (opcode 1 = 0 ∧ BitVec.extractLsb' 0 24 (1 : Word) ≠ 0) ∧
    (opcode 0x03800000 = 3 ∧ BitVec.extractLsb' 0 24 (0x03800000 : Word) ≠ 0) :=
  ⟨sample_inv, rfl, rfl, by decide, by decide⟩

theorem witness_HostBytes : sample.err = false ∧ (opcode 0x04100000 = 0x04 ∧ fieldRd 0x04100000 ≠ 0) ∧
    (opcode 0x05001000 = 0x05 ∧ (fieldRd 0x05001000 ≠ 0 ∨ fieldB8 0x05001000 ≠ 0)) := by decide

end Sys2Proof.Tests
end

section
/-! What the updates of the state do to the invariant `State.Inv`, that every step keeps it, and what a command leaves
unchanged (10_state.md; 43_crc_shift_xor.md for the CRC unit). -/

namespace Sys2Proof.Machine

/-! ### The invariant under each update of the state -/

section Invariant
variable {s : State}

theorem State.Inv.fieldLegal (h : s.Inv) : s.FieldLegal := ⟨h.modulus, h.elems, h.polys⟩

/-- The invariant says nothing of the host port, and `respond`, `drop`, `idle` and `accept` write only there. -/
theorem State.Inv.withPort (h : s.Inv) (w : Word) (r : Option Response) (evs : List HostEvent) :
    State.Inv { s with cmd := w, rsp := r, events := evs } :=
  ⟨h.modulus, h.elems, h.polys, h.crcs, h.faultRecord, h.dmem⟩

theorem State.Inv.withDmem (h : s.Inv) {mem : Memory} (hm : mem.wf = true) : State.Inv { s with dmem := mem } :=
  ⟨h.modulus, h.elems, h.polys, h.crcs, h.faultRecord, hm⟩

theorem State.Inv.setT (h : s.Inv) (b : Bool) : (s.setT b).Inv :=
  ⟨h.modulus, h.elems, h.polys, h.crcs, h.faultRecord, h.dmem⟩

theorem State.Inv.setElem (h : s.Inv) (r : EReg) (z : Int) : (s.setElem r (reduce s.m z)).Inv where
  modulus := h.modulus
  elems i := by
    rw [State.elem_setElem, State.m_setElem]
    split
    · exact reduce_lt (by have := h.modulus; omega) h.modulus.2 z
    · exact h.elems i
  polys := h.polys
  crcs := h.crcs
  faultRecord := h.faultRecord
  dmem := h.dmem

theorem State.Inv.setPoly (h : s.Inv) (r : PReg) {c : Poly} (hc : PolyLegal s.m c) : (s.setPoly r c).Inv where
  modulus := h.modulus
  elems := h.elems
  polys i := by
    rw [State.poly_setPoly, State.m_setPoly]
    split
    · exact hc
    · exact h.polys i
  crcs := h.crcs
  faultRecord := h.faultRecord
  dmem := h.dmem

theorem State.Inv.setReg (h : s.Inv) (c : CCtx) {r : Word} (hr : CrcLegal (s.gen c) r) : (s.setReg c r).Inv where
  modulus := h.modulus
  elems := h.elems
  polys := h.polys
  crcs i := by
    rw [State.gen_setReg, State.reg_setReg]
    split
    · next hi => exact hi ▸ hr
    · exact h.crcs i
  faultRecord := h.faultRecord
  dmem := h.dmem

/-- A cleared register is legal beside every generator, the zero generator included (R32). -/
theorem crcLegal_zero (g : Word) : CrcLegal g 0 := by
  by_cases hg : g = 0
  · exact .inl ⟨hg, rfl⟩
  · exact .inr ⟨hg, Nat.two_pow_pos _⟩

theorem State.Inv.loadGen (h : s.Inv) (c : CCtx) (g : Word) : (s.loadGen c g).Inv where
  modulus := h.modulus
  elems := h.elems
  polys := h.polys
  crcs i := by
    rw [State.gen_loadGen, State.reg_loadGen]
    split
    · exact crcLegal_zero g
    · exact h.crcs i
  faultRecord := h.faultRecord
  dmem := h.dmem

theorem State.Inv.writeBytes (h : s.Inv) {a : Nat} {bs : List Byte}
    (fits : bs = [] ∨ a + bs.length ≤ Config.dsize) : (s.writeBytes a bs).Inv := by
  rw [State.writeBytes_eq]
  exact h.withDmem (s.wf_writeBytes a bs h.dmem fits)

/-- SETMOD clears the registers, so no element or list is left that only the old modulus allowed (R224). -/
theorem State.Inv.setModulus (h : s.Inv) {n : Nat} (h2 : 2 ≤ n) (h256 : n ≤ 256) : (s.setModulus n).Inv := by
  have hm : (s.setModulus n).m = n := s.m_setModulus (by omega)
  exact
    { modulus := ⟨by omega, by omega⟩
      elems := fun i => by rw [State.elem_setModulus, hm]; exact Nat.lt_of_lt_of_le Nat.two_pos h2
      polys := fun i => by rw [State.poly_setModulus]; exact polyLegal_nil _
      crcs := h.crcs
      faultRecord := h.faultRecord
      dmem := h.dmem }

/-- Every fault that is raised, which CrossFieldOperand never is (R243), has a code CAUSE may hold. -/
theorem FaultCode.code_mem {f : FaultCode} (hf : f ≠ .crossFieldOperand) :
    f.code ∈ ([1, 3, 4, 5, 6, 7, 8] : List (BitVec 4)) := by
  cases f with
  | crossFieldOperand => exact absurd rfl hf
  | _ => decide

theorem State.Inv.takeFault (h : s.Inv) {f : FaultCode} (hf : f ≠ .crossFieldOperand) : (s.takeFault f).Inv where
  modulus := h.modulus
  elems := h.elems
  polys := h.polys
  crcs := h.crcs
  faultRecord := ⟨fun he => absurd he (by simp), fun _ => FaultCode.code_mem hf⟩
  dmem := h.dmem

theorem State.Inv.clearFault (h : s.Inv) : s.clearFault.Inv where
  modulus := h.modulus
  elems := h.elems
  polys := h.polys
  crcs := h.crcs
  faultRecord := ⟨fun _ => ⟨rfl, rfl⟩, fun he => absurd he (by simp)⟩
  dmem := h.dmem

theorem State.reset_inv : State.reset.Inv := by constructor <;> decide

/-- `rst` keeps DMEM, and takes everything else the invariant speaks of from the reset state (R271). -/
theorem State.applyReset_inv (h : s.DmemLegal) : s.applyReset.Inv :=
  (State.reset_inv.withDmem h).withPort _ _ s.events

end Invariant

/-! ### Every step keeps the invariant -/

/-- The one change of state a completed command makes keeps the invariant. -/
theorem Effect.inv {i : Instr} {s t : State} (ht : Effect i s t) (h : s.Inv) : t.Inv := by
  cases ht with
  | none => exact h
  | elem r z => exact h.setElem r z
  | poly r c _ legal => exact h.setPoly r (legal h.fieldLegal)
  | polys q r cq cr _ _ legal =>
    obtain ⟨hcq, hcr⟩ := legal h.fieldLegal
    exact (h.setPoly q hcq).setPoly r hcr
  | reg c r _ legal => exact h.setReg c (legal (h.crcs c))
  | gen c g => exact h.loadGen c g
  | flag b => exact h.setT b
  | bytes bs _ fits => exact h.writeBytes fits
  | modulus n _ h2 h256 => exact h.setModulus h2 h256

theorem State.Inv.exec {i : Instr} {s t : State} (h : s.Inv) (he : exec i s = .next t) : t.Inv := by
  cases exec_outcome i s with
  | errclr _ ho => cases ho.symm.trans he; exact h.clearFault.withPort _ _ _
  | csr _ _ _ _ ho => cases ho.symm.trans he; exact h.withPort _ _ _
  | dropped _ ho => cases ho.symm.trans he; exact h.withPort _ _ _
  | faulted _ f hf ho => cases ho.symm.trans he; exact h.takeFault hf
  | completed _ u v hu _ ho => cases ho.symm.trans he; exact (hu.inv h).withPort _ _ _

/-- Settles O9: an idle step and `rst` by their own rules, a command by what `exec` answers, and an illegal word by the
fault or the drop it ends in. -/
theorem everyStepKeepsTheInvariant : Obligations.EveryStepKeepsTheInvariant := by
  intro s t h hst
  rcases step_cases s with ⟨_, hs⟩ | ⟨rest, _, hs⟩ | ⟨w, rest, i, _, _, hs⟩ | ⟨w, rest, d, _, _, hs⟩
  · cases hs.symm.trans hst
    exact h.withPort _ _ _
  · cases hs.symm.trans hst
    exact State.applyReset_inv h.dmem
  · exact (h.withPort w s.rsp rest).exec (hs.symm.trans hst)
  · have ha : ({ s with events := rest }.accept w).Inv := h.withPort w s.rsp rest
    rcases State.command_cases ({ s with events := rest }.accept w) (.error .illegalCommand) with
      ⟨_, hc⟩ | ⟨_, _, hb, _⟩ | ⟨_, f, hb, hc⟩
    · cases (hs.trans hc).symm.trans hst
      exact ha.withPort _ _ _
    · cases hb
    · cases hb
      cases (hs.trans hc).symm.trans hst
      exact ha.takeFault (by decide)

/-! ### What a command leaves unchanged -/

section Frame
variable {i : Instr} {s t : State}

theorem Effect.elem_frame (h : Effect i s t) (hi : i.isSetmod = false) {r : EReg} (hr : r ∉ i.elemDest) :
    t.elem r = s.elem r := by
  cases h with
  | elem r' _ hr' => exact s.elem_setElem_other (ne_of_mem_of_not_mem hr' hr) _
  | bytes bs => rw [State.writeBytes_eq]; rfl
  | modulus _ hm => rw [hi] at hm; cases hm
  | none | poly | polys | reg | gen | flag => rfl

theorem Effect.poly_frame (h : Effect i s t) (hi : i.isSetmod = false) {r : PReg} (hr : r ∉ i.polyDest) :
    t.poly r = s.poly r := by
  cases h with
  | poly r' _ hr' => exact s.poly_setPoly_other (ne_of_mem_of_not_mem hr' hr) _
  | polys q r' _ _ hq hr' =>
    rw [State.poly_setPoly_other _ (ne_of_mem_of_not_mem hr' hr),
      State.poly_setPoly_other _ (ne_of_mem_of_not_mem hq hr)]
  | bytes bs => rw [State.writeBytes_eq]; rfl
  | modulus _ hm => rw [hi] at hm; cases hm
  | none | elem | reg | gen | flag => rfl

theorem Effect.modulus_frame (h : Effect i s t) (hi : i.isSetmod = false) : t.modulus = s.modulus := by
  cases h with
  | bytes bs => rw [State.writeBytes_eq]
  | modulus _ hm => rw [hi] at hm; cases hm
  | none | elem | poly | polys | reg | gen | flag => rfl

theorem Effect.context_frame (h : Effect i s t) {c : CCtx} (hc : c ∉ i.ctxDest) :
    t.gen c = s.gen c ∧ t.reg c = s.reg c := by
  cases h with
  | reg c' r hc' =>
    rw [State.gen_setReg, State.reg_setReg, if_neg (ne_of_mem_of_not_mem hc' hc)]
    exact ⟨rfl, rfl⟩
  | gen c' g hc' =>
    have hne := ne_of_mem_of_not_mem hc' hc
    rw [State.gen_loadGen, State.reg_loadGen, if_neg hne, if_neg hne]
    exact ⟨rfl, rfl⟩
  | bytes bs => rw [State.writeBytes_eq]; exact ⟨rfl, rfl⟩
  | none | elem | poly | polys | flag | modulus => exact ⟨rfl, rfl⟩

theorem Effect.t_frame (h : Effect i s t) (hi : i.writesT = false) : t.t = s.t := by
  cases h with
  | flag _ hb => rw [hi] at hb; cases hb
  | bytes bs => rw [State.writeBytes_eq]
  | none | elem | poly | polys | reg | gen | modulus => rfl

theorem Effect.faultRecord_frame (h : Effect i s t) : t.err = s.err ∧ t.cause = s.cause ∧ t.einfo = s.einfo := by
  cases h with
  | bytes bs => rw [State.writeBytes_eq]; exact ⟨rfl, rfl, rfl⟩
  | none | elem | poly | polys | reg | gen | flag | modulus => exact ⟨rfl, rfl, rfl⟩

theorem Effect.port_frame (h : Effect i s t) : t.cmd = s.cmd ∧ t.events = s.events := by
  cases h with
  | bytes bs => rw [State.writeBytes_eq]; exact ⟨rfl, rfl⟩
  | none | elem | poly | polys | reg | gen | flag | modulus => exact ⟨rfl, rfl⟩

/-- Beside the fault record and the response, a command changes the state by its one effect: a drop, a fault, ERRCLR and
RDCSR have none. -/
theorem exec_next_effect (h : exec i s = .next t) :
    ∃ u, Effect i s u ∧ t = { u with err := t.err, cause := t.cause, einfo := t.einfo, rsp := t.rsp } := by
  cases exec_outcome i s with
  | errclr _ ho => cases ho.symm.trans h; exact ⟨s, .none, rfl⟩
  | csr _ _ _ _ ho => cases ho.symm.trans h; exact ⟨s, .none, rfl⟩
  | dropped _ ho => cases ho.symm.trans h; exact ⟨s, .none, rfl⟩
  | faulted _ _ _ ho => cases ho.symm.trans h; exact ⟨s, .none, rfl⟩
  | completed _ u _ hu _ ho => cases ho.symm.trans h; exact ⟨u, hu, rfl⟩

/-- ERRCLR aside, a command leaves the fault record alone or takes ERR from 0 to 1 (R246). -/
theorem exec_next_faultRecord (hi : i ≠ .errclr) (h : exec i s = .next t) :
    (t.err = s.err ∧ t.cause = s.cause ∧ t.einfo = s.einfo) ∨ (s.err = false ∧ t.err = true) := by
  cases exec_outcome i s with
  | errclr he _ => exact absurd he hi
  | csr _ _ _ _ ho => cases ho.symm.trans h; exact .inl ⟨rfl, rfl, rfl⟩
  | dropped _ ho => cases ho.symm.trans h; exact .inl ⟨rfl, rfl, rfl⟩
  | faulted he _ _ ho => cases ho.symm.trans h; exact .inr ⟨he, rfl⟩
  | completed _ u _ hu _ ho => cases ho.symm.trans h; exact .inl hu.faultRecord_frame

end Frame

/-- Settles O16: the frame of the command's one effect, and the fault record by what `exec` answers. -/
theorem registersWrittenOnlyByTheirCommands : Obligations.RegistersWrittenOnlyByTheirCommands := by
  intro i s t h
  obtain ⟨u, hu, ht⟩ := exec_next_effect h
  have helem (r) : t.elem r = u.elem r := by rw [ht]; rfl
  have hpoly (r) : t.poly r = u.poly r := by rw [ht]; rfl
  have hgen (c) : t.gen c = u.gen c := by rw [ht]; rfl
  have hreg (c) : t.reg c = u.reg c := by rw [ht]; rfl
  refine ⟨fun hi => ⟨fun r hr => ?_, fun r hr => ?_, ?_⟩, fun c hc => ?_, fun hi => ?_, fun hi => ?_, ?_⟩
  · rw [helem, hu.elem_frame hi hr]
  · rw [hpoly, hu.poly_frame hi hr]
  · rw [ht, hu.modulus_frame hi]
  · rw [hgen, hreg]; exact hu.context_frame hc
  · rw [ht, hu.t_frame hi]
  · rcases exec_next_faultRecord hi h with ⟨herr, hrec⟩ | ⟨hs, ht1⟩
    · exact ⟨fun hs => herr.trans hs, fun _ => hrec⟩
    · exact ⟨fun _ => ht1, fun heq => by rw [hs, ht1] at heq; cases heq⟩
  · rw [ht]; exact hu.port_frame

/-! ### What the CRC unit reads and writes -/

/-- What a transfer reads, and whether it faults, depends on DMEM only. -/
theorem State.memRead_congr {s t : State} (h : t.dmem = s.dmem) (a n : Nat) : t.memRead a n = s.memRead a n := by
  simp only [State.memRead, State.readBytes_congr h]

/-! The rules of `State.execute`, as `State.command` and `State.query` have them. -/

theorem State.execute_drop {s : State} (h : s.err = true) (body : Except FaultCode (State × Word)) :
    s.execute body = .next s.drop := by simp [State.execute, h]

theorem State.execute_ok {s : State} (h : s.err = false) (r : State × Word) :
    s.execute (.ok r) = .next (r.1.respond r.2) := by simp [State.execute, h]

theorem State.execute_error {s : State} (h : s.err = false) (f : FaultCode) :
    s.execute (.error f) = .next (s.takeFault f) := by simp [State.execute, h]

/-- The command is a function of the contexts and DMEM: nothing else goes into its body, and nothing but new contexts
and a data word comes out of it. -/
def ConfinedToCrc (i : Instr) : Prop :=
  ∃ body : Vector CrcContext 4 → Memory → Except FaultCode (Vector CrcContext 4 × Word),
    ∀ s, exec i s = s.execute ((body s.c s.dmem).map fun r => ({ s with c := r.1 }, r.2))

/-- A command that writes one REG with what it works out from the contexts and DMEM. -/
theorem ConfinedToCrc.of_setReg {i : Instr} {c : CCtx} (x : Vector CrcContext 4 → Memory → Except FaultCode Word)
    (h : ∀ s, exec i s = s.command ((x s.c s.dmem).map (s.setReg c))) : ConfinedToCrc i := by
  refine ⟨fun cs mem => (x cs mem).map fun r => (cs.set c { cs[c] with reg := r }, 0), fun s => ?_⟩
  rw [h, State.command]
  dsimp only
  cases x s.c s.dmem <;> rfl

/-- A command that loads a generator worked out from the contexts. -/
theorem ConfinedToCrc.of_loadGen {i : Instr} {c : CCtx} (g : Vector CrcContext 4 → Word)
    (h : ∀ s, exec i s = s.command (.ok (s.loadGen c (g s.c)))) : ConfinedToCrc i :=
  ⟨fun cs _ => .ok (cs.set c ⟨g cs, 0⟩, 0), h⟩

theorem confinedToCrc_of_isCrc {i : Instr} (hi : i.isCrc = true) : ConfinedToCrc i := by
  cases i with
  | cgenl c imm => exact .of_loadGen (fun _ => imm.setWidth 32) fun _ => rfl
  | cgenh c imm => exact .of_loadGen (fun cs => imm ++ cs[c].gen.extractLsb' 0 16) fun _ => rfl
  | cinit c => exact .of_setReg (fun _ _ => .ok 0) fun _ => rfl
  | cbyte c b => exact .of_setReg (fun cs _ => cbyte cs[c].reg cs[c].gen b) fun _ => rfl
  | cbuf c cnt addr =>
    refine .of_setReg (c := c) (fun cs mem =>
      ({ State.reset with dmem := mem }.memRead (address addr) (unsignedImm cnt)).bind
        (cbufBody cs[c].reg cs[c].gen)) fun s => ?_
    have hread : { State.reset with dmem := s.dmem }.memRead (address addr) (unsignedImm cnt) =
        s.memRead (address addr) (unsignedImm cnt) := State.memRead_congr (by rfl) _ _
    rw [hread, exec, execCbuf]
    cases s.memRead (address addr) (unsignedImm cnt) <;> rfl
  | crd c => exact ⟨fun cs _ => .ok (cs, cs[c].reg), fun _ => rfl⟩
  | _ => cases hi

/-- Settles O50: both runs are the one body on the same contexts and DMEM, dropped, faulted or completed alike. -/
theorem crcIgnoresTheField : Obligations.CrcIgnoresTheField := by
  intro i s s' t t' hi hc hd he ht ht'
  obtain ⟨body, hbody⟩ := confinedToCrc_of_isCrc hi
  rw [hbody] at ht ht'
  rw [hc, hd] at ht'
  cases herr : s.err with
  | true =>
    cases (State.execute_drop herr _).symm.trans ht
    cases (State.execute_drop (he.trans herr) _).symm.trans ht'
    exact ⟨hc, rfl, he, rfl, rfl, rfl, rfl⟩
  | false =>
    cases hb : body s.c s.dmem with
    | error f =>
      rw [hb] at ht ht'
      cases (State.execute_error herr f).symm.trans ht
      cases (State.execute_error (he.trans herr) f).symm.trans ht'
      exact ⟨hc, rfl, rfl, rfl, rfl, rfl, rfl⟩
    | ok r =>
      rw [hb] at ht ht'
      cases (State.execute_ok herr _).symm.trans ht
      cases (State.execute_ok (he.trans herr) _).symm.trans ht'
      exact ⟨rfl, rfl, he, rfl, rfl, rfl, rfl⟩

end Sys2Proof.Machine
end

section
/-! What a command leaves of DMEM (20_memory.md R51). -/

namespace Sys2Proof.Machine

/-- A store is the one effect that reaches DMEM, and it fills the bytes `Instr.stores` gives. -/
theorem Effect.dmem_frame {i : Instr} {s t : State} (h : Effect i s t) {a : Nat}
    (ha : ¬((i.stores s).1 ≤ a ∧ a < (i.stores s).1 + (i.stores s).2)) : t.readByte a = s.readByte a := by
  cases h with
  | bytes bs hlen _ =>
    rw [← hlen] at ha
    rw [State.readByte_writeBytes, if_neg ha]
  | none | elem | poly | polys | reg | gen | flag | modulus => exact State.readByte_congr (by rfl) a

/-- Settles O15: beside the fault record and the response a command has one effect, and that effect keeps the bytes no
store fills. -/
theorem onlyStoresWriteDmem : Obligations.OnlyStoresWriteDmem := by
  intro i s t h a ha
  obtain ⟨u, hu, ht⟩ := exec_next_effect h
  have hut : t.dmem = u.dmem := by rw [ht]
  exact (State.readByte_congr hut a).trans (hu.dmem_frame ha)

end Sys2Proof.Machine
end

section
/-! The decoder against the encoder and against the opcode map (30_encoding.md R71 to R78): each gives back what the
other took, and a word decodes exactly when the one row that can accept it does. -/

namespace Sys2Proof

/-! ### The decoder on the encoder's words -/

/-- Settles O1: the encoder writes the fields from which the decoder of the command's operand shape reads its operands
back. -/
theorem decodeInvertsEncode : Obligations.DecodeInvertsEncode := by
  intro i hi
  cases i with
  | fli => simp [decode, encode, decEImm]
  | fld | fst => simp [decode, encode, decEAddr]
  | frd => simp [decode, encode, decReadE]
  | feq => simp [decode, encode, decTestEE]
  | fadd | fsub | fmul | fdiv | fmod | fpow | fshl | fshr | fand | for_ | fxor => simp [decode, encode, decEEE]
  | fneg | fpos | fabs | finv | fround | ftrunc | ffloor | fceil => simp [decode, encode, decEE]
  | pld => simp [decode, encode, decPCntAddr]
  | pst => simp [decode, encode, decPAddr]
  | plen | pdeg | pnz => simp [decode, encode, decReadP]
  | pgrade | pshl | ppow => simp [decode, encode, decPPImm]
  | pshort => simp [decode, encode, decPP]
  | padd | psub | pmul | pdiv | pmod => simp [decode, encode, decPPP]
  | pscale => simp [decode, encode, decPPE]
  | pdivmod pq pr =>
    have hne : pq ≠ pr := of_decide_eq_true hi
    simp [decode, encode, decPPPP, hne]
  | peval => simp [decode, encode, decEPE]
  | peq | pgt => simp [decode, encode, decTestPP]
  | cgenl | cgenh => simp [decode, encode, decCImm]
  | cinit => simp [decode, encode, decC]
  | cbyte => simp [decode, encode, decCByte]
  | cbuf => simp [decode, encode, decCCntAddr]
  | crd => simp [decode, encode, decReadC]
  | nop | errclr => simp [decode, encode, decBare]
  | setmod | rdcsr => simp [decode, encode, decImm]
  | stb => simp [decode, encode, decByteAddr]
  | ldb => simp [decode, encode, decAddr]

/-- Settles O4: the decoder evaluated on each word. -/
theorem specWordsDecode : Obligations.SpecWordsDecode := by
  unfold Obligations.SpecWordsDecode; decide

/-! ### When the checks of R73 step 2 let a word through -/

@[simp] theorem exists_withZero_eq_ok {b : Bool} {k : Decoded} :
    (∃ i, withZero b k = .ok i) ↔ b = true ∧ ∃ i, k = .ok i := by
  cases b <;> simp [withZero]

@[simp] theorem exists_withP_eq_ok {f : BitVec 4} {k : PReg → Decoded} :
    (∃ i, withP f k = .ok i) ↔ ∃ r, regP r = f ∧ ∃ i, k r = .ok i := by
  refine ⟨fun ⟨i, h⟩ => ?_, fun ⟨r, hr, i, h⟩ => ⟨i, by rw [← hr, withP_regP, h]⟩⟩
  obtain ⟨r, hr, h⟩ := withP_eq_ok h
  exact ⟨r, hr, i, h⟩

@[simp] theorem exists_withC_eq_ok {f : BitVec 4} {k : CCtx → Decoded} :
    (∃ i, withC f k = .ok i) ↔ ∃ r, regC r = f ∧ ∃ i, k r = .ok i := by
  refine ⟨fun ⟨i, h⟩ => ?_, fun ⟨r, hr, i, h⟩ => ⟨i, by rw [← hr, withC_regC, h]⟩⟩
  obtain ⟨r, hr, h⟩ := withC_eq_ok h
  exact ⟨r, hr, i, h⟩

/-- Four bits are the field of a polynomial register index exactly when the top bit is 0. -/
@[simp] theorem exists_regP_eq {f : BitVec 4} : (∃ r, regP r = f) ↔ f &&& 8#4 = 0#4 := by
  revert f; decide

/-- Four bits are the field of a CRC context index exactly when the two top bits are 0. -/
@[simp] theorem exists_regC_eq {f : BitVec 4} : (∃ r, regC r = f) ↔ f &&& 12#4 = 0#4 := by
  revert f; decide

/-! ### The zero bits of a word, field by field -/

@[simp] theorem and_all4 (x : BitVec 4) : x &&& 15#4 = x := BitVec.and_allOnes
@[simp] theorem and_all8 (x : BitVec 8) : x &&& 255#8 = x := Laws.EncodesItsRow.and_all8 x
@[simp] theorem and_all12 (x : BitVec 12) : x &&& 4095#12 = x := BitVec.and_allOnes

section Literal
variable (n : Nat)

@[simp] theorem opcode_ofNat : opcode (BitVec.ofNat 32 n) = BitVec.ofNat 8 (n / 16777216) :=
  BitVec.eq_of_toNat_eq (by rw [opcode_toNat, BitVec.toNat_ofNat, BitVec.toNat_ofNat]; omega)
@[simp] theorem fieldRd_ofNat : fieldRd (BitVec.ofNat 32 n) = BitVec.ofNat 4 (n / 1048576) :=
  BitVec.eq_of_toNat_eq (by rw [fieldRd_toNat, BitVec.toNat_ofNat, BitVec.toNat_ofNat]; omega)
@[simp] theorem fieldRa_ofNat : fieldRa (BitVec.ofNat 32 n) = BitVec.ofNat 4 (n / 65536) :=
  BitVec.eq_of_toNat_eq (by rw [fieldRa_toNat, BitVec.toNat_ofNat, BitVec.toNat_ofNat]; omega)
@[simp] theorem fieldRb_ofNat : fieldRb (BitVec.ofNat 32 n) = BitVec.ofNat 4 (n / 4096) :=
  BitVec.eq_of_toNat_eq (by rw [fieldRb_toNat, BitVec.toNat_ofNat, BitVec.toNat_ofNat]; omega)
@[simp] theorem fieldRc_ofNat : fieldRc (BitVec.ofNat 32 n) = BitVec.ofNat 4 (n / 256) :=
  BitVec.eq_of_toNat_eq (by rw [fieldRc_toNat, BitVec.toNat_ofNat, BitVec.toNat_ofNat]; omega)
@[simp] theorem fieldZero_ofNat : fieldZero (BitVec.ofNat 32 n) = BitVec.ofNat 8 n :=
  BitVec.eq_of_toNat_eq (by rw [fieldZero_toNat, BitVec.toNat_ofNat, BitVec.toNat_ofNat]; omega)
@[simp] theorem fieldImm_ofNat : fieldImm (BitVec.ofNat 32 n) = BitVec.ofNat 16 n :=
  BitVec.eq_of_toNat_eq (by rw [fieldImm_toNat, BitVec.toNat_ofNat, BitVec.toNat_ofNat]; omega)
@[simp] theorem fieldB8_ofNat : fieldB8 (BitVec.ofNat 32 n) = BitVec.ofNat 8 (n / 4096) :=
  BitVec.eq_of_toNat_eq (by rw [fieldB8_toNat, BitVec.toNat_ofNat, BitVec.toNat_ofNat]; omega)
@[simp] theorem fieldAddr_ofNat : fieldAddr (BitVec.ofNat 32 n) = BitVec.ofNat 12 n :=
  BitVec.eq_of_toNat_eq (by rw [fieldAddr_toNat, BitVec.toNat_ofNat, BitVec.toNat_ofNat]; omega)

end Literal

theorem and_eq_zero_iff_R (w v : Word) : w &&& v = 0#32 ↔
    opcode w &&& opcode v = 0#8 ∧ fieldRd w &&& fieldRd v = 0#4 ∧ fieldRa w &&& fieldRa v = 0#4 ∧
    fieldRb w &&& fieldRb v = 0#4 ∧ fieldRc w &&& fieldRc v = 0#4 ∧ fieldZero w &&& fieldZero v = 0#8 := by
  rw [word_ext_R, opcode_and, fieldRd_and, fieldRa_and, fieldRb_and, fieldRc_and, fieldZero_and]; rfl

theorem and_eq_zero_iff_I (w v : Word) : w &&& v = 0#32 ↔
    opcode w &&& opcode v = 0#8 ∧ fieldRd w &&& fieldRd v = 0#4 ∧ fieldRa w &&& fieldRa v = 0#4 ∧
    fieldImm w &&& fieldImm v = 0#16 := by
  rw [word_ext_I, opcode_and, fieldRd_and, fieldRa_and, fieldImm_and]; rfl

theorem and_eq_zero_iff_M (w v : Word) : w &&& v = 0#32 ↔
    opcode w &&& opcode v = 0#8 ∧ fieldRd w &&& fieldRd v = 0#4 ∧ fieldB8 w &&& fieldB8 v = 0#8 ∧
    fieldAddr w &&& fieldAddr v = 0#12 := by
  rw [word_ext_M, opcode_and, fieldRd_and, fieldB8_and, fieldAddr_and]; rfl

/-! ### The operand shapes -/

/-- The word is the encoding of the command, a well-formed one (R71, R73 step 3). -/
def Encodes (i : Instr) (w : Word) : Prop := i.wellFormed = true ∧ encode i = w

/-- What the decoder of an operand shape does under the opcode `op`: the command it answers is the one that the word
encodes, and it answers one exactly when the bits of `unused` are zero (R73 step 2). -/
structure Reads (op : BitVec 8) (unused : Word) (dec : Word → Decoded) : Prop where
  encodes : ∀ {w i}, opcode w = op → dec w = .ok i → Encodes i w
  ok_iff : ∀ w, (∃ i, dec w = .ok i) ↔ w &&& unused = 0#32

theorem decEImm_reads {op : BitVec 8} {k : EReg → BitVec 16 → Instr}
    (hk : ∀ d n, Encodes (k d n) (fmtI op (regE d) 0 n)) :
    Reads op 0x000F0000 (decEImm · k) where
  encodes ho h := by
    obtain ⟨d, n, rfl, hw⟩ := decEImm_eq_ok h
    exact hw ▸ ho ▸ hk d n
  ok_iff w := by
    rw [and_eq_zero_iff_I]; simp [decEImm]

theorem decEAddr_reads {op : BitVec 8} {k : EReg → BitVec 12 → Instr}
    (hk : ∀ d x, Encodes (k d x) (fmtM op (regE d) 0 x)) :
    Reads op 0x000FF000 (decEAddr · k) where
  encodes ho h := by
    obtain ⟨d, x, rfl, hw⟩ := decEAddr_eq_ok h
    exact hw ▸ ho ▸ hk d x
  ok_iff w := by
    rw [and_eq_zero_iff_M]; simp [decEAddr]

theorem decReadE_reads {op : BitVec 8} {k : EReg → Instr}
    (hk : ∀ a, Encodes (k a) (fmtR op 0 (regE a) 0 0)) :
    Reads op 0x00F0FFFF (decReadE · k) where
  encodes ho h := by
    obtain ⟨a, rfl, hw⟩ := decReadE_eq_ok h
    exact hw ▸ ho ▸ hk a
  ok_iff w := by
    rw [and_eq_zero_iff_R]; simp [decReadE, and_assoc, and_comm, and_left_comm]

theorem decTestEE_reads {op : BitVec 8} {k : EReg → EReg → Instr}
    (hk : ∀ a b, Encodes (k a b) (fmtR op 0 (regE a) (regE b) 0)) :
    Reads op 0x00F00FFF (decTestEE · k) where
  encodes ho h := by
    obtain ⟨a, b, rfl, hw⟩ := decTestEE_eq_ok h
    exact hw ▸ ho ▸ hk a b
  ok_iff w := by
    rw [and_eq_zero_iff_R]; simp [decTestEE, and_assoc, and_comm, and_left_comm]

theorem decEEE_reads {op : BitVec 8} {k : EReg → EReg → EReg → Instr}
    (hk : ∀ d a b, Encodes (k d a b) (fmtR op (regE d) (regE a) (regE b) 0)) :
    Reads op 0x00000FFF (decEEE · k) where
  encodes ho h := by
    obtain ⟨d, a, b, rfl, hw⟩ := decEEE_eq_ok h
    exact hw ▸ ho ▸ hk d a b
  ok_iff w := by
    rw [and_eq_zero_iff_R]; simp [decEEE]

theorem decEE_reads {op : BitVec 8} {k : EReg → EReg → Instr}
    (hk : ∀ d a, Encodes (k d a) (fmtR op (regE d) (regE a) 0 0)) :
    Reads op 0x0000FFFF (decEE · k) where
  encodes ho h := by
    obtain ⟨d, a, rfl, hw⟩ := decEE_eq_ok h
    exact hw ▸ ho ▸ hk d a
  ok_iff w := by
    rw [and_eq_zero_iff_R]; simp [decEE, and_assoc, and_comm]

theorem decPCntAddr_reads {op : BitVec 8} {k : PReg → BitVec 8 → BitVec 12 → Instr}
    (hk : ∀ d n x, Encodes (k d n x) (fmtM op (regP d) n x)) :
    Reads op 0x00800000 (decPCntAddr · k) where
  encodes ho h := by
    obtain ⟨d, n, x, rfl, hw⟩ := decPCntAddr_eq_ok h
    exact hw ▸ ho ▸ hk d n x
  ok_iff w := by
    rw [and_eq_zero_iff_M]; simp [decPCntAddr]

theorem decPAddr_reads {op : BitVec 8} {k : PReg → BitVec 12 → Instr}
    (hk : ∀ d x, Encodes (k d x) (fmtM op (regP d) 0 x)) :
    Reads op 0x008FF000 (decPAddr · k) where
  encodes ho h := by
    obtain ⟨d, x, rfl, hw⟩ := decPAddr_eq_ok h
    exact hw ▸ ho ▸ hk d x
  ok_iff w := by
    rw [and_eq_zero_iff_M]; simp [decPAddr, and_comm]

theorem decReadP_reads {op : BitVec 8} {k : PReg → Instr}
    (hk : ∀ a, Encodes (k a) (fmtR op 0 (regP a) 0 0)) :
    Reads op 0x00F8FFFF (decReadP · k) where
  encodes ho h := by
    obtain ⟨a, rfl, hw⟩ := decReadP_eq_ok h
    exact hw ▸ ho ▸ hk a
  ok_iff w := by
    rw [and_eq_zero_iff_R]; simp [decReadP, and_assoc, and_comm, and_left_comm]

theorem decPPImm_reads {op : BitVec 8} {k : PReg → PReg → BitVec 16 → Instr}
    (hk : ∀ d a n, Encodes (k d a n) (fmtI op (regP d) (regP a) n)) :
    Reads op 0x00880000 (decPPImm · k) where
  encodes ho h := by
    obtain ⟨d, a, n, rfl, hw⟩ := decPPImm_eq_ok h
    exact hw ▸ ho ▸ hk d a n
  ok_iff w := by
    rw [and_eq_zero_iff_I]; simp [decPPImm]

theorem decPP_reads {op : BitVec 8} {k : PReg → PReg → Instr}
    (hk : ∀ d a, Encodes (k d a) (fmtR op (regP d) (regP a) 0 0)) :
    Reads op 0x0088FFFF (decPP · k) where
  encodes ho h := by
    obtain ⟨d, a, rfl, hw⟩ := decPP_eq_ok h
    exact hw ▸ ho ▸ hk d a
  ok_iff w := by
    rw [and_eq_zero_iff_R]; simp [decPP, and_assoc, and_comm, and_left_comm]

theorem decPPP_reads {op : BitVec 8} {k : PReg → PReg → PReg → Instr}
    (hk : ∀ d a b, Encodes (k d a b) (fmtR op (regP d) (regP a) (regP b) 0)) :
    Reads op 0x00888FFF (decPPP · k) where
  encodes ho h := by
    obtain ⟨d, a, b, rfl, hw⟩ := decPPP_eq_ok h
    exact hw ▸ ho ▸ hk d a b
  ok_iff w := by
    rw [and_eq_zero_iff_R]; simp [decPPP, and_assoc, and_comm, and_left_comm]

theorem decPPE_reads {op : BitVec 8} {k : PReg → PReg → EReg → Instr}
    (hk : ∀ d a b, Encodes (k d a b) (fmtR op (regP d) (regP a) (regE b) 0)) :
    Reads op 0x00880FFF (decPPE · k) where
  encodes ho h := by
    obtain ⟨d, a, b, rfl, hw⟩ := decPPE_eq_ok h
    exact hw ▸ ho ▸ hk d a b
  ok_iff w := by
    rw [and_eq_zero_iff_R]; simp [decPPE, and_assoc, and_comm, and_left_comm]

theorem decEPE_reads {op : BitVec 8} {k : EReg → PReg → EReg → Instr}
    (hk : ∀ d a b, Encodes (k d a b) (fmtR op (regE d) (regP a) (regE b) 0)) :
    Reads op 0x00080FFF (decEPE · k) where
  encodes ho h := by
    obtain ⟨d, a, b, rfl, hw⟩ := decEPE_eq_ok h
    exact hw ▸ ho ▸ hk d a b
  ok_iff w := by
    rw [and_eq_zero_iff_R]; simp [decEPE, and_comm]

theorem decTestPP_reads {op : BitVec 8} {k : PReg → PReg → Instr}
    (hk : ∀ a b, Encodes (k a b) (fmtR op 0 (regP a) (regP b) 0)) :
    Reads op 0x00F88FFF (decTestPP · k) where
  encodes ho h := by
    obtain ⟨a, b, rfl, hw⟩ := decTestPP_eq_ok h
    exact hw ▸ ho ▸ hk a b
  ok_iff w := by
    rw [and_eq_zero_iff_R]; simp [decTestPP, and_assoc, and_comm, and_left_comm]

theorem decCImm_reads {op : BitVec 8} {k : CCtx → BitVec 16 → Instr}
    (hk : ∀ c n, Encodes (k c n) (fmtI op (regC c) 0 n)) :
    Reads op 0x00CF0000 (decCImm · k) where
  encodes ho h := by
    obtain ⟨c, n, rfl, hw⟩ := decCImm_eq_ok h
    exact hw ▸ ho ▸ hk c n
  ok_iff w := by
    rw [and_eq_zero_iff_I]; simp [decCImm, and_comm]

theorem decC_reads {op : BitVec 8} {k : CCtx → Instr}
    (hk : ∀ c, Encodes (k c) (fmtR op (regC c) 0 0 0)) :
    Reads op 0x00CFFFFF (decC · k) where
  encodes ho h := by
    obtain ⟨c, rfl, hw⟩ := decC_eq_ok h
    exact hw ▸ ho ▸ hk c
  ok_iff w := by
    rw [and_eq_zero_iff_R]; simp [decC, and_assoc, and_comm, and_left_comm]

theorem decCByte_reads {op : BitVec 8} {k : CCtx → BitVec 8 → Instr}
    (hk : ∀ c n, Encodes (k c n) (fmtM op (regC c) n 0)) :
    Reads op 0x00C00FFF (decCByte · k) where
  encodes ho h := by
    obtain ⟨c, n, rfl, hw⟩ := decCByte_eq_ok h
    exact hw ▸ ho ▸ hk c n
  ok_iff w := by
    rw [and_eq_zero_iff_M]; simp [decCByte, and_comm]

theorem decCCntAddr_reads {op : BitVec 8} {k : CCtx → BitVec 8 → BitVec 12 → Instr}
    (hk : ∀ c n x, Encodes (k c n x) (fmtM op (regC c) n x)) :
    Reads op 0x00C00000 (decCCntAddr · k) where
  encodes ho h := by
    obtain ⟨c, n, x, rfl, hw⟩ := decCCntAddr_eq_ok h
    exact hw ▸ ho ▸ hk c n x
  ok_iff w := by
    rw [and_eq_zero_iff_M]; simp [decCCntAddr]

theorem decReadC_reads {op : BitVec 8} {k : CCtx → Instr}
    (hk : ∀ c, Encodes (k c) (fmtR op 0 (regC c) 0 0)) :
    Reads op 0x00FCFFFF (decReadC · k) where
  encodes ho h := by
    obtain ⟨c, rfl, hw⟩ := decReadC_eq_ok h
    exact hw ▸ ho ▸ hk c
  ok_iff w := by
    rw [and_eq_zero_iff_R]; simp [decReadC, and_assoc, and_comm, and_left_comm]

theorem decBare_reads {op : BitVec 8} {k : Instr}
    (hk : Encodes k (fmtR op 0 0 0 0)) :
    Reads op 0x00FFFFFF (decBare · k) where
  encodes ho h := by
    obtain ⟨rfl, hw⟩ := decBare_eq_ok h
    exact hw ▸ ho ▸ hk
  ok_iff w := by
    rw [and_eq_zero_iff_R]; simp [decBare, and_assoc, and_comm, and_left_comm]

theorem decImm_reads {op : BitVec 8} {k : BitVec 16 → Instr}
    (hk : ∀ n, Encodes (k n) (fmtI op 0 0 n)) :
    Reads op 0x00FF0000 (decImm · k) where
  encodes ho h := by
    obtain ⟨n, rfl, hw⟩ := decImm_eq_ok h
    exact hw ▸ ho ▸ hk n
  ok_iff w := by
    rw [and_eq_zero_iff_I]; simp [decImm]

theorem decByteAddr_reads {op : BitVec 8} {k : BitVec 12 → BitVec 8 → Instr}
    (hk : ∀ x n, Encodes (k x n) (fmtM op 0 n x)) :
    Reads op 0x00F00000 (decByteAddr · k) where
  encodes ho h := by
    obtain ⟨x, n, rfl, hw⟩ := decByteAddr_eq_ok h
    exact hw ▸ ho ▸ hk x n
  ok_iff w := by
    rw [and_eq_zero_iff_M]; simp [decByteAddr]

theorem decAddr_reads {op : BitVec 8} {k : BitVec 12 → Instr}
    (hk : ∀ x, Encodes (k x) (fmtM op 0 0 x)) :
    Reads op 0x00FFF000 (decAddr · k) where
  encodes ho h := by
    obtain ⟨x, rfl, hw⟩ := decAddr_eq_ok h
    exact hw ▸ ho ▸ hk x
  ok_iff w := by
    rw [and_eq_zero_iff_M]; simp [decAddr]

/-! ### The rows of the opcode map -/

theorem opcodeRows_opcode_mask : ∀ r ∈ opcodeRows, opcode r.mask = 255#8 := by decide

/-- The opcodes of R78; every other opcode is reserved (R75). -/
theorem opcodeRows_opcodes : (opcodeRows.map fun r => (opcode r.pattern).toNat) =
    [0x10, 0x11, 0x12, 0x13, 0x14, 0x18, 0x19, 0x1A, 0x1B, 0x1C, 0x1D, 0x1E, 0x1F, 0x20, 0x21, 0x22, 0x28, 0x29,
     0x2A, 0x2B, 0x2C, 0x2D, 0x2E, 0x2F, 0x40, 0x41, 0x42, 0x43, 0x44, 0x45, 0x46, 0x48, 0x49, 0x4A, 0x4B, 0x4C,
     0x4D, 0x4E, 0x4F, 0x50, 0x51, 0x52, 0x53, 0x60, 0x61, 0x62, 0x63, 0x64, 0x65, 0x00, 0x01, 0x02, 0x03, 0x04,
     0x05] := by
  decide

/-- No opcode stands in two rows (R78). -/
theorem opcodeRows_opcode_nodup : (opcodeRows.map fun r => opcode r.pattern).Nodup := by decide

theorem opcode_of_accepts {r : OpcodeRow} (hr : r ∈ opcodeRows) {w : Word} (h : r.accepts w = true) :
    opcode r.pattern = opcode w := by
  obtain ⟨ho, _⟩ := (r.accepts_iff_R w).1 h
  rw [← ho, opcodeRows_opcode_mask r hr, and_all8]

/-- The one row that can accept a word is the row of its opcode. -/
theorem row_eq_of_accepts {r r' : OpcodeRow} (hr : r ∈ opcodeRows) (hr' : r' ∈ opcodeRows) {w : Word}
    (ho : opcode r.pattern = opcode w) (h : r'.accepts w = true) : r' = r :=
  List.inj_on_of_nodup_map opcodeRows_opcode_nodup hr' hr ((opcode_of_accepts hr' h).trans ho.symm)

/-- What the mask of the opcode leaves of a word. -/
theorem and_opcode_mask (w : Word) : w &&& 0xFF000000#32 = fmtI (opcode w) 0 0 0 := by
  rw [word_ext_I, opcode_and, fieldRd_and, fieldRa_and, fieldImm_and, opcode_fmtI, fieldRd_fmtI, fieldRa_fmtI,
    fieldImm_fmtI]
  exact ⟨and_all8 _, BitVec.and_zero, BitVec.and_zero, BitVec.and_zero⟩

/-- The row is in the map and tests the opcode `op` and the zero bits `unused` and nothing else. -/
abbrev OpcodeRow.Has (r : OpcodeRow) (op : BitVec 8) (unused : Word) : Prop :=
  r ∈ opcodeRows ∧ r.mask = 0xFF000000#32 ||| unused ∧ r.mask &&& unused = unused ∧
    r.pattern = fmtI op 0 0 0 ∧ r.pattern &&& unused = 0#32

theorem OpcodeRow.Has.accepts_iff {r : OpcodeRow} {op : BitVec 8} {unused : Word} (h : r.Has op unused) {w : Word}
    (ho : opcode w = op) : r.accepts w = true ↔ w &&& unused = 0#32 := by
  obtain ⟨_, hmask, hsub, hpat, hdisj⟩ := h
  rw [OpcodeRow.accepts, beq_iff_eq]
  constructor
  · intro ha
    rw [← hsub, ← BitVec.and_assoc, ha, hdisj]
  · intro hu
    rw [hmask, BitVec.and_or_distrib_left, hu, and_opcode_mask, ho, hpat, BitVec.or_zero]

/-! ### The decoder as the opcode map has it -/

/-- An answer to the word is what R73 says: a command only if the word is its one encoding, and some command exactly
when a row of R78 accepts the word and it is no PDIVMOD with rd = rc. -/
structure AgreesWithTable (w : Word) (d : Decoded) : Prop where
  encodes : ∀ {i}, d = .ok i → Encodes i w
  ok_iff : (∃ i, d = .ok i) ↔
    (∃ r ∈ opcodeRows, r.accepts w = true) ∧ ¬(opcode w = 0x4C ∧ fieldRd w = fieldRc w)

/-- The row of the word's opcode is the only one that can accept it, so it alone has to be compared with the decoder. -/
theorem AgreesWithTable.of_row {w : Word} {r : OpcodeRow} {op : BitVec 8} {unused : Word} {d : Decoded}
    (hr : r.Has op unused) (ho : opcode w = op) (henc : ∀ {i}, d = .ok i → Encodes i w)
    (hok : (∃ i, d = .ok i) ↔ w &&& unused = 0#32 ∧ ¬(op = 0x4C ∧ fieldRd w = fieldRc w)) :
    AgreesWithTable w d := by
  refine ⟨henc, hok.trans ?_⟩
  have hpat : opcode r.pattern = opcode w := by
    obtain ⟨_, _, _, hpat, _⟩ := hr
    rw [hpat, opcode_fmtI, ho]
  have hrow : (∃ r ∈ opcodeRows, r.accepts w = true) ↔ r.accepts w = true :=
    ⟨fun ⟨r', hr', h⟩ => row_eq_of_accepts hr.1 hr' hpat h ▸ h, fun h => ⟨r, hr.1, h⟩⟩
  rw [hrow, hr.accepts_iff ho, ho]

/-- A row other than PDIVMOD's, whose zero bits are those its operand shape wants zero. -/
theorem AgreesWithTable.of_reads {w : Word} {n : Nat} {unused : Word} {dec : Word → Decoded} (r : OpcodeRow)
    (ho : (opcode w).toNat = n) (hd : Reads (BitVec.ofNat 8 n) unused dec)
    (hr : r.Has (BitVec.ofNat 8 n) unused ∧ BitVec.ofNat 8 n ≠ 0x4C#8) : AgreesWithTable w (dec w) := by
  have hop : opcode w = BitVec.ofNat 8 n := by rw [← ho, BitVec.ofNat_toNat, BitVec.setWidth_eq]
  refine .of_row hr.1 hop (hd.encodes hop) ((hd.ok_iff w).trans ?_)
  exact (and_iff_left fun h => hr.2 h.1).symm

theorem regP_injective {r r' : PReg} (h : regP r = regP r') : r = r' :=
  Fin.ext (by rw [← regP_toNat, ← regP_toNat, h])

theorem decPPPP_ok_iff (w : Word) (k : PReg → PReg → PReg → PReg → Instr) :
    (∃ i, decPPPP w k = .ok i) ↔ w &&& 0x008888FF = 0#32 ∧ fieldRd w ≠ fieldRc w := by
  rw [and_eq_zero_iff_R]
  constructor
  · rintro ⟨i, h⟩
    obtain ⟨d, r, a, b, -, hw, hne⟩ := decPPPP_eq_ok h
    generalize opcode w = op at hw
    subst hw
    rw [fieldRd_fmtR, fieldRa_fmtR, fieldRb_fmtR, fieldRc_fmtR, fieldZero_fmtR]
    exact ⟨⟨BitVec.and_zero, regP_and_top d, regP_and_top a, regP_and_top b, regP_and_top r, BitVec.zero_and⟩,
      fun heq => hne (regP_injective heq)⟩
  · rintro ⟨⟨-, hd, ha, hb, hr, hz⟩, hne⟩
    obtain ⟨d, hd⟩ := exists_regP_eq.2 hd
    obtain ⟨r, hr⟩ := exists_regP_eq.2 hr
    obtain ⟨a, ha⟩ := exists_regP_eq.2 ha
    obtain ⟨b, hb⟩ := exists_regP_eq.2 hb
    have hdr : d ≠ r := fun heq => hne (by rw [← hd, ← hr, heq])
    have hz : fieldZero w = 0 := (and_all8 _).symm.trans hz
    exact ⟨k d r a b, by simp [decPPPP, hz, ← hd, ← hr, ← ha, ← hb, hdr]⟩

/-- The row with the further check of R73 step 3. -/
theorem pdivmod_agrees {w : Word} (ho : (opcode w).toNat = 0x4C) : AgreesWithTable w (decPPPP w .pdivmod) := by
  have hop : opcode w = 0x4C#8 := BitVec.eq_of_toNat_eq ho
  refine .of_row (r := ⟨"PDIVMOD", 0xFF8888FF, 0x4C000000⟩) (unused := 0x008888FF) (by decide) hop (fun h => ?_)
    ((decPPPP_ok_iff w _).trans (by simp))
  obtain ⟨d, r, a, b, rfl, hw, hne⟩ := decPPPP_eq_ok h
  exact ⟨decide_eq_true hne, hw ▸ hop ▸ rfl⟩

/-- A reserved opcode (R75). -/
theorem AgreesWithTable.of_reserved {w : Word} (h : ∀ r ∈ opcodeRows, opcode r.pattern ≠ opcode w) :
    AgreesWithTable w (.error .reservedOpcode) where
  encodes := nofun
  ok_iff := ⟨nofun, fun ⟨⟨r, hr, ha⟩, _⟩ => absurd (opcode_of_accepts hr ha) (h r hr)⟩

/-- The decoder's choice of an operand shape, row by row of R78. -/
theorem decode_agreesWithTable (w : Word) : AgreesWithTable w (decode w) := by
  unfold decode
  split
  next ho => exact .of_reads ⟨"FLI", 0xFF0F0000, 0x10000000⟩ ho (decEImm_reads fun _ _ => ⟨rfl, rfl⟩) (by decide)
  next ho => exact .of_reads ⟨"FLD", 0xFF0FF000, 0x11000000⟩ ho (decEAddr_reads fun _ _ => ⟨rfl, rfl⟩) (by decide)
  next ho => exact .of_reads ⟨"FST", 0xFF0FF000, 0x12000000⟩ ho (decEAddr_reads fun _ _ => ⟨rfl, rfl⟩) (by decide)
  next ho => exact .of_reads ⟨"FRD", 0xFFF0FFFF, 0x13000000⟩ ho (decReadE_reads fun _ => ⟨rfl, rfl⟩) (by decide)
  next ho => exact .of_reads ⟨"FEQ", 0xFFF00FFF, 0x14000000⟩ ho (decTestEE_reads fun _ _ => ⟨rfl, rfl⟩) (by decide)
  next ho => exact .of_reads ⟨"FADD", 0xFF000FFF, 0x18000000⟩ ho (decEEE_reads fun _ _ _ => ⟨rfl, rfl⟩) (by decide)
  next ho => exact .of_reads ⟨"FSUB", 0xFF000FFF, 0x19000000⟩ ho (decEEE_reads fun _ _ _ => ⟨rfl, rfl⟩) (by decide)
  next ho => exact .of_reads ⟨"FMUL", 0xFF000FFF, 0x1A000000⟩ ho (decEEE_reads fun _ _ _ => ⟨rfl, rfl⟩) (by decide)
  next ho => exact .of_reads ⟨"FDIV", 0xFF000FFF, 0x1B000000⟩ ho (decEEE_reads fun _ _ _ => ⟨rfl, rfl⟩) (by decide)
  next ho => exact .of_reads ⟨"FMOD", 0xFF000FFF, 0x1C000000⟩ ho (decEEE_reads fun _ _ _ => ⟨rfl, rfl⟩) (by decide)
  next ho => exact .of_reads ⟨"FPOW", 0xFF000FFF, 0x1D000000⟩ ho (decEEE_reads fun _ _ _ => ⟨rfl, rfl⟩) (by decide)
  next ho => exact .of_reads ⟨"FSHL", 0xFF000FFF, 0x1E000000⟩ ho (decEEE_reads fun _ _ _ => ⟨rfl, rfl⟩) (by decide)
  next ho => exact .of_reads ⟨"FSHR", 0xFF000FFF, 0x1F000000⟩ ho (decEEE_reads fun _ _ _ => ⟨rfl, rfl⟩) (by decide)
  next ho => exact .of_reads ⟨"FAND", 0xFF000FFF, 0x20000000⟩ ho (decEEE_reads fun _ _ _ => ⟨rfl, rfl⟩) (by decide)
  next ho => exact .of_reads ⟨"FOR", 0xFF000FFF, 0x21000000⟩ ho (decEEE_reads fun _ _ _ => ⟨rfl, rfl⟩) (by decide)
  next ho => exact .of_reads ⟨"FXOR", 0xFF000FFF, 0x22000000⟩ ho (decEEE_reads fun _ _ _ => ⟨rfl, rfl⟩) (by decide)
  next ho => exact .of_reads ⟨"FNEG", 0xFF00FFFF, 0x28000000⟩ ho (decEE_reads fun _ _ => ⟨rfl, rfl⟩) (by decide)
  next ho => exact .of_reads ⟨"FPOS", 0xFF00FFFF, 0x29000000⟩ ho (decEE_reads fun _ _ => ⟨rfl, rfl⟩) (by decide)
  next ho => exact .of_reads ⟨"FABS", 0xFF00FFFF, 0x2A000000⟩ ho (decEE_reads fun _ _ => ⟨rfl, rfl⟩) (by decide)
  next ho => exact .of_reads ⟨"FINV", 0xFF00FFFF, 0x2B000000⟩ ho (decEE_reads fun _ _ => ⟨rfl, rfl⟩) (by decide)
  next ho => exact .of_reads ⟨"FROUND", 0xFF00FFFF, 0x2C000000⟩ ho (decEE_reads fun _ _ => ⟨rfl, rfl⟩) (by decide)
  next ho => exact .of_reads ⟨"FTRUNC", 0xFF00FFFF, 0x2D000000⟩ ho (decEE_reads fun _ _ => ⟨rfl, rfl⟩) (by decide)
  next ho => exact .of_reads ⟨"FFLOOR", 0xFF00FFFF, 0x2E000000⟩ ho (decEE_reads fun _ _ => ⟨rfl, rfl⟩) (by decide)
  next ho => exact .of_reads ⟨"FCEIL", 0xFF00FFFF, 0x2F000000⟩ ho (decEE_reads fun _ _ => ⟨rfl, rfl⟩) (by decide)
  next ho => exact .of_reads ⟨"PLD", 0xFF800000, 0x40000000⟩ ho (decPCntAddr_reads fun _ _ _ => ⟨rfl, rfl⟩) (by decide)
  next ho => exact .of_reads ⟨"PST", 0xFF8FF000, 0x41000000⟩ ho (decPAddr_reads fun _ _ => ⟨rfl, rfl⟩) (by decide)
  next ho => exact .of_reads ⟨"PLEN", 0xFFF8FFFF, 0x42000000⟩ ho (decReadP_reads fun _ => ⟨rfl, rfl⟩) (by decide)
  next ho => exact .of_reads ⟨"PDEG", 0xFFF8FFFF, 0x43000000⟩ ho (decReadP_reads fun _ => ⟨rfl, rfl⟩) (by decide)
  next ho => exact .of_reads ⟨"PGRADE", 0xFF880000, 0x44000000⟩ ho (decPPImm_reads fun _ _ _ => ⟨rfl, rfl⟩) (by decide)
  next ho => exact .of_reads ⟨"PSHORT", 0xFF88FFFF, 0x45000000⟩ ho (decPP_reads fun _ _ => ⟨rfl, rfl⟩) (by decide)
  next ho => exact .of_reads ⟨"PSHL", 0xFF880000, 0x46000000⟩ ho (decPPImm_reads fun _ _ _ => ⟨rfl, rfl⟩) (by decide)
  next ho => exact .of_reads ⟨"PADD", 0xFF888FFF, 0x48000000⟩ ho (decPPP_reads fun _ _ _ => ⟨rfl, rfl⟩) (by decide)
  next ho => exact .of_reads ⟨"PSUB", 0xFF888FFF, 0x49000000⟩ ho (decPPP_reads fun _ _ _ => ⟨rfl, rfl⟩) (by decide)
  next ho => exact .of_reads ⟨"PMUL", 0xFF888FFF, 0x4A000000⟩ ho (decPPP_reads fun _ _ _ => ⟨rfl, rfl⟩) (by decide)
  next ho => exact .of_reads ⟨"PSCALE", 0xFF880FFF, 0x4B000000⟩ ho (decPPE_reads fun _ _ _ => ⟨rfl, rfl⟩) (by decide)
  next ho => exact pdivmod_agrees ho
  next ho => exact .of_reads ⟨"PDIV", 0xFF888FFF, 0x4D000000⟩ ho (decPPP_reads fun _ _ _ => ⟨rfl, rfl⟩) (by decide)
  next ho => exact .of_reads ⟨"PMOD", 0xFF888FFF, 0x4E000000⟩ ho (decPPP_reads fun _ _ _ => ⟨rfl, rfl⟩) (by decide)
  next ho => exact .of_reads ⟨"PPOW", 0xFF880000, 0x4F000000⟩ ho (decPPImm_reads fun _ _ _ => ⟨rfl, rfl⟩) (by decide)
  next ho => exact .of_reads ⟨"PEVAL", 0xFF080FFF, 0x50000000⟩ ho (decEPE_reads fun _ _ _ => ⟨rfl, rfl⟩) (by decide)
  next ho => exact .of_reads ⟨"PEQ", 0xFFF88FFF, 0x51000000⟩ ho (decTestPP_reads fun _ _ => ⟨rfl, rfl⟩) (by decide)
  next ho => exact .of_reads ⟨"PGT", 0xFFF88FFF, 0x52000000⟩ ho (decTestPP_reads fun _ _ => ⟨rfl, rfl⟩) (by decide)
  next ho => exact .of_reads ⟨"PNZ", 0xFFF8FFFF, 0x53000000⟩ ho (decReadP_reads fun _ => ⟨rfl, rfl⟩) (by decide)
  next ho => exact .of_reads ⟨"CGENL", 0xFFCF0000, 0x60000000⟩ ho (decCImm_reads fun _ _ => ⟨rfl, rfl⟩) (by decide)
  next ho => exact .of_reads ⟨"CGENH", 0xFFCF0000, 0x61000000⟩ ho (decCImm_reads fun _ _ => ⟨rfl, rfl⟩) (by decide)
  next ho => exact .of_reads ⟨"CINIT", 0xFFCFFFFF, 0x62000000⟩ ho (decC_reads fun _ => ⟨rfl, rfl⟩) (by decide)
  next ho => exact .of_reads ⟨"CBYTE", 0xFFC00FFF, 0x63000000⟩ ho (decCByte_reads fun _ _ => ⟨rfl, rfl⟩) (by decide)
  next ho => exact .of_reads ⟨"CBUF", 0xFFC00000, 0x64000000⟩ ho (decCCntAddr_reads fun _ _ _ => ⟨rfl, rfl⟩) (by decide)
  next ho => exact .of_reads ⟨"CRD", 0xFFFCFFFF, 0x65000000⟩ ho (decReadC_reads fun _ => ⟨rfl, rfl⟩) (by decide)
  next ho => exact .of_reads ⟨"NOP", 0xFFFFFFFF, 0x00000000⟩ ho (decBare_reads ⟨rfl, rfl⟩) (by decide)
  next ho => exact .of_reads ⟨"SETMOD", 0xFFFF0000, 0x01000000⟩ ho (decImm_reads fun _ => ⟨rfl, rfl⟩) (by decide)
  next ho => exact .of_reads ⟨"RDCSR", 0xFFFF0000, 0x02000000⟩ ho (decImm_reads fun _ => ⟨rfl, rfl⟩) (by decide)
  next ho => exact .of_reads ⟨"ERRCLR", 0xFFFFFFFF, 0x03000000⟩ ho (decBare_reads ⟨rfl, rfl⟩) (by decide)
  next ho => exact .of_reads ⟨"STB", 0xFFF00000, 0x04000000⟩ ho (decByteAddr_reads fun _ _ => ⟨rfl, rfl⟩) (by decide)
  next ho => exact .of_reads ⟨"LDB", 0xFFFFF000, 0x05000000⟩ ho (decAddr_reads fun _ => ⟨rfl, rfl⟩) (by decide)
  next =>
    refine .of_reserved fun r hr ho => ?_
    have hm : (opcode w).toNat ∈ opcodeRows.map fun r => (opcode r.pattern).toNat := ho ▸ List.mem_map_of_mem hr
    rw [opcodeRows_opcodes] at hm
    clear ho
    simp_all

/-- No two rows accept one word. -/
theorem accepting_rows_length_le_one (w : Word) : (opcodeRows.filter fun r => r.accepts w).length ≤ 1 := by
  have hnd : (opcodeRows.filter fun r => r.accepts w).Nodup := opcodeRows_opcode_nodup.of_map.filter _
  have heq : ∀ r ∈ opcodeRows.filter fun r => r.accepts w, ∀ r' ∈ opcodeRows.filter fun r => r.accepts w, r = r' := by
    intro r hr r' hr'
    obtain ⟨hr, ha⟩ := List.mem_filter.1 hr
    obtain ⟨hr', ha'⟩ := List.mem_filter.1 hr'
    exact row_eq_of_accepts hr' hr (opcode_of_accepts hr' ha') ha
  generalize opcodeRows.filter (fun r => r.accepts w) = l at hnd heq
  match l with
  | [] => exact Nat.zero_le 1
  | [r] => exact Nat.le_refl 1
  | r :: r' :: l =>
    exact absurd (heq r (by simp) r' (by simp)) (List.ne_of_not_mem_cons (List.nodup_cons.1 hnd).1)

/-- Settles O2: the first half of the agreement with the opcode map. -/
theorem encodeInvertsDecode : Obligations.EncodeInvertsDecode :=
  fun w _ h => (decode_agreesWithTable w).encodes h

/-- Settles O3: the second half of the agreement with the opcode map, and that opcodes tell the rows apart. -/
theorem decodeAcceptsExactlyTheTable : Obligations.DecodeAcceptsExactlyTheTable :=
  fun w => ⟨(decode_agreesWithTable w).ok_iff, accepting_rows_length_le_one w⟩

end Sys2Proof
end

section
/-! The response to an accepted word (30_encoding.md R74, 44_system_and_host.md R222, 60_exceptions.md R248). -/

namespace Sys2Proof.Machine

/-- An accepted word that is no command is answered by a drop or by a fault (R248, R252). -/
theorem runWord_illegal {w : Word} {d : DecodeError} (hd : decode w = .error d) (s : State) :
    (s.err = true ∧ runWord w s = .next (s.accept w).drop) ∨
    (s.err = false ∧ runWord w s = .next ((s.accept w).takeFault .illegalCommand)) := by
  simp only [runWord, hd]
  cases he : s.err with
  | true => exact .inl ⟨rfl, State.command_drop (s := s.accept w) he _⟩
  | false => exact .inr ⟨rfl, State.command_error (s := s.accept w) he _⟩

/-- The control registers are 0..3, so a number that has a value is one of them (R34). -/
theorem State.csr_some_le {s : State} {n : Nat} {v : Word} (h : s.csr n = some v) : n ≤ 3 := by
  have hn := s.csr_isSome n
  rw [h] at hn
  exact of_decide_eq_true hn.symm

/-- Settles O14: an illegal word is dropped or faults, and a command's response is the one its outcome carries. -/
theorem everyCommandHasOneResponse : Obligations.EveryCommandHasOneResponse := by
  intro s t w rest hev hst
  rw [step_command hev] at hst
  cases hd : decode w with
  | error d =>
    rcases runWord_illegal hd { s with events := rest } with ⟨he, hr⟩ | ⟨he, hr⟩ <;> cases hr.symm.trans hst
    · exact ⟨⟨false, 0⟩, rfl, fun _ => ⟨rfl, .inr ⟨he, rfl⟩⟩, nofun, nofun⟩
    · exact ⟨⟨false, 0⟩, rfl, fun _ => ⟨rfl, .inl ⟨he, rfl⟩⟩, nofun, nofun⟩
  | ok i =>
    rw [runWord, hd] at hst
    cases exec_outcome i ({ s with events := rest }.accept w) with
    | errclr hi ho =>
      cases ho.symm.trans hst
      refine ⟨⟨true, 0⟩, rfl, nofun, fun _ => ?_, fun _ h0 => absurd rfl h0⟩
      rcases Bool.eq_false_or_eq_true s.err with he | he
      · exact .inr ⟨he, .inl (hi ▸ rfl)⟩
      · exact .inl ⟨he, rfl⟩
    | csr n v hi hv ho =>
      cases ho.symm.trans hst
      refine ⟨⟨true, v⟩, rfl, nofun, fun _ => ?_, fun _ _ => ⟨i, rfl, hi ▸ rfl⟩⟩
      rcases Bool.eq_false_or_eq_true s.err with he | he
      · exact .inr ⟨he, .inr ⟨n, State.csr_some_le hv, hi ▸ rfl⟩⟩
      · exact .inl ⟨he, he⟩
    | dropped he ho =>
      cases ho.symm.trans hst
      exact ⟨⟨false, 0⟩, rfl, fun _ => ⟨rfl, .inr ⟨he, rfl⟩⟩, nofun, nofun⟩
    | faulted he _ _ ho =>
      cases ho.symm.trans hst
      exact ⟨⟨false, 0⟩, rfl, fun _ => ⟨rfl, .inl ⟨he, rfl⟩⟩, nofun, nofun⟩
    | completed he u v hu hv ho =>
      cases ho.symm.trans hst
      obtain ⟨herr, _⟩ := hu.faultRecord_frame
      exact ⟨⟨true, v⟩, rfl, nofun, fun _ => .inl ⟨he, herr.trans he⟩,
        fun _ h0 => ⟨i, rfl, hv.resolve_left h0⟩⟩

end Sys2Proof.Machine
end

section
/-! Unit GFMR (40_gf_modular_reduce.md R100 to R127): the elements as residues, what each operator gives on reduced
elements as a natural number, and the one effect of each command on element registers. -/

namespace Sys2Proof.Machine

/-! ### The element operators as the ring of residues (R127) -/

/-- A reduced element is told by its residue. -/
theorem elem_eq_of_residue_eq {m : Nat} {a b : Elem} (ha : a.toNat < m) (hb : b.toNat < m)
    (h : (a.toNat : ZMod m) = b.toNat) : a = b := by
  rw [natCast_eq_iff_mod, Nat.mod_eq_of_lt ha, Nat.mod_eq_of_lt hb] at h
  exact BitVec.eq_of_toNat_eq h

section Residue
variable {m : Nat} (h1 : 1 ≤ m) (h2 : m ≤ 256)
include h1 h2

theorem residue_reduce (z : Int) : ((reduce m z).toNat : ZMod m) = z :=
  calc ((reduce m z).toNat : ZMod m) = (((reduce m z).toNat : Int) : ZMod m) := (Int.cast_natCast _).symm
    _ = z := by rw [reduce_toInt h1 h2, ZMod.intCast_mod]

theorem residue_fop_add (a b : Elem) : ((fop .add m a b).toNat : ZMod m) = a.toNat + b.toNat := by
  simp [fop, rawOp, residue_reduce h1 h2]

theorem residue_fop_mul (a b : Elem) : ((fop .mul m a b).toNat : ZMod m) = a.toNat * b.toNat := by
  simp [fop, rawOp, residue_reduce h1 h2]

theorem residue_fop_neg (a b : Elem) : ((fop .neg m a b).toNat : ZMod m) = -a.toNat := by
  simp [fop, rawOp, residue_reduce h1 h2]

end Residue

/-- Settles O26: taking residues carries the operators to the ring of integers modulo m, whose laws these are, and
loses nothing of a reduced element. -/
theorem fieldOperatorsFormARing : Obligations.FieldOperatorsFormARing := by
  intro m a b c hm h2 ha _ _
  have h1 : 1 ≤ m := by omega
  have hadd := residue_fop_add h1 h2
  have hmul := residue_fop_mul h1 h2
  have hneg := residue_fop_neg h1 h2
  have hlt := fun (o : FieldOp) (x y : Elem) => fop_lt h1 h2 x y o
  have ext := fun {x y : Elem} => elem_eq_of_residue_eq (m := m) (a := x) (b := y)
  refine ⟨ext (hlt ..) (hlt ..) ?addComm, ext (hlt ..) (hlt ..) ?mulComm, ext (hlt ..) (hlt ..) ?addAssoc,
    ext (hlt ..) (hlt ..) ?mulAssoc, ext (hlt ..) (hlt ..) ?distrib, ext (hlt ..) ha ?addZero, ext (hlt ..) ha ?mulOne,
    ext (hlt ..) h1 ?addNeg⟩
  case addComm => rw [hadd, hadd, add_comm]
  case mulComm => rw [hmul, hmul, mul_comm]
  case addAssoc => rw [hadd, hadd, hadd, hadd, add_assoc]
  case mulAssoc => rw [hmul, hmul, hmul, hmul, mul_assoc]
  case distrib => rw [hmul, hadd, hadd, hmul, hmul, mul_add]
  case addZero => simp [hadd]
  case mulOne => simp [hmul]
  case addNeg => simp [hadd, hneg]

/-- A product that is reduced after each of its n equal factors is the reduced power (R101). -/
theorem iterate_mul_toNat {m : Nat} (hm : 2 ≤ m) (h2 : m ≤ 256) (a : Elem) (n : Nat) :
    ((fun r => fop .mul m r a)^[n] 1).toNat = a.toNat ^ n % m := by
  induction n with
  | zero => simp [Nat.mod_eq_of_lt hm]
  | succ n ih =>
    rw [Function.iterate_succ_apply', fop_mul_toNat (by omega) h2, ih, pow_succ, Nat.mod_mul_mod]

/-- Settles O27: both sides are the reduced power. -/
theorem powIsRepeatedProduct : Obligations.PowIsRepeatedProduct := fun _ a b hm h2 _ =>
  BitVec.eq_of_toNat_eq ((fop_pow_toNat (by omega) h2 a b).trans (iterate_mul_toNat hm h2 a b.toNat).symm)

/-! ### The operators on reduced elements, as natural numbers -/

section Reduced
variable {m : Nat} (h2 : m ≤ 256) {a : Elem} (ha : a.toNat < m)
include h2 ha

/-- A difference below 0 wraps upward (R109). -/
theorem fop_sub_toNat {b : Elem} (hb : b.toNat < m) :
    (fop .sub m a b).toNat = if b.toNat ≤ a.toNat then a.toNat - b.toNat else a.toNat + m - b.toNat := by
  have hsub := fop_sub_toInt (by omega) h2 a b
  split
  · rw [Int.emod_eq_of_lt (by omega) (by omega)] at hsub
    omega
  · rw [← Int.add_emod_right, Int.emod_eq_of_lt (by omega) (by omega)] at hsub
    omega

theorem fop_div_toNat_reduced (b : Elem) : (fop .div m a b).toNat = a.toNat / b.toNat := by
  rw [fop_div_toNat (by omega) h2, Nat.mod_eq_of_lt ((Nat.div_le_self _ _).trans_lt ha)]

theorem fop_rem_toNat_reduced (b : Elem) : (fop .rem m a b).toNat = a.toNat % b.toNat := by
  rw [fop_rem_toNat (by omega) h2, Nat.mod_eq_of_lt ((Nat.mod_le _ _).trans_lt ha)]

theorem fop_shr_toNat_reduced (b : Elem) : (fop .shr m a b).toNat = a.toNat / 2 ^ b.toNat := by
  rw [fop_shr_toNat (by omega) h2, Nat.mod_eq_of_lt ((Nat.div_le_self _ _).trans_lt ha)]

/-- The reduction changes nothing of a bitwise AND (R116). -/
theorem fop_and_reduced (b : Elem) : fop .and m a b = a &&& b := by
  apply BitVec.eq_of_toNat_eq
  rw [fop_and_toNat (by omega) h2, Nat.mod_eq_of_lt (Nat.and_le_left.trans_lt ha), BitVec.toNat_and]

/-- The additive inverse (R119). -/
theorem fop_neg_toNat (b : Elem) : (fop .neg m a b).toNat = if a = 0 then 0 else m - a.toNat := by
  have hneg := fop_neg_toInt (by omega) h2 a b
  split
  case isTrue h0 => simpa [h0] using hneg
  case isFalse h0 =>
    have hpos : a.toNat ≠ 0 := fun h => h0 (BitVec.eq_of_toNat_eq h)
    rw [← Int.add_emod_right, Int.emod_eq_of_lt (by omega) (by omega)] at hneg
    omega

/-- The complement of an unbounded two's-complement integer, reduced (R122). -/
theorem fop_invert_toNat (b : Elem) : (fop .invert m a b).toNat = m - 1 - a.toNat := by
  have hinv := fop_invert_toInt (by omega) h2 a b
  rw [← Int.add_emod_right, Int.emod_eq_of_lt (by omega) (by omega)] at hinv
  omega

end Reduced

/-! ### The one effect of a command -/

/-- A response carries the value itself (R10). -/
theorem zext_toNat (v : BitVec 8) : (zext v).toNat = v.toNat :=
  BitVec.toNat_setWidth_of_le (by decide)

section Effects
variable {i : Instr} {s : State} (he : s.err = false)
include he

theorem writesElem_of_command {ed : EReg} {v : Elem} {n : Nat} (h : exec i s = s.command (.ok (s.setElem ed v)))
    (hv : v.toNat = n) : WritesElem i s ed n :=
  ⟨v, hv, h.trans (State.command_ok he _)⟩

/-- What R108 to R118 share, where no divisor is 0. -/
theorem writesElem_of_binary {o : FieldOp} {ed ea eb : EReg} {n : Nat} (h : exec i s = execBinary o ed ea eb s)
    (ho : (o ≠ .div ∧ o ≠ .rem) ∨ s.elem eb ≠ 0) (hn : (fop o s.m (s.elem ea) (s.elem eb)).toNat = n) :
    WritesElem i s ed n :=
  ⟨_, hn, h.trans (execBinary_ok he ed ea eb ho)⟩

/-- What R119 to R126 share. -/
theorem writesElem_of_unary {o : FieldOp} {ed ea : EReg} {n : Nat} (h : exec i s = execUnary o ed ea s)
    (hn : (fop o s.m (s.elem ea) 0).toNat = n) : WritesElem i s ed n :=
  writesElem_of_command he h hn

/-- What the six operators that leave an element as it is share (R120, R121, R123 to R126). -/
theorem writesElem_of_copy {o : FieldOp} {ed ea : EReg} (h : exec i s = execUnary o ed ea s)
    (ho : o = .pos ∨ o = .abs ∨ o = .round ∨ o = .trunc ∨ o = .floor ∨ o = .ceil) (h2 : s.m ≤ 256)
    (ha : (s.elem ea).toNat < s.m) : WritesElem i s ed (s.elem ea).toNat :=
  writesElem_of_unary he h (by rw [fop_copy ho h2 ha])

/-- A store that passes the range check of R53. -/
theorem writesBytes_of_command {a : Nat} {bs : List Byte} (h : exec i s = s.command (.ok (s.writeBytes a bs))) :
    WritesBytes i s a bs := by
  refine ⟨(s.writeBytes a bs).dmem, ?_, ?_⟩
  · rw [CompletesIn, h, State.command_ok he, ← State.writeBytes_eq, State.respond]
  · rw [← State.writeBytes_eq]
    exact s.readByte_writeBytes a bs

end Effects

/-! ### The commands on element registers -/

/-- Settles O17: the three operators as natural numbers. -/
theorem fieldAddSubMul : Obligations.FieldAddSubMul := by
  intro s ed ea eb hinv he
  obtain ⟨hm, h2⟩ := hinv.modulus
  have h1 : 1 ≤ s.m := by omega
  exact ⟨writesElem_of_binary he (o := .add) rfl (.inl (by decide)) (fop_add_toNat h1 h2 _ _),
    writesElem_of_binary he (o := .sub) rfl (.inl (by decide)) (fop_sub_toNat h2 (hinv.elems ea) (hinv.elems eb)),
    writesElem_of_binary he (o := .mul) rfl (.inl (by decide)) (fop_mul_toNat h1 h2 _ _)⟩

/-- Settles O18: by 0 the fault column of the operators; else the quotient and remainder of the division of integers. -/
theorem fieldDivRem : Obligations.FieldDivRem := by
  intro s ed ea eb hinv he
  obtain ⟨_, h2⟩ := hinv.modulus
  have ha := hinv.elems ea
  constructor
  · intro hb
    exact ⟨execBinary_fault he ed ea eb (.inl rfl) hb, execBinary_fault he ed ea eb (.inr rfl) hb⟩
  · intro hb
    have hpos : 0 < (s.elem eb).toNat := Nat.pos_of_ne_zero fun h => hb (BitVec.eq_of_toNat_eq h)
    exact ⟨(s.elem ea).toNat / (s.elem eb).toNat, (s.elem ea).toNat % (s.elem eb).toNat, Nat.div_add_mod' _ _,
      Nat.mod_lt _ hpos, writesElem_of_binary he (o := .div) rfl (.inr hb) (fop_div_toNat_reduced h2 ha _),
      writesElem_of_binary he (o := .rem) rfl (.inr hb) (fop_rem_toNat_reduced h2 ha _)⟩

/-- Settles O19: the power and the left shift reduced; the right shift of a reduced element needs no reduction. -/
theorem fieldPowShift : Obligations.FieldPowShift := by
  intro s ed ea eb hinv he
  obtain ⟨hm, h2⟩ := hinv.modulus
  have h1 : 1 ≤ s.m := by omega
  exact ⟨writesElem_of_binary he (o := .pow) rfl (.inl (by decide)) (fop_pow_toNat h1 h2 _ _),
    writesElem_of_binary he (o := .shl) rfl (.inl (by decide)) (fop_shl_toNat h1 h2 _ _),
    writesElem_of_binary he (o := .shr) rfl (.inl (by decide)) (fop_shr_toNat_reduced h2 (hinv.elems ea) _)⟩

/-- Settles O20: the operators on integers are the bitwise operators on the eight-bit values. -/
theorem fieldBitwise : Obligations.FieldBitwise := by
  intro s ed ea eb hinv he
  obtain ⟨hm, h2⟩ := hinv.modulus
  have h1 : 1 ≤ s.m := by omega
  refine ⟨writesElem_of_binary he (o := .and) rfl (.inl (by decide)) ?_,
    writesElem_of_binary he (o := .or) rfl (.inl (by decide)) ?_,
    writesElem_of_binary he (o := .xor) rfl (.inl (by decide)) ?_⟩
  · rw [fop_and_reduced h2 (hinv.elems ea)]
  · rw [fop_or_toNat h1 h2, BitVec.toNat_or]
  · rw [fop_xor_toNat h1 h2, BitVec.toNat_xor]

/-- Settles O21: the two operators of a negative raw result. -/
theorem fieldNegInvert : Obligations.FieldNegInvert := by
  intro s ed ea hinv he
  obtain ⟨_, h2⟩ := hinv.modulus
  have ha := hinv.elems ea
  exact ⟨writesElem_of_unary he (o := .neg) rfl (fop_neg_toNat h2 ha 0),
    writesElem_of_unary he (o := .invert) rfl (fop_invert_toNat h2 ha 0)⟩

/-- Settles O22: each operator's raw result is the element itself, which is reduced already. -/
theorem fieldCopies : Obligations.FieldCopies := by
  intro s ed ea hinv he
  obtain ⟨_, h2⟩ := hinv.modulus
  have ha := hinv.elems ea
  exact ⟨writesElem_of_copy he (o := .pos) rfl (by decide) h2 ha, writesElem_of_copy he (o := .abs) rfl (by decide) h2 ha,
    writesElem_of_copy he (o := .round) rfl (by decide) h2 ha, writesElem_of_copy he (o := .trunc) rfl (by decide) h2 ha,
    writesElem_of_copy he (o := .floor) rfl (by decide) h2 ha, writesElem_of_copy he (o := .ceil) rfl (by decide) h2 ha⟩

/-- Settles O23: the reduction into the field is the remainder of the signed immediate. -/
theorem fieldImmediate : Obligations.FieldImmediate := by
  intro s ed simm hinv he
  obtain ⟨hm, h2⟩ := hinv.modulus
  have h1 : 1 ≤ s.m := by omega
  refine ⟨(reduce s.m (signedImm simm)).toNat, reduce_lt h1 h2 _, ?_, writesElem_of_command he rfl rfl⟩
  rw [reduce_toInt h1 h2]
  exact Int.dvd_self_sub_emod

/-- Settles O24: a single byte at a 12-bit address is inside DMEM, so neither command faults. -/
theorem fieldLoadStore : Obligations.FieldLoadStore := by
  intro s r addr hinv he
  obtain ⟨hm, h2⟩ := hinv.modulus
  constructor
  · have hload : exec (.fld r addr) s = s.command (.ok (s.setElem r (elemOfByte s.m (s.readByte (address addr))))) :=
      show execFld r addr s = _ by rw [execFld, State.memRead_one]; rfl
    exact writesElem_of_command he hload (reduce_toNat (by omega) h2 _)
  · have hstore : exec (.fst r addr) s = s.command (.ok (s.writeBytes (address addr) [s.elem r])) :=
      show execFst r addr s = _ by rw [execFst, State.memWrite_one]; rfl
    exact writesBytes_of_command he hstore

/-- Settles O25: FRD by the rule of a read command, FEQ by that of a command that writes T. -/
theorem fieldReadAndCompare : Obligations.FieldReadAndCompare := by
  intro s ea eb he
  constructor
  · exact ⟨zext (s.elem ea), zext_toNat _, State.query_ok he _⟩
  · exact ⟨decide (s.elem ea = s.elem eb), decide_eq_true_iff.trans BitVec.toNat_inj.symm, State.command_ok he _⟩

end Sys2Proof.Machine
end

section
/-! Unit PLDE (41_polynomial_ops.md R140 to R170): how a polynomial command ends, what the operations give as lists of
coefficients, and the one effect of each command. -/

namespace Sys2Proof.Machine

/-! ### How a polynomial command ends -/

section Endings
variable {i : Instr} {s : State} (he : s.err = false)
include he

theorem takesFault_of_command {f : FaultCode} (h : exec i s = s.command (.error f)) : TakesFault i s f.code :=
  h.trans (State.command_error he f)

theorem writesPoly_of_command {pd : PReg} {c : Poly} (h : exec i s = s.command (.ok (s.setPoly pd c))) :
    WritesPoly i s pd c :=
  h.trans (State.command_ok he _)

theorem setsT_of_command {b : Bool} {P : Prop} (h : exec i s = s.command (.ok (s.setT b))) (hb : b = true ↔ P) :
    SetsT i s P :=
  ⟨b, hb, h.trans (State.command_ok he _)⟩

variable {pd : PReg} {body : Except FaultCode Poly} (h : exec i s = s.command (body.map (s.setPoly pd)))
include h

/-- A command that computes one list for one register writes the list c exactly when c is what it computes. -/
theorem writesPoly_iff (c : Poly) : WritesPoly i s pd c ↔ body = .ok c := by
  cases body with
  | error f =>
    refine iff_of_false (fun hw => ?_) nofun
    have ht := takesFault_of_command he h
    have hrsp := congrArg State.rsp (Host.Outcome.next.inj (ht.symm.trans hw))
    simp at hrsp
  | ok c' =>
    have hw' := writesPoly_of_command he h
    refine ⟨fun hw => ?_, fun hc => Except.ok.inj hc ▸ hw'⟩
    have hnext : Host.Outcome.next ((s.setPoly pd c').respond 0) = .next ((s.setPoly pd c).respond 0) :=
      hw'.symm.trans hw
    have hp := congrArg (fun t => State.poly t pd) (Host.Outcome.next.inj hnext)
    exact congrArg Except.ok ((s.poly_setPoly_same pd c').symm.trans (hp.trans (s.poly_setPoly_same pd c)))

/-- It takes the fault f exactly when f is what it raises. -/
theorem takesFault_iff (f : FaultCode) : TakesFault i s f.code ↔ body = .error f := by
  cases body with
  | error g =>
    have ht := takesFault_of_command he h
    refine ⟨fun hf => ?_, fun hg => Except.error.inj hg ▸ ht⟩
    have hcode : g.code = f.code := congrArg State.cause (Host.Outcome.next.inj (ht.symm.trans hf))
    rw [FaultCode.code_injective hcode]
  | ok c =>
    refine iff_of_false (fun hf => ?_) nofun
    have hw := writesPoly_of_command he h
    have hrsp := congrArg State.rsp (Host.Outcome.next.inj (hw.symm.trans hf))
    simp at hrsp

end Endings

/-! ### Bytes as coefficients (R56, R155) -/

theorem State.readBytes_eq_map_range (s : State) (a n : Nat) :
    s.readBytes a n = (List.range n).map fun j => s.readByte (a + j) :=
  List.ext_getElem (by simp) fun j hj _ => by
    rw [s.readBytes_getElem a n j (by simpa using hj), List.getElem_map, List.getElem_range]

theorem elemOfByte_toNat {m : Nat} (h1 : 1 ≤ m) (h2 : m ≤ 256) (b : Byte) : (elemOfByte m b).toNat = b.toNat % m :=
  reduce_toNat h1 h2 b.toNat

/-- Bytes give a zero polynomial exactly when every one is a multiple of the modulus. -/
theorem isZeroPoly_map_elemOfByte {m : Nat} (h1 : 1 ≤ m) (h2 : m ≤ 256) (bytes : List Byte) :
    isZeroPoly (bytes.map (elemOfByte m)) = true ↔ ∀ b ∈ bytes, b.toNat % m = 0 := by
  rw [isZeroPoly_iff_mem, List.forall_mem_map]
  refine forall₂_congr fun b _ => ?_
  rw [← elemOfByte_toNat h1 h2, ← BitVec.toNat_inj]
  rfl

/-! ### Raw length and coefficients -/

/-- The raw length of a list that `mkpoly` ended, told by its coefficients (R141). -/
theorem rawLength_of_isZeroPoly {c : Poly} {n : Nat}
    (h : (isZeroPoly c = true → c = []) ∧ (isZeroPoly c = false → c.length = n)) :
    ((∀ k, coeff c k = 0) → c = []) ∧ ((∃ k, coeff c k ≠ 0) → c.length = n) := by
  obtain ⟨hzero, hne⟩ := h
  refine ⟨fun hc => hzero ((isZeroPoly_iff_coeff c).2 hc), fun ⟨k, hk⟩ => hne ?_⟩
  rw [Bool.eq_false_iff, ne_eq, isZeroPoly_iff_coeff]
  exact fun hc => hk (hc k)

theorem coeff_regrade (c : Poly) (n k : Nat) : coeff (regrade c n) k = if k < n then coeff c k else 0 := by
  rw [coeff_eq, coeffE_regrade]
  split <;> rfl

/-- Zeros at the low end make no list zero and no list non-zero. -/
theorem isZeroPoly_append_zeros (a : Poly) (n : Nat) : isZeroPoly (a ++ zeros n) = true ↔ ∀ v ∈ a, v = 0 := by
  rw [isZeroPoly_iff_mem, List.forall_mem_append]
  exact and_iff_left fun v hv => List.eq_of_mem_replicate hv

theorem coeff_eq_zero_of_deg_lt {c : Poly} {k : Nat} (h : deg c < k) : coeff c k = 0 :=
  (coeff_eq_zero_iff c k).2 (coeffE_of_deg_lt h)

theorem coeff_deg {c : Poly} (h : deg c ≠ -1) : coeff c (deg c).toNat = (lead c).toNat := by
  rw [coeff_eq, (coeffE_deg h).1]

theorem lead_of_deg_neg {c : Poly} (h : deg c = -1) : lead c = 0 := by
  rw [lead, (isZeroPoly_iff_shortened c).1 ((isZeroPoly_iff_deg c).2 h)]
  rfl

/-! ### The degree of a product (R149) -/

/-- Above the sum of the degrees the ordinary product has no terms. -/
theorem prodCoeff_of_degs_lt {a b : Poly} {k : Nat} (h : deg a + deg b < k) : prodCoeff a b k = 0 := by
  refine Finset.sum_eq_zero fun i hi => ?_
  have hik := Finset.mem_range.1 hi
  by_cases ha : deg a < i
  · rw [coeff_eq_zero_of_deg_lt ha, zero_mul]
  · rw [coeff_eq_zero_of_deg_lt (c := b) (k := k - i) (by omega), mul_zero]

/-- At the sum of the degrees stands the product of the leading coefficients. -/
theorem prodCoeff_degs {a b : Poly} (ha : deg a ≠ -1) (hb : deg b ≠ -1) :
    prodCoeff a b ((deg a).toNat + (deg b).toNat) = (lead a).toNat * (lead b).toNat := by
  have hda := deg_ge a
  have hdb := deg_ge b
  rw [prodCoeff, Finset.sum_eq_single (deg a).toNat, Nat.add_sub_cancel_left, coeff_deg ha, coeff_deg hb]
  · intro i _ hi
    by_cases hlt : deg a < i
    · rw [coeff_eq_zero_of_deg_lt hlt, zero_mul]
    · rw [coeff_eq_zero_of_deg_lt (c := b) (k := (deg a).toNat + (deg b).toNat - i) (by omega), mul_zero]
  · exact fun h => absurd (Finset.mem_range.2 (by omega)) h

/-- A product has no higher degree than the two degrees together. -/
theorem IsProduct.deg_le {m : Nat} {a b c : Poly} (h : IsProduct m a b c) : deg c = -1 ∨ deg c ≤ deg a + deg b := by
  refine or_iff_not_imp_left.2 fun hc => not_lt.1 fun hlt => (coeffE_deg hc).2 ?_
  have hge := deg_ge c
  have h0 : coeff c (deg c).toNat = 0 := by
    rw [h.coeffs, prodCoeff_of_degs_lt (by omega), Nat.zero_mod]
  rw [← (coeffE_deg hc).1]
  exact (coeff_eq_zero_iff _ _).1 h0

/-- Where the leading coefficients do not multiply to 0, the raw length is LEN(b) + DEG(a). -/
theorem IsProduct.length_of_lead {m : Nat} {a b c : Poly} (h : IsProduct m a b c)
    (hlead : (lead a).toNat * (lead b).toNat % m ≠ 0) : (c.length : Int) = b.length + deg a := by
  have ha : deg a ≠ -1 := fun e => hlead (by simp [lead_of_deg_neg e])
  have hb : deg b ≠ -1 := fun e => hlead (by simp [lead_of_deg_neg e])
  have hda := deg_ge a
  have htop : coeff c ((deg a).toNat + (deg b).toNat) ≠ 0 := by rwa [h.coeffs, prodCoeff_degs ha hb]
  have hlast : ∃ j, coeff a (deg a).toNat * coeff b j % m ≠ 0 :=
    ⟨(deg b).toNat, by rwa [coeff_deg ha, coeff_deg hb]⟩
  have hlen := h.rawLength ⟨_, htop⟩ (deg a).toNat hlast fun k hk j => by
    rw [coeff_eq_zero_of_deg_lt (c := a) (k := k) (by omega), zero_mul, Nat.zero_mod]
  omega

/-! ### Powers (R150) -/

/-- The power n + 1 where the power n completes: the product with the operand, or its overflow. -/
theorem ppow_succ_cases {m : Nat} (h1 : 1 ≤ m) (h2 : m ≤ 256) {a b : Poly} {n : Nat} (hn : 1 ≤ n)
    (hb : ppow m a n = .ok b) :
    (PmulOverflows b a ∧ ppow m a (n + 1) = .error .lengthOverflow) ∨
    (¬PmulOverflows b a ∧ ∃ c, ppow m a (n + 1) = .ok c ∧ IsProduct m b a c ∧ (deg b = -1 ∨ deg a = -1 → c = [])) := by
  have hsucc : ppow m a (n + 1) = pmul m b a := by rw [ppow_succ m a hn, hb]
  rw [hsucc]
  rcases pmul_cases h1 h2 b a with ⟨hov, hf⟩ | ⟨hov, c, hc, _, _, hzero, _⟩
  · exact .inl ⟨hov, hf⟩
  · exact .inr ⟨hov, c, hc, pmul_isProduct h1 h2 hc, hzero⟩

/-- While LEN + n * DEG fits, the power n completes, with a degree of at most n times the operand's. -/
theorem ppow_ok_of_fits {m : Nat} (h1 : 1 ≤ m) (h2 : m ≤ 256) {a : Poly} (ha : a.length ≤ Config.nmax) {n : Nat}
    (hn : 1 ≤ n) (hfit : (a.length : Int) + n * deg a ≤ Config.nmax) :
    ∃ b, ppow m a n = .ok b ∧ (deg b = -1 ∨ deg b ≤ n * deg a) := by
  induction n, hn using Nat.le_induction with
  | base => exact ⟨a, rfl, .inr (by simp)⟩
  | succ n hn ih =>
    rw [Nat.cast_succ, add_one_mul] at hfit ⊢
    have hfit' : (a.length : Int) + n * deg a ≤ Config.nmax := by
      rcases (deg_ge a).eq_or_lt with hd | hd
      · rw [← hd]; omega
      · omega
    obtain ⟨b, hb, hdeg⟩ := ih hfit'
    rcases ppow_succ_cases h1 h2 hn hb with ⟨⟨hb1, _, hov⟩, _⟩ | ⟨_, c, hc, hprod, hzero⟩
    · omega
    · refine ⟨c, hc, ?_⟩
      rcases hdeg with hb1 | hle
      · exact .inl (by rw [hzero (.inl hb1)]; rfl)
      · have hdeg' := hprod.deg_le
        omega

/-! ### The order of polynomials (R152) -/

theorem HighestDifferenceGreater.asymm {a b : Poly} (hab : HighestDifferenceGreater a b) :
    ¬HighestDifferenceGreater b a := by
  rintro ⟨j, hj, hj'⟩
  obtain ⟨k, hk, hk'⟩ := hab
  rcases lt_trichotomy j k with h | rfl | h
  · have := hj' k h; omega
  · omega
  · have := hk' j h; omega

/-- Two lists whose coefficients differ somewhere differ at some highest place, since both are 0 above their ends. -/
theorem exists_highest_difference {a b : Poly} (h : ¬∀ k, coeff a k = coeff b k) :
    ∃ n, coeff a n ≠ coeff b n ∧ ∀ j, n < j → coeff a j = coeff b j := by
  obtain ⟨k, hk⟩ := not_forall.1 h
  have hlong : ∀ j, max a.length b.length < j → coeff a j = coeff b j := fun j hj => by
    rw [coeff_eq, coeff_eq, coeffE_of_length_le (c := a) (by omega), coeffE_of_length_le (c := b) (by omega)]
  have hkn : k ≤ max a.length b.length := not_lt.1 fun hlt => hk (hlong k hlt)
  refine ⟨_, Nat.findGreatest_spec (P := fun j => coeff a j ≠ coeff b j) hkn hk, fun j hj => ?_⟩
  by_cases hjn : j ≤ max a.length b.length
  · exact not_not.1 (Nat.findGreatest_is_greatest hj hjn)
  · exact hlong j (not_le.1 hjn)

/-- So one of them is the greater. -/
theorem highestDifferenceGreater_or {a b : Poly} (h : ¬∀ k, coeff a k = coeff b k) :
    HighestDifferenceGreater a b ∨ HighestDifferenceGreater b a := by
  obtain ⟨n, hn, hn'⟩ := exists_highest_difference h
  rcases Nat.lt_or_gt_of_ne hn with hlt | hgt
  · exact .inr ⟨n, hlt, fun j hj => (hn' j hj).symm⟩
  · exact .inl ⟨n, hgt, hn'⟩

/-! ### The commands on polynomial registers -/

/-- Settles O28: the two checks in their order; else the bytes as coefficients, which `mkpoly` collapses when all of
them are 0. -/
theorem polyLoad : Obligations.PolyLoad := by
  intro s pd cnt addr hinv he
  obtain ⟨hm, h2⟩ := hinv.modulus
  have h1 : 1 ≤ s.m := by omega
  have hread : cnt.toNat ≤ 64 → exec (.pld pd cnt addr) s =
      s.command ((s.memRead addr.toNat cnt.toNat).map fun bytes =>
        s.setPoly pd (mkpoly (bytes.map (elemOfByte s.m)))) :=
    fun hcnt => congrArg s.command (if_neg (not_lt.2 hcnt))
  refine ⟨fun hlong => ?overflow, fun hcnt hout => ?range, fun hcnt hin => ?loads⟩
  case overflow =>
    exact takesFault_of_command he (f := .lengthOverflow) (congrArg s.command (if_pos hlong))
  case range =>
    have hbody := hread hcnt
    rcases s.memRead_cases addr.toNat cnt.toNat with ⟨hr, _⟩ | ⟨_, hzero | hfit⟩
    · rw [hr] at hbody
      exact takesFault_of_command he hbody
    · have haddr := addr.isLt
      omega
    · exact absurd hfit (not_le.2 hout)
  case loads =>
    have hbody := hread hcnt
    rw [s.memRead_ok hin, State.readBytes_eq_map_range] at hbody
    refine ⟨_, writesPoly_of_command he hbody, fun hall => mkpoly_of_zero ?_, fun ⟨j, hj, hne⟩ => ?_⟩
    · rw [isZeroPoly_map_elemOfByte h1 h2]
      simpa using hall
    · rw [mkpoly_of_ne]
      · simp [elemOfByte_toNat h1 h2]
      · rw [Bool.eq_false_iff, ne_eq, isZeroPoly_map_elemOfByte h1 h2]
        exact fun hall => hne (hall _ (List.mem_map_of_mem (List.mem_range.2 hj)))

/-- Settles O29: the two outcomes of MemWrite (R53). -/
theorem polyStore : Obligations.PolyStore := by
  intro s ps addr _ he
  have haddr := addr.isLt
  rcases s.memWrite_cases addr.toNat (s.poly ps) with ⟨hw, _, hout⟩ | ⟨hw, hin⟩
  · exact ⟨fun _ => takesFault_of_command he (f := .addressRange) (congrArg s.command hw),
      fun hfit => absurd hfit (not_le.2 hout)⟩
  · refine ⟨fun hover => ?_, fun _ => writesBytes_of_command he (congrArg s.command hw)⟩
    rcases hin with hnil | hfit
    · rw [hnil, List.length_nil] at hover
      omega
    · exact absurd hfit (not_le.2 hover)

/-- Settles O30: a raw length and a degree are below 65, so the response holds them as they are; the degree -1 is all
ones. -/
theorem polyLengthAndDegree : Obligations.PolyLengthAndDegree := by
  intro s pa hinv he
  have hlen : (s.poly pa).length ≤ 64 := (hinv.polys pa).1
  refine ⟨⟨_, ?_, State.query_ok he _⟩, ⟨_, State.query_ok he _, fun hzero => ?_, fun d hd hd' => ?_⟩⟩
  · exact (BitVec.toNat_ofNat ..).trans (Nat.mod_eq_of_lt (by omega))
  · rw [(isZeroPoly_iff_deg _).1 ((isZeroPoly_iff_coeff _).2 hzero)]
    rfl
  · have hdeg : deg (s.poly pa) = d := deg_eq_of_coeffE (fun h => hd ((coeff_eq_zero_iff _ _).2 h))
      fun k hk => (coeff_eq_zero_iff _ _).1 (hd' k hk)
    have hlt := deg_lt_length (s.poly pa)
    rw [hdeg, BitVec.ofInt_natCast]
    exact (BitVec.toNat_ofNat ..).trans (Nat.mod_eq_of_lt (by omega))

/-- Settles O31: `tograde` fixes the raw length and keeps the coefficients that fit. -/
theorem polyRegrade : Obligations.PolyRegrade := by
  intro s pd pa n _ he
  rcases tograde_cases (s.poly pa) n.toNat with ⟨hg, hover⟩ | ⟨hg, hfit⟩
  · exact ⟨fun _ => (takesFault_iff he rfl .lengthOverflow).2 hg, fun hn => absurd hn (not_le.2 hover)⟩
  · exact ⟨fun hn => absurd hn (not_lt.2 hfit),
      fun _ => ⟨_, (writesPoly_iff he rfl _).2 hg, regrade_length _ _, coeff_regrade _ _⟩⟩

/-- Settles O32: PSHORT by what the shortened form is; PSHL by its check and by what `mkpoly` leaves. -/
theorem polyShortenAndShift : Obligations.PolyShortenAndShift := by
  intro s pd pa n _ he
  obtain ⟨hsplit, _, hhead⟩ := shortened_spec (s.poly pa)
  refine ⟨⟨_, _, hsplit, hhead, writesPoly_of_command he rfl⟩, ?_⟩
  rcases pshl_cases (s.poly pa) n.toNat with ⟨hs, hover⟩ | ⟨hs, hfit⟩
  · exact ⟨fun _ => (takesFault_iff he rfl .lengthOverflow).2 hs, fun hn => absurd hn (not_le.2 hover)⟩
  · refine ⟨fun hn => absurd hn (not_lt.2 hfit), fun _ => ⟨_, (writesPoly_iff he rfl _).2 hs, fun hall => ?_, ?_⟩⟩
    · exact mkpoly_of_zero ((isZeroPoly_append_zeros _ _).2 hall)
    · rintro ⟨v, hv, hne⟩
      refine mkpoly_of_ne (Bool.eq_false_iff.2 fun hz => hne ?_)
      exact (isZeroPoly_append_zeros _ _).1 hz v hv

/-- Settles O33: both are `combine`, which works coefficient by coefficient. -/
theorem polyAddSub : Obligations.PolyAddSub := by
  intro s pd pa pb hinv he
  obtain ⟨hm, h2⟩ := hinv.modulus
  have h1 : 1 ≤ s.m := by omega
  exact ⟨⟨_, writesPoly_of_command he rfl, coeff_padd h1 h2 _ _, rawLength_of_isZeroPoly (combine_length .add ..)⟩,
    ⟨_, writesPoly_of_command he rfl, coeff_psub h1 h2 _ _, rawLength_of_isZeroPoly (combine_length .sub ..)⟩⟩

/-- Settles O34: `pscale` works coefficient by coefficient. -/
theorem polyScale : Obligations.PolyScale := by
  intro s pd pa eb hinv he
  obtain ⟨hm, h2⟩ := hinv.modulus
  exact ⟨_, writesPoly_of_command he rfl, coeff_pscale (by omega) h2 _ _, rawLength_of_isZeroPoly (pscale_length ..)⟩

/-- Settles O35: all `pmul` can do, and the raw length where the leading coefficients do not multiply to 0. -/
theorem polyProductIsTheOrdinaryProduct : Obligations.PolyProductIsTheOrdinaryProduct := by
  intro s pd pa pb hinv he
  obtain ⟨hm, h2⟩ := hinv.modulus
  have h1 : 1 ≤ s.m := by omega
  rcases pmul_cases h1 h2 (s.poly pa) (s.poly pb) with ⟨hov, hf⟩ | ⟨hov, c, hc, _, _, hzero, hlen⟩
  · exact ⟨fun _ => (takesFault_iff he rfl .lengthOverflow).2 hf, fun hn => absurd hov hn⟩
  · have hprod := pmul_isProduct h1 h2 hc
    exact ⟨fun h => absurd h hov,
      fun _ => ⟨c, (writesPoly_iff he rfl c).2 hc, hprod, hzero, hlen, hprod.length_of_lead⟩⟩

/-- Settles O36: every power from the one before it, by the product of the two. -/
theorem polyPower : Obligations.PolyPower := by
  intro s pd pa hinv he
  obtain ⟨hm, h2⟩ := hinv.modulus
  have h1 : 1 ≤ s.m := by omega
  have hexec : ∀ n < 65536, exec (.ppow pd pa (BitVec.ofNat 16 n)) s =
      s.command ((ppow s.m (s.poly pa) n).map (s.setPoly pd)) := fun n hn => by
    have himm : unsignedImm (BitVec.ofNat 16 n) = n := (BitVec.toNat_ofNat ..).trans (Nat.mod_eq_of_lt hn)
    rw [exec, execPpow, himm]
  refine ⟨writesPoly_of_command he rfl, writesPoly_of_command he rfl, fun n hn hlt => ?_⟩
  have hwn := writesPoly_iff he (hexec n (by omega))
  have hws := writesPoly_iff he (hexec (n + 1) (by omega))
  have hfn := takesFault_iff he (hexec n (by omega)) .lengthOverflow
  have hfs := takesFault_iff he (hexec (n + 1) (by omega)) .lengthOverflow
  refine ⟨fun hfit => ?fits, fun b hb hov => ?product, fun b hb hb1 ha1 hov => ?overflow, fun hf => ?afterFault⟩
  case fits =>
    obtain ⟨b, hb, hdeg⟩ := ppow_ok_of_fits h1 h2 (hinv.polys pa).1 hn hfit
    rcases ppow_succ_cases h1 h2 hn hb with ⟨⟨hb1, _, hov⟩, _⟩ | ⟨_, c, hc, hprod, hzero⟩
    · have hlong : 64 < ((s.poly pa).length : Int) + deg b := hov
      omega
    · exact ⟨b, c, (hwn b).2 hb, (hws c).2 hc, hprod, fun ha1 => hzero (.inr ha1)⟩
  case product =>
    rcases ppow_succ_cases h1 h2 hn ((hwn b).1 hb) with ⟨hov', _⟩ | ⟨_, c, hc, hprod, _⟩
    · exact absurd hov' hov
    · exact ⟨c, (hws c).2 hc, hprod⟩
  case overflow =>
    rcases ppow_succ_cases h1 h2 hn ((hwn b).1 hb) with ⟨_, hf⟩ | ⟨hov', _⟩
    · exact hfs.2 hf
    · exact absurd ⟨hb1, ha1, hov⟩ hov'
  case afterFault =>
    refine hfs.2 ?_
    rw [ppow_succ _ _ hn, hfn.1 hf]

/-- Settles O37: the Horner form is the value of the polynomial, and the sum is that value. -/
theorem polyEvaluate : Obligations.PolyEvaluate := by
  intro s ed pa eb hinv he
  obtain ⟨hm, h2⟩ := hinv.modulus
  obtain ⟨hlt, hval⟩ := peval_spec (m := s.m) (by omega) h2 (s.poly pa) (s.elem eb)
  refine writesElem_of_command he rfl ?_
  rw [eval_ringPoly, natCast_eq_iff_mod, Nat.mod_eq_of_lt hlt] at hval
  exact hval

/-- Settles O38: what each predicate says of the coefficients. -/
theorem polyPredicates : Obligations.PolyPredicates := by
  intro s pa pb he
  refine ⟨setsT_of_command he rfl (peq_iff _ _), setsT_of_command he rfl (pgt_iff _ _), setsT_of_command he rfl ?_⟩
  rw [Bool.not_eq_true', Bool.eq_false_iff, ne_eq, isZeroPoly_iff_coeff, not_forall]

/-- Settles O39: equal coefficients everywhere, or a highest difference, which makes exactly one list the greater. -/
theorem polyOrderIsTotal : Obligations.PolyOrderIsTotal := by
  intro a b
  simp only [← Bool.not_eq_true, pgt_iff, peq_iff]
  by_cases heq : ∀ k, coeff a k = coeff b k
  · have hab : ¬HighestDifferenceGreater a b := fun ⟨k, hk, _⟩ => hk.ne' (heq k)
    have hba : ¬HighestDifferenceGreater b a := fun ⟨k, hk, _⟩ => hk.ne (heq k)
    exact .inr (.inr ⟨hab, hba, heq⟩)
  · rcases highestDifferenceGreater_or heq with hab | hba
    · exact .inl ⟨hab, hab.asymm, heq⟩
    · exact .inr (.inl ⟨hba.asymm, hba, heq⟩)

end Sys2Proof.Machine
end

section
/-! Long division (42_polynomial_long_div.md R180 to R188): the division and its loop case by case, the division identity
on coefficients and in the ring, one iteration against the division of what it leaves, and the three commands. -/

namespace Sys2Proof.Machine

/-! ### The loop and the division, case by case (R180, R182) -/

/-- The loop stops where the remainder has lower degree than the divisor. -/
theorem divLoop_of_deg_lt {m : Nat} {dv r : Poly} (h : deg r < deg dv) (n fuel : Nat) (q : Poly) :
    divLoop m dv n fuel q r = .ok (q, r) := by
  cases fuel with
  | zero => rfl
  | succ fuel => rw [divLoop, if_pos h]

theorem divLoop_of_inexact {m : Nat} {dv r : Poly} (h : deg dv ≤ deg r) (hex : (lead r).toNat % (lead dv).toNat ≠ 0)
    (n fuel : Nat) (q : Poly) : divLoop m dv n (fuel + 1) q r = .error .inexactLeadingQuotient := by
  rw [divLoop, if_neg (not_lt.2 h)]
  exact if_pos hex

theorem divLoop_of_exact {m k : Nat} {dv r : Poly} (h : deg r = deg dv + k)
    (hex : (lead r).toNat % (lead dv).toNat = 0) (n fuel : Nat) (q : Poly) :
    divLoop m dv n (fuel + 1) q r = divLoop m dv n fuel (q.set (n - k) (fop .div m (lead r) (lead dv)))
      (shortened (psub m r (pscale m (shiftUp dv k) (fop .div m (lead r) (lead dv))))) := by
  obtain rfl : k = (deg r - deg dv).toNat := by omega
  rw [divLoop, if_neg (by omega)]
  exact if_neg (not_not.2 hex)

theorem pdivmod_of_deg_neg (m : Nat) (a : Poly) {d : Poly} (hd : deg d = -1) :
    pdivmod m a d = .error .divideByZeroPolynomial :=
  if_pos ((isZeroPoly_iff_deg d).2 hd)

theorem pdivmod_of_deg_lt (m : Nat) {a d : Poly} (hd : deg d ≠ -1) (hlt : deg a < deg d) :
    pdivmod m a d = .ok ([], a) := by
  rw [pdivmod, if_neg (by rwa [isZeroPoly_iff_deg]), if_pos hlt]

/-- Past the two checks the division is its loop, the raw quotient ended by `mkpoly`. -/
theorem pdivmod_eq_divLoop (m : Nat) {a d : Poly} {n : Nat} (hd : deg d ≠ -1) (hn : deg a = deg d + n) :
    pdivmod m a d =
      (divLoop m (shortened d) n (n + 1) (zeros (n + 1)) (shortened a)).map (Prod.map mkpoly id) := by
  obtain rfl : n = (deg a - deg d).toNat := by omega
  rw [pdivmod, if_neg (by rwa [isZeroPoly_iff_deg]), if_neg (by omega)]
  rfl

theorem pdivmod_of_inexact (m : Nat) {a d : Poly} (hd : deg d ≠ -1) (hle : deg d ≤ deg a)
    (hex : (lead a).toNat % (lead d).toNat ≠ 0) : pdivmod m a d = .error .inexactLeadingQuotient := by
  rw [pdivmod_eq_divLoop m (n := (deg a - deg d).toNat) hd (by omega), divLoop_of_inexact (by simpa) (by simpa)]
  rfl

/-- A division that returns lists satisfies everything `Divided` says. -/
theorem Divided.of_ok {m : Nat} (h1 : 1 ≤ m) (h2 : m ≤ 256) {a d q r : Poly} (ha : EntriesBelow m a)
    (h : pdivmod m a d = .ok (q, r)) : Divided m a d q r := by
  rcases pdivmod_cases h1 h2 ha d with ⟨_, he⟩ | ⟨_, _, _, he⟩ | ⟨_, q', r', he, hdiv⟩
  all_goals
    rw [he] at h
    cases h
  exact hdiv

/-! ### The division identity on coefficients and in the ring (R187) -/

theorem EntriesBelow.coeff_lt {m : Nat} (h1 : 1 ≤ m) {c : Poly} (h : EntriesBelow m c) (k : Nat) : coeff c k < m :=
  h.coeffE_lt h1 k

theorem EntriesBelow.lead_lt {m : Nat} (h1 : 1 ≤ m) {c : Poly} (h : EntriesBelow m c) : (lead c).toNat < m := by
  by_cases hc : deg c = -1
  · rw [lead_of_deg_neg hc]
    exact h1
  · rw [← coeff_deg hc]
    exact h.coeff_lt h1 _

/-- Reduced lists are told, up to padding, by the polynomials they stand for. -/
theorem coeffE_eq_of_ringPoly_eq {m : Nat} (h1 : 1 ≤ m) {a b : Poly} (ha : EntriesBelow m a) (hb : EntriesBelow m b)
    (h : ringPoly m a = ringPoly m b) (k : Nat) : coeffE a k = coeffE b k := by
  refine elem_eq_of_residue_eq (ha.coeffE_lt h1 k) (hb.coeffE_lt h1 k) ?_
  have hk := congrArg (Polynomial.coeff · k) h
  simpa only [ringPoly_coeff, coeff_eq] using hk

theorem division_identity_iff {m : Nat} (h1 : 1 ≤ m) {a : Poly} (ha : EntriesBelow m a) (d q r : Poly) :
    (∀ k, (prodCoeff q d k + coeff r k) % m = coeff a k) ↔
      ringPoly m q * ringPoly m d + ringPoly m r = ringPoly m a := by
  rw [Polynomial.ext_iff]
  refine forall_congr' fun k => ?_
  rw [Polynomial.coeff_add, ← prodCoeff_cast, ringPoly_coeff, ringPoly_coeff, ← Nat.cast_add, natCast_eq_iff_mod,
    Nat.mod_eq_of_lt (ha.coeff_lt h1 k)]

/-- The identity in the model's own operations, wherever the product fits. -/
theorem peq_padd_of_identity {m : Nat} (h1 : 1 ≤ m) (h2 : m ≤ 256) {a d q r c : Poly}
    (hid : ∀ k, (prodCoeff q d k + coeff r k) % m = coeff a k) (hc : pmul m q d = .ok c) :
    peq (padd m c r) a = true := by
  rw [peq_iff]
  intro k
  rw [coeff_padd h1 h2, (pmul_isProduct h1 h2 hc).coeffs, Nat.mod_add_mod, hid]

theorem prodCoeff_shortened_right (a b : Poly) (k : Nat) : prodCoeff a (shortened b) k = prodCoeff a b k := by
  simp only [prodCoeff, coeff_eq, coeffE_shortened]

/-- The quotient times the shortened divisor is no longer than the shortened dividend. -/
theorem Divided.pmul_fits {m : Nat} {a d q r : Poly} (h : Divided m a d q r) (ha : a.length ≤ Config.nmax) :
    ¬PmulOverflows q (shortened d) := by
  rintro ⟨hq, _, hover⟩
  have hd := shortened_length d
  have hdega := deg_lt_length a
  have hdegq := deg_lt_length q
  by_cases hlt : deg a < deg d
  · obtain ⟨rfl, _⟩ := h.early hlt
    exact hq rfl
  · obtain ⟨_, _, hlen⟩ := h.late (not_lt.1 hlt)
    omega

/-- Settles O41: what a finished division leaves, carried from the ring to coefficients and to the model's own
operations. -/
theorem divisionRoundTrip : Obligations.DivisionRoundTrip := by
  intro m a d q r hm h2 ha _ hdiv
  have h1 : 1 ≤ m := by omega
  have hdone := Divided.of_ok h1 h2 ha.2 hdiv
  have hid := (division_identity_iff h1 ha.2 d q r).2 hdone.identity
  refine ⟨hid, hdone.degree, fun c hc => peq_padd_of_identity h1 h2 hid hc, ?short, hdone.late,
    pdivmod_legal hm h2 ha hdiv⟩
  rcases pmul_cases h1 h2 q (shortened d) with ⟨hover, _⟩ | ⟨_, c, hc, _⟩
  · exact absurd hover (hdone.pmul_fits ha.1)
  · exact ⟨c, hc, peq_padd_of_identity h1 h2 (by simpa only [prodCoeff_shortened_right] using hid) hc⟩

/-! ### One iteration (R180, R181, R183) -/

/-- The loop started on the remainder r, with a raw quotient of any size whose positions below Z are still free, does
what the division of r does: it faults where that faults, and else fills those positions with its quotient and leaves its
remainder, shortened. -/
theorem divLoop_eq_pdivmod {m : Nat} (h1 : 1 ≤ m) (h2 : m ≤ 256) {d r : Poly} (hd : deg d ≠ -1)
    (hr : EntriesBelow m r) {n fuel Z : Nat} {q : Poly} (hfuel : Z ≤ fuel) (hn : Z ≤ n + 1) (hdeg : deg r < deg d + Z)
    (hq : q.length = n + 1) (hfree : ∀ j, j < Z → coeffE q j = 0) :
    (pdivmod m r d = .error .inexactLeadingQuotient ∧
      divLoop m (shortened d) n fuel q (shortened r) = .error .inexactLeadingQuotient) ∨
    ∃ q' r' u, pdivmod m r d = .ok (q', r') ∧ divLoop m (shortened d) n fuel q (shortened r) = .ok (u, shortened r') ∧
      (∀ j, j < Z → coeffE u j = coeffE q' j) ∧
      ∀ j, Z ≤ j → coeffE u j = coeffE q j ∧ coeffE q' j = 0 := by
  by_cases hlt : deg r < deg d
  · refine .inr ⟨[], r, q, pdivmod_of_deg_lt m hd hlt, divLoop_of_deg_lt (by simpa) .., fun j hj => ?_,
      fun j _ => ⟨rfl, coeffE_nil j⟩⟩
    rw [hfree j hj, coeffE_nil]
  obtain ⟨n', hn'⟩ : ∃ n' : Nat, deg r = deg d + n' := ⟨(deg r - deg d).toNat, by omega⟩
  have hrun := pdivmod_eq_divLoop m hd hn'
  rcases divLoop_agree h1 h2 (dv := shortened d) (n := n) (n' := n') (by simpa) fuel (n' + 1) (n' + 1) q
    (zeros (n' + 1)) (shortened r) (by omega) le_rfl (by omega) le_rfl
    (by rw [deg_shortened, deg_shortened]; omega) hq (zeros_length _)
    (fun j hj => by rw [hfree j (by omega), zeros_coeffE]) hr.shortened with
    ⟨hf, hf'⟩ | ⟨u, u', v, hu, hu', hbelow, hkeep, hkeep'⟩
  · rw [hf'] at hrun
    exact .inl ⟨hrun, hf⟩
  · have hdiv : pdivmod m r d = .ok (mkpoly u', v) := by rw [hrun, hu']; rfl
    obtain ⟨hshort, _⟩ := (Divided.of_ok h1 h2 hr hdiv).late (by omega)
    refine .inr ⟨mkpoly u', v, u, hdiv, by rwa [hshort], fun j hj => ?_, fun j hj => ⟨hkeep j (by omega), ?_⟩⟩
    · rw [coeffE_mkpoly]
      by_cases hj' : j < n' + 1
      · exact hbelow j hj'
      · rw [hkeep j (by omega), hkeep' j (by omega), hfree j hj, zeros_coeffE]
    · rw [coeffE_mkpoly, hkeep' j (by omega), zeros_coeffE]

/-- What one iteration leaves is, in the ring, the dividend less the term's multiple of the divisor. -/
theorem ringPoly_eq_sub_term {m k t : Nat} {a a' d : Poly}
    (h : ∀ j, (coeff a' j + if k ≤ j then t * coeff d (j - k) else 0) % m = coeff a j) :
    ringPoly m a' = ringPoly m a - ringPoly m d * .X ^ k * .C (t : ZMod m) := by
  refine eq_sub_of_add_eq (Polynomial.ext fun j => ?_)
  rw [Polynomial.coeff_add, Polynomial.coeff_mul_C, Polynomial.coeff_mul_X_pow', ringPoly_coeff, ringPoly_coeff,
    ringPoly_coeff, ← h j, ZMod.natCast_mod, Nat.cast_add]
  split
  · rw [Nat.cast_mul, mul_comm (t : ZMod m)]
  · simp

/-- An exact first iteration hands the loop the list a', shortened, which has lower degree than the dividend. -/
theorem divStep_rest {m : Nat} (h1 : 1 ≤ m) (h2 : m ≤ 256) {a a' d : Poly} {k : Nat} {t : Elem} (hd : deg d ≠ -1)
    (ha : EntriesBelow m a) (ha' : EntriesBelow m a') (hk : deg a = deg d + k)
    (hex : (lead a).toNat % (lead d).toNat = 0) (ht : t = fop .div m (lead a) (lead d))
    (hrest : ∀ j, (coeff a' j + if k ≤ j then t.toNat * coeff d (j - k) else 0) % m = coeff a j) :
    shortened (psub m (shortened a) (pscale m (shiftUp (shortened d) k) t)) = shortened a' ∧ deg a' < deg a := by
  obtain ⟨_, hdeg, hring⟩ := divStep h1 h2 (dv := shortened d) (r := shortened a) (k := k) (by simpa) ha.shortened
    (by rw [deg_shortened, deg_shortened]; omega) (by simpa) (by rw [deg_shortened, deg_shortened]; omega) (by simpa)
  rw [ringPoly_shortened, ringPoly_shortened, ← ringPoly_eq_sub_term hrest] at hring
  have hcoeff := coeffE_eq_of_ringPoly_eq (a := psub m _ _) h1 (entriesBelow_combine .sub h1 h2 _ _) ha' hring
  rw [deg_congr hcoeff, deg_shortened, ← hk] at hdeg
  exact ⟨(shortened_eq_iff _ _).2 hcoeff, hdeg⟩

/-- Settles O55: the loop runs its first iteration, which puts t at x^k, and from there does what the division of a'
does. -/
theorem divisionStep : Obligations.DivisionStep := by
  intro m a d hm h2 ha _
  have h1 : 1 ≤ m := by omega
  refine ⟨pdivmod_of_deg_neg m a, pdivmod_of_deg_lt m, pdivmod_of_inexact m,
    fun k t a' hd hk hex ht ha' hrest => ?_⟩
  have htE : (fop .div m (lead a) (lead d)).toNat = t := by
    rw [ht, fop_div_toNat_reduced h2 (EntriesBelow.lead_lt h1 ha.2)]
  obtain ⟨hleft, hdeg⟩ := divStep_rest h1 h2 hd ha.2 ha'.2 hk hex rfl (by rwa [htE])
  have hrun := pdivmod_eq_divLoop m hd hk
  rw [divLoop_of_exact (by simpa using hk) (by simpa using hex), lead_shortened, lead_shortened, hleft] at hrun
  have hset := coeffE_set (zeros_length (k + 1)) le_rfl (fop .div m (lead a) (lead d))
  refine ⟨hdeg, ?_⟩
  rcases divLoop_eq_pdivmod h1 h2 hd ha'.2 (n := k) (fuel := k) (Z := k)
    (q := (zeros (k + 1)).set (k - k) (fop .div m (lead a) (lead d))) le_rfl (by omega) (by omega) (by simp)
    (fun j hj => by rw [hset, if_neg (by omega), zeros_coeffE]) with
    ⟨hf', hf⟩ | ⟨q', r', u, hok', hok, hbelow, hkeep⟩
  · rw [hf] at hrun
    exact ⟨fun _ => hrun, fun _ _ h => absurd (hf'.symm.trans h) nofun⟩
  · have hdiv : pdivmod m a d = .ok (mkpoly u, shortened r') := by rw [hrun, hok]; rfl
    refine ⟨fun h => absurd (hok'.symm.trans h) nofun, fun _ _ h => ?_⟩
    rw [hok'] at h
    cases h
    obtain ⟨_, _, hlen⟩ := (Divided.of_ok h1 h2 ha.2 hdiv).late (by omega)
    refine ⟨mkpoly u, hdiv, by omega, fun j => ?_⟩
    rw [coeff_eq, coeff_eq, coeffE_mkpoly]
    rcases lt_or_ge j k with hj | hj
    · rw [hbelow j hj, if_neg (by omega)]
    · obtain ⟨hu, hq'⟩ := hkeep j hj
      rw [hu, hset, hq', zeros_coeffE, apply_ite BitVec.toNat, htE]

/-! ### The three commands (R184, R185, R186) -/

section Commands
variable {s : State} {pa pb : PReg} (he : s.err = false)
include he

/-- A division that returns a pair: PDIVMOD writes both lists, PDIV the first and PMOD the second. -/
theorem division_commands_complete {q r : Poly} (h : pdivmod s.m (s.poly pa) (s.poly pb) = .ok (q, r)) (pq pr : PReg) :
    (pq ≠ pr → CompletesIn (.pdivmod pq pr pa pb) s { s with p := (s.p.set pq q).set pr r } 0) ∧
      WritesPoly (.pdiv pq pa pb) s pq q ∧ WritesPoly (.pmod pr pa pb) s pr r := by
  refine ⟨fun hne => ?_, writesPoly_of_command he ?_, writesPoly_of_command he ?_⟩
  · rw [CompletesIn, exec, execPdivmod, if_neg hne, h]
    exact State.command_ok he _
  · rw [exec, execPdiv, h]; rfl
  · rw [exec, execPmod, h]; rfl

/-- A division that faults: all three commands take its fault. -/
theorem division_commands_fault {f : FaultCode} (h : pdivmod s.m (s.poly pa) (s.poly pb) = .error f) (pq pr : PReg) :
    (pq ≠ pr → TakesFault (.pdivmod pq pr pa pb) s f.code) ∧
      TakesFault (.pdiv pq pa pb) s f.code ∧ TakesFault (.pmod pr pa pb) s f.code := by
  refine ⟨fun hne => takesFault_of_command he ?_, takesFault_of_command he ?_, takesFault_of_command he ?_⟩
  · rw [exec, execPdivmod, if_neg hne, h]; rfl
  · rw [exec, execPdiv, h]; rfl
  · rw [exec, execPmod, h]; rfl

end Commands

/-- Settles O40: the outcomes of the division that need no iteration, carried to the commands. -/
theorem divisionEarlyOutcomes : Obligations.DivisionEarlyOutcomes := by
  intro s pq pr pa pb he
  refine ⟨?sameRegister, fun hd => ?zeroDivisor, fun hd hlt => ?early, fun hd hle hex => ?inexact⟩
  case sameRegister => exact takesFault_of_command he (f := .illegalCommand) (congrArg s.command (if_pos rfl))
  case zeroDivisor => exact division_commands_fault he (pdivmod_of_deg_neg _ _ hd) pq pr
  case early => exact division_commands_complete he (pdivmod_of_deg_lt _ hd hlt) pq pr
  case inexact => exact division_commands_fault he (pdivmod_of_inexact _ hd hle hex) pq pr

/-- Settles O43: the commands by the one division, whose only faults have the codes 1 and 4. -/
theorem divisionCommandsAgree : Obligations.DivisionCommandsAgree := by
  intro s pq pr pa pb he hne
  refine ⟨fun q r h => ?_, fun f h => ⟨?_, ?_⟩⟩
  · obtain ⟨hboth, heach⟩ := division_commands_complete he h pq pr
    exact ⟨hboth hne, heach⟩
  · rcases pdivmod_error h with rfl | rfl
    · exact .inl rfl
    · exact .inr rfl
  · obtain ⟨hboth, heach⟩ := division_commands_fault he h pq pr
    exact ⟨hboth hne, heach⟩

/-! ### Monic divisors (R188) -/

/-- Above the degree of the list the ring sees no coefficient. -/
theorem ringPoly_coeff_of_deg_lt (m : Nat) {c : Poly} {k : Nat} (h : deg c < k) : (ringPoly m c).coeff k = 0 := by
  rw [ringPoly_coeff, coeff_eq_zero_of_deg_lt h, Nat.cast_zero]

/-- A lower degree of the list is a lower degree in the ring. -/
theorem degree_ringPoly_lt (m : Nat) {c : Poly} {n : Nat} (h : deg c < n) : (ringPoly m c).degree < n :=
  (Polynomial.degree_lt_iff_coeff_zero _ _).2 fun _ _ => ringPoly_coeff_of_deg_lt m (by omega)

/-- A leading coefficient 1 makes the polynomial monic, of the same degree. -/
theorem ringPoly_monic {m : Nat} (hm : 2 ≤ m) {d : Poly} (hd : deg d ≠ -1) (hl : lead d = 1) :
    (ringPoly m d).Monic ∧ (ringPoly m d).degree = (deg d).toNat := by
  have : Fact (1 < m) := ⟨hm⟩
  have hge := deg_ge d
  have htop : (ringPoly m d).coeff (deg d).toNat = 1 := by
    rw [ringPoly_coeff, coeff_deg hd, hl]
    exact Nat.cast_one
  have hle : (ringPoly m d).natDegree ≤ (deg d).toNat :=
    Polynomial.natDegree_le_iff_coeff_eq_zero.2 fun _ _ => ringPoly_coeff_of_deg_lt m (by omega)
  exact ⟨Polynomial.monic_of_natDegree_le_of_coeff_eq_one _ hle htop,
    Polynomial.degree_eq_of_le_of_coeff_ne_zero (Polynomial.degree_le_of_natDegree_le hle) (htop ▸ one_ne_zero)⟩

/-- By a monic divisor, quotient and remainder are the only ones there are (the division with remainder of the ring). -/
theorem monic_division_unique {m : Nat} (hm : 2 ≤ m) {d q r q' r' : Poly} (hd : deg d ≠ -1) (hl : lead d = 1)
    (hq : EntriesBelow m q) (hr : EntriesBelow m r) (hq' : EntriesBelow m q') (hr' : EntriesBelow m r')
    (heq : ringPoly m q' * ringPoly m d + ringPoly m r' = ringPoly m q * ringPoly m d + ringPoly m r)
    (hdeg : deg r < deg d) (hdeg' : deg r' < deg d) (k : Nat) : coeff q' k = coeff q k ∧ coeff r' k = coeff r k := by
  have h1 : 1 ≤ m := by omega
  obtain ⟨hmonic, hdegree⟩ := ringPoly_monic hm hd hl
  have hlow : ∀ {c : Poly}, deg c < deg d → (ringPoly m c).degree < (ringPoly m d).degree := fun hc => by
    rw [hdegree]
    exact degree_ringPoly_lt m (by omega)
  obtain ⟨hdiv, hmod⟩ := Polynomial.div_modByMonic_unique (ringPoly m q) (ringPoly m r) hmonic
    ⟨by rw [add_comm, mul_comm], hlow hdeg⟩
  obtain ⟨hdiv', hmod'⟩ := Polynomial.div_modByMonic_unique (ringPoly m q') (ringPoly m r') hmonic
    ⟨by rw [add_comm, mul_comm, heq], hlow hdeg'⟩
  exact ⟨congrArg BitVec.toNat (coeffE_eq_of_ringPoly_eq h1 hq' hq (hdiv'.symm.trans hdiv) k),
    congrArg BitVec.toNat (coeffE_eq_of_ringPoly_eq h1 hr' hr (hmod'.symm.trans hmod) k)⟩

/-- Over MOD = 2 every leading coefficient is 1. -/
theorem lead_eq_one_of_two {d : Poly} (hb : EntriesBelow 2 d) (hd : deg d ≠ -1) : lead d = 1 := by
  obtain ⟨_, hne⟩ := coeffE_deg hd
  have hlt := hb.lead_lt (by omega)
  have hpos : (lead d).toNat ≠ 0 := fun h => hne (BitVec.eq_of_toNat_eq h)
  exact BitVec.eq_of_toNat_eq (show (lead d).toNat = 1 by omega)

/-- Settles O42: a leading coefficient 1 divides every other, so the loop never faults; the ring's division by a monic
polynomial gives uniqueness. -/
theorem monicDivisionCompletes : Obligations.MonicDivisionCompletes := by
  intro s pq pr pa pb hinv he hne hd hor
  obtain ⟨hm, h2⟩ := hinv.modulus
  obtain ⟨_, ha⟩ := hinv.polys pa
  obtain ⟨_, hb⟩ := hinv.polys pb
  have h1 : 1 ≤ s.m := by omega
  have hl : lead (s.poly pb) = 1 := hor.elim (fun h => lead_eq_one_of_two (h ▸ hb) hd) id
  rcases pdivmod_cases h1 h2 ha (s.poly pb) with ⟨h0, _⟩ | ⟨_, _, hl', _⟩ | ⟨_, q, r, hok, hdone⟩
  · exact absurd h0 hd
  · exact absurd hl hl'
  obtain ⟨hboth, hpdiv, hpmod⟩ := division_commands_complete he hok pq pr
  have hident := fun x y => division_identity_iff h1 ha (s.poly pb) x y
  refine ⟨q, r, hboth hne, hpdiv, hpmod, (hident q r).2 hdone.identity, hdone.degree,
    fun q' r' hq' hr' hid' hdeg' => ?_⟩
  exact monic_division_unique hm hd hl hdone.belowQ hdone.belowR hq' hr'
    (((hident q' r').1 hid').trans hdone.identity.symm) hdone.degree hdeg'

end Sys2Proof.Machine
end

section
/-! Unit CSXR (43_crc_shift_xor.md R200 to R211): numbers as polynomials over GF(2), the register of a context against
the polynomial division of the stream, and what the commands, alone and one after another, leave of a context. -/

namespace Sys2Proof.Machine

open Polynomial

/-! ### Bit lists (R55, R209) -/

@[simp] theorem bitList_length (n v : Nat) : (bitList n v).length = n := by simp [bitList]

/-- No digit stands at or above the length. -/
theorem testBit_of_two_pow_le {v n k : Nat} (h : v < 2 ^ n) (hk : n ≤ k) : v.testBit k = false :=
  Nat.testBit_lt_two_pow (h.trans_le (Nat.pow_le_pow_right (by norm_num) hk))

theorem coeff_bitList {n v : Nat} (h : v < 2 ^ n) (k : Nat) : coeff (bitList n v) k = (v.testBit k).toNat := by
  rcases lt_or_ge k n with hk | hk
  · have hrev : n - 1 - (n - 1 - k) = k := by omega
    rw [coeff, List.getD_eq_getElem _ _ (by simpa using hk), List.getElem_reverse]
    simp only [bitList, List.getElem_map, List.getElem_range, List.length_map, List.length_range, hrev]
    cases v.testBit k <;> rfl
  · rw [coeff_eq, coeffE_of_length_le (by simpa using hk), testBit_of_two_pow_le h hk]
    rfl

/-- Digits are elements of the field of MOD = 2. -/
theorem entriesBelow_bitList (n v : Nat) : EntriesBelow 2 (bitList n v) := by
  intro x hx
  obtain ⟨i, _, rfl⟩ := List.mem_map.1 hx
  split <;> decide

theorem entriesBelow_streamBits (bytes : List Byte) : EntriesBelow 2 (streamBits bytes) := by
  intro x hx
  obtain ⟨b, _, hb⟩ := List.mem_flatMap.1 hx
  exact entriesBelow_bitList 8 b.toNat x hb

theorem streamBits_concat (bytes : List Byte) (b : Byte) :
    streamBits (bytes ++ [b]) = streamBits bytes ++ bitList 8 b.toNat := by
  simp [streamBits]

theorem bitsValue_concat (c : Poly) (v : Elem) : bitsValue (c ++ [v]) = bitsValue c * 2 + v.toNat := by
  simp [bitsValue, mul_comm]

theorem ringPoly_append (m : Nat) (a b : Poly) :
    ringPoly m (a ++ b) = ringPoly m a * X ^ b.length + ringPoly m b := by
  induction b using List.reverseRecOn with
  | nil => simp
  | append_singleton b v ih =>
    rw [← List.append_assoc, ringPoly_concat, ringPoly_concat, ih, List.length_append, List.length_singleton]
    ring

/-! ### Numbers as polynomials over GF(2) -/

/-- The polynomial over GF(2) whose coefficients are the binary digits of v; v places are enough for them. -/
noncomputable def bitPoly (v : Nat) : (ZMod 2)[X] := ringPoly 2 (bitList v v)

theorem bitPoly_coeff (v k : Nat) : (bitPoly v).coeff k = ((v.testBit k).toNat : ZMod 2) := by
  rw [bitPoly, ringPoly_coeff, coeff_bitList Nat.lt_two_pow_self]

theorem ringPoly_bitList {n v : Nat} (h : v < 2 ^ n) : ringPoly 2 (bitList n v) = bitPoly v := by
  ext k
  rw [ringPoly_coeff, bitPoly_coeff, coeff_bitList h]

theorem bitPoly_injective {v w : Nat} (h : bitPoly v = bitPoly w) : v = w := by
  refine Nat.eq_of_testBit_eq fun k => ?_
  have hk := congrArg (Polynomial.coeff · k) h
  simp only [bitPoly_coeff] at hk
  revert hk
  cases v.testBit k <;> cases w.testBit k <;> decide

theorem bitPoly_zero : bitPoly 0 = 0 := ringPoly_nil 2

theorem bitPoly_xor (v w : Nat) : bitPoly (v ^^^ w) = bitPoly v + bitPoly w := by
  ext k
  rw [coeff_add, bitPoly_coeff, bitPoly_coeff, bitPoly_coeff, Nat.testBit_xor]
  cases v.testBit k <;> cases w.testBit k <;> decide

/-- Digits side by side: the higher ones shifted above the n lower ones. -/
theorem bitPoly_shift_add {n w : Nat} (v : Nat) (h : w < 2 ^ n) :
    bitPoly (v * 2 ^ n + w) = bitPoly v * X ^ n + bitPoly w := by
  ext k
  rw [mul_comm, coeff_add, coeff_mul_X_pow', bitPoly_coeff, bitPoly_coeff, bitPoly_coeff,
    Nat.testBit_two_pow_mul_add v h]
  rcases lt_or_ge k n with hk | hk
  · rw [if_pos hk, if_neg (not_le.2 hk), zero_add]
  · rw [if_neg (not_lt.2 hk), if_pos hk, testBit_of_two_pow_le h hk, Bool.toNat_false, Nat.cast_zero, add_zero]

theorem bitPoly_shiftLeft (v n : Nat) : bitPoly (v <<< n) = bitPoly v * X ^ n := by
  rw [Nat.shiftLeft_eq, ← add_zero (v * 2 ^ n), bitPoly_shift_add v (Nat.two_pow_pos n), bitPoly_zero, add_zero]

theorem bitPoly_dvd_clmul (q g : Nat) : bitPoly g ∣ bitPoly (clmul q g) := by
  have hfold : ∀ (l : List Nat) (acc : Nat), bitPoly g ∣ bitPoly acc →
      bitPoly g ∣ bitPoly (l.foldl (fun acc i => if q.testBit i then acc ^^^ g <<< i else acc) acc) := by
    intro l
    induction l with
    | nil => exact fun _ h => h
    | cons i l ih =>
      refine fun acc h => ih _ ?_
      dsimp only
      split
      · rw [bitPoly_xor, bitPoly_shiftLeft]
        exact dvd_add h (dvd_mul_right _ _)
      · exact h
  exact hfold _ 0 (by rw [bitPoly_zero]; exact dvd_zero _)

theorem degree_bitPoly_lt {v n : Nat} (h : v < 2 ^ n) : (bitPoly v).degree < n := by
  refine (degree_lt_iff_coeff_zero _ _).2 fun k hk => ?_
  rw [bitPoly_coeff, testBit_of_two_pow_le h hk, Bool.toNat_false, Nat.cast_zero]

theorem bitPoly_digit {v : Nat} (h : v < 2) : bitPoly v = C (v : ZMod 2) := by
  obtain rfl | rfl : v = 0 ∨ v = 1 := by omega
  · simp [bitPoly_zero]
  · simp [bitPoly, bitList, ringPoly_cons]

/-- The digits of `bitsValue` are the list itself. -/
theorem bitPoly_bitsValue {c : Poly} (h : EntriesBelow 2 c) : bitPoly (bitsValue c) = ringPoly 2 c := by
  induction c using List.reverseRecOn with
  | nil => exact bitPoly_zero.trans (ringPoly_nil 2).symm
  | append_singleton c v ih =>
    have hv : v.toNat < 2 := h v (by simp)
    calc bitPoly (bitsValue (c ++ [v])) = bitPoly (bitsValue c * 2 ^ 1 + v.toNat) := by rw [bitsValue_concat, pow_one]
      _ = bitPoly (bitsValue c) * X ^ 1 + bitPoly v.toNat := bitPoly_shift_add _ hv
      _ = X * ringPoly 2 c + C (v.toNat : ZMod 2) := by
        rw [ih fun x hx => h x (List.mem_append_left _ hx), bitPoly_digit hv, pow_one, mul_comm]
      _ = ringPoly 2 (c ++ [v]) := (ringPoly_concat 2 c v).symm

/-! ### The register as the remainder of the stream (R204, R209) -/

section Generator
variable {gen : Word} (hg : gen ≠ 0)
include hg

/-- The generator as a divisor list: its degree is L - 1. -/
theorem deg_bitList_gen : deg (bitList (bitlen gen) gen.toNat) = (bitlen gen - 1 : Nat) := by
  obtain ⟨h1, _, _, hlt, htop⟩ := bitlen_spec hg
  refine deg_eq_of_coeffE ?_ fun k hk => coeffE_of_length_le (by rw [bitList_length]; omega)
  rw [ne_eq, ← coeff_eq_zero_iff, coeff_bitList hlt, htop]
  exact one_ne_zero

theorem bitPoly_gen_monic : (bitPoly gen.toNat).Monic ∧ (bitPoly gen.toNat).degree = (bitlen gen - 1 : Nat) := by
  obtain ⟨_, _, _, hlt, _⟩ := bitlen_spec hg
  have hd := deg_bitList_gen hg
  have hne : deg (bitList (bitlen gen) gen.toNat) ≠ -1 := by omega
  have hmonic := ringPoly_monic le_rfl hne (lead_eq_one_of_two (entriesBelow_bitList _ _) hne)
  rwa [ringPoly_bitList hlt, hd, Int.toNat_natCast] at hmonic

/-- A byte step changes the register times x^8 plus the byte by a multiple of the generator. -/
theorem gen_dvd_sub_crcByte {reg : Word} (hr : reg.toNat < 2 ^ (bitlen gen - 1)) (b : Byte) :
    bitPoly gen.toNat ∣ bitPoly reg.toNat * X ^ 8 + bitPoly b.toNat - bitPoly (crcByte gen reg b).toNat := by
  obtain ⟨_, q, _, hq⟩ := crcByte_spec hg hr b
  have hin : bitPoly (reg.toNat * 256 + b.toNat) = _ := bitPoly_shift_add (n := 8) reg.toNat b.isLt
  rw [hq, bitPoly_xor, hin, sub_add_cancel_left]
  exact (bitPoly_dvd_clmul q gen.toNat).neg_right

/-- A register of a legal context with a generator is below the generator's degree (R32). -/
theorem reg_lt_of_crcLegal {reg : Word} (h : CrcLegal gen reg) : reg.toNat < 2 ^ (bitlen gen - 1) := by
  rcases h with ⟨h0, _⟩ | ⟨_, hlt⟩
  · exact absurd h0 hg
  · exact hlt

theorem crcBytes_lt (bytes : List Byte) : (bytes.foldl (crcByte gen) 0).toNat < 2 ^ (bitlen gen - 1) :=
  reg_lt_of_crcLegal hg (crcBytes_legal bytes (crcLegal_zero gen) hg)

/-- The bytes fed so far and the register they leave differ by a multiple of the generator. -/
theorem gen_dvd_sub_crcBytes (bytes : List Byte) :
    bitPoly gen.toNat ∣ ringPoly 2 (streamBits bytes) - bitPoly (bytes.foldl (crcByte gen) 0).toNat := by
  induction bytes using List.reverseRecOn with
  | nil => simp [streamBits, bitPoly_zero]
  | append_singleton bytes b ih =>
    have hb := gen_dvd_sub_crcByte hg (crcBytes_lt hg bytes) b
    rw [streamBits_concat, ringPoly_append, bitList_length, ringPoly_bitList (n := 8) b.isLt, List.foldl_append]
    convert dvd_add (ih.mul_right (X ^ 8)) hb using 1
    simp only [List.foldl_cons, List.foldl_nil]
    ring

/-- The bytes fed to a cleared register leave the remainder of the stream by the generator. -/
theorem streamBits_modByMonic (bytes : List Byte) :
    ringPoly 2 (streamBits bytes) %ₘ bitPoly gen.toNat = bitPoly (bytes.foldl (crcByte gen) 0).toNat := by
  obtain ⟨hmonic, hdeg⟩ := bitPoly_gen_monic hg
  rw [modByMonic_eq_of_dvd_sub hmonic (gen_dvd_sub_crcBytes hg bytes), modByMonic_eq_self_iff hmonic, hdeg]
  exact degree_bitPoly_lt (crcBytes_lt hg bytes)

/-- The division of the stream by the generator never faults, and its remainder is what the byte steps leave (R209). -/
theorem pdivmod_streamBits (bytes : List Byte) :
    ∃ q r, pdivmod 2 (streamBits bytes) (bitList (bitlen gen) gen.toNat) = .ok (q, r) ∧
      (bytes.foldl (crcByte gen) 0).toNat = bitsValue r := by
  obtain ⟨_, _, _, hlt, _⟩ := bitlen_spec hg
  obtain ⟨hmonic, hdeg⟩ := bitPoly_gen_monic hg
  have hd := deg_bitList_gen hg
  have hne : deg (bitList (bitlen gen) gen.toNat) ≠ -1 := by omega
  have hlead := lead_eq_one_of_two (entriesBelow_bitList _ _) hne
  rcases pdivmod_cases (m := 2) (by decide) (by decide) (entriesBelow_streamBits bytes)
    (bitList (bitlen gen) gen.toNat) with ⟨h0, _⟩ | ⟨_, _, hl, _⟩ | ⟨_, q, r, hok, hdone⟩
  · exact absurd h0 hne
  · exact absurd hlead hl
  have hident := hdone.identity
  rw [ringPoly_bitList hlt] at hident
  have hlow : (ringPoly 2 r).degree < (bitPoly gen.toNat).degree := by
    rw [hdeg]
    exact degree_ringPoly_lt 2 (hd ▸ hdone.degree)
  obtain ⟨_, hmod⟩ := div_modByMonic_unique (ringPoly 2 q) (ringPoly 2 r) hmonic
    ⟨by rw [add_comm, mul_comm, hident], hlow⟩
  refine ⟨q, r, hok, bitPoly_injective ?_⟩
  rw [bitPoly_bitsValue hdone.belowR, ← hmod, streamBits_modByMonic hg]

end Generator

/-! ### What a command leaves of a context -/

/-- Commands one after another complete, and their whole effect but the response is `C[c] <- (g, r)`. -/
def LeavesContext (is : List Instr) (s : State) (c : CCtx) (g r : Word) : Prop :=
  ∃ t, runCommands is s = .next t ∧ t = { s with c := s.c.set c ⟨g, r⟩, rsp := t.rsp }

theorem runCommands_cons {i : Instr} {s t : State} (h : exec i s = .next t) (is : List Instr) :
    runCommands (i :: is) s = runCommands is t := by
  rw [runCommands, h]

theorem runCommands_append {is : List Instr} {s t : State} (h : runCommands is s = .next t) (js : List Instr) :
    runCommands (is ++ js) s = runCommands js t := by
  induction is generalizing s with
  | nil => cases h; rfl
  | cons i is ih =>
    rw [runCommands] at h
    split at h
    next u hu => exact (runCommands_cons hu (is ++ js)).trans (ih h)
    next r hr => exact absurd h (hr t)

/-- CBYTE past the check for the error state (R204, R205). -/
theorem exec_cbyte (s : State) (c : CCtx) (b : Byte) :
    exec (.cbyte c b) s = s.command (if s.gen c = 0 then .error .divideByZeroPolynomial
      else .ok (s.setReg c (crcByte (s.gen c) (s.reg c) b))) := by
  rw [exec, execCbyte, cbyte]
  split <;> rfl

/-- CBUF past the check for the error state: the range, then the generator (R206, R53). -/
theorem exec_cbuf (s : State) (c : CCtx) (cnt : BitVec 8) (addr : BitVec 12) :
    exec (.cbuf c cnt addr) s = s.command (if 4096 < addr.toNat + cnt.toNat then .error .addressRange
      else if s.gen c = 0 then .error .divideByZeroPolynomial
      else .ok (s.setReg c ((s.readBytes addr.toNat cnt.toNat).foldl (crcByte (s.gen c)) (s.reg c)))) := by
  have haddr := addr.isLt
  rw [exec, execCbuf]
  rcases s.memRead_cases (address addr) (unsignedImm cnt) with ⟨hread, _, hover⟩ | ⟨hread, hfit⟩ <;> rw [hread]
  · rw [if_pos (show 4096 < addr.toNat + cnt.toNat from hover)]
  · have hin : ¬4096 < addr.toNat + cnt.toNat := by
      simp only [address, unsignedImm, Config.dsize] at hfit
      omega
    rw [if_neg hin]
    dsimp only
    rw [cbufBody]
    split <;> rfl

section Endings
variable {i : Instr} {s : State} (he : s.err = false) {c : CCtx}
include he

theorem writesContext_of_setReg {r : Word} (h : exec i s = s.command (.ok (s.setReg c r))) :
    WritesContext i s c (s.gen c) r :=
  h.trans (State.command_ok he _)

theorem writesContext_of_loadGen {g : Word} (h : exec i s = s.command (.ok (s.loadGen c g))) :
    WritesContext i s c g 0 :=
  h.trans (State.command_ok he _)

theorem cgenl_writesContext (imm : BitVec 16) : WritesContext (.cgenl c imm) s c (imm.setWidth 32) 0 :=
  writesContext_of_loadGen he rfl

theorem cgenh_writesContext (imm : BitVec 16) :
    WritesContext (.cgenh c imm) s c (imm ++ (s.gen c).extractLsb' 0 16) 0 :=
  writesContext_of_loadGen he rfl

theorem cbyte_writesContext (hg : s.gen c ≠ 0) (b : Byte) :
    WritesContext (.cbyte c b) s c (s.gen c) (crcByte (s.gen c) (s.reg c) b) :=
  writesContext_of_setReg he (by rw [exec_cbyte, if_neg hg])

theorem cbuf_writesContext (hg : s.gen c ≠ 0) {cnt : BitVec 8} {addr : BitVec 12}
    (hfit : addr.toNat + cnt.toNat ≤ 4096) :
    WritesContext (.cbuf c cnt addr) s c (s.gen c)
      ((s.readBytes addr.toNat cnt.toNat).foldl (crcByte (s.gen c)) (s.reg c)) :=
  writesContext_of_setReg he (by rw [exec_cbuf, if_neg (not_lt.2 hfit), if_neg hg])

end Endings

namespace LeavesContext
variable {is js : List Instr} {i : Instr} {s : State} {c : CCtx} {g g' r r' : Word}

theorem nil (s : State) (c : CCtx) : LeavesContext [] s c (s.gen c) (s.reg c) :=
  ⟨s, rfl, by rw [show s.c.set c ⟨s.gen c, s.reg c⟩ = s.c from Vector.set_getElem_self _]⟩

theorem of_writesContext (h : WritesContext i s c g r) : LeavesContext [i] s c g r :=
  ⟨_, runCommands_cons h [], rfl⟩

/-- The state the commands leave, read through the accessors. -/
theorem exists_next (h : LeavesContext is s c g r) : ∃ t, runCommands is s = .next t ∧ t.err = s.err ∧
    t.dmem = s.dmem ∧ t.gen c = g ∧ t.reg c = r ∧ ∀ c', c' ≠ c → t.gen c' = s.gen c' ∧ t.reg c' = s.reg c' := by
  obtain ⟨t, hrun, ht⟩ := h
  have hc : t.c = s.c.set c ⟨g, r⟩ := by rw [ht]
  refine ⟨t, hrun, by rw [ht], by rw [ht], ?_, ?_, fun c' hne => ?_⟩
  · simp [State.gen, hc]
  · simp [State.reg, hc]
  · have hval : (c : Nat) ≠ c' := fun h => hne (Fin.ext h.symm)
    simp [State.gen, State.reg, hc, hval]

/-- One stretch of commands after another: the second meets the state the first leaves. -/
theorem append (h : LeavesContext is s c g r)
    (hj : ∀ t : State, t.err = s.err → t.dmem = s.dmem → t.gen c = g → t.reg c = r → LeavesContext js t c g' r') :
    LeavesContext (is ++ js) s c g' r' := by
  obtain ⟨t, hrun, ht⟩ := h
  obtain ⟨_, hrun', he, hd, hg, hr, _⟩ := exists_next ⟨t, hrun, ht⟩
  cases hrun.symm.trans hrun'
  obtain ⟨u, hrunj, hu⟩ := hj t he hd hg hr
  refine ⟨u, (runCommands_append hrun js).trans hrunj, ?_⟩
  rw [hu, ht]
  simp

end LeavesContext

section Feeding
variable {s : State} {c : CCtx} (he : s.err = false) (hg : s.gen c ≠ 0)
include he hg

/-- A stream fed by a CBYTE for each byte (R205). -/
theorem cbytes_leaveContext (bytes : List Byte) :
    LeavesContext (bytes.map fun b => .cbyte c b) s c (s.gen c) (bytes.foldl (crcByte (s.gen c)) (s.reg c)) := by
  induction bytes generalizing s with
  | nil => exact .nil s c
  | cons b bytes ih =>
    refine (LeavesContext.of_writesContext (cbyte_writesContext he hg b)).append fun t hte _ htg htr => ?_
    have hrest := ih (s := t) (hte.trans he) (htg ▸ hg)
    rwa [htg, htr] at hrest

/-- A stream that lies in DMEM in stretches, each fed by a CBUF (R206). -/
theorem cbufs_leaveContext {parts : List (BitVec 8 × BitVec 12)}
    (hfit : ∀ x ∈ parts, x.2.toNat + x.1.toNat ≤ 4096) :
    LeavesContext (parts.map fun x => .cbuf c x.1 x.2) s c (s.gen c)
      ((parts.flatMap fun x => s.readBytes x.2.toNat x.1.toNat).foldl (crcByte (s.gen c)) (s.reg c)) := by
  induction parts generalizing s with
  | nil => exact .nil s c
  | cons x parts ih =>
    obtain ⟨hx, hparts⟩ := List.forall_mem_cons.1 hfit
    refine (LeavesContext.of_writesContext (cbuf_writesContext he hg hx)).append fun t hte htd htg htr => ?_
    have hrest := ih (s := t) (hte.trans he) (htg ▸ hg) hparts
    simp only [State.readBytes_congr htd] at hrest
    rwa [htg, htr, ← List.foldl_append] at hrest

end Feeding

/-! The halves of a generator (R201, R202). -/

theorem low_half_toNat (lo : BitVec 16) : (lo.setWidth 32).toNat = lo.toNat :=
  BitVec.toNat_setWidth_of_le (by decide)

theorem halves_toNat (hi : BitVec 16) (g : Word) :
    (hi ++ g.extractLsb' 0 16).toNat = hi.toNat * 65536 + g.toNat % 65536 := by
  rw [toNat_append_add, BitVec.extractLsb'_toNat, Nat.shiftRight_zero]
  norm_num

theorem halves_of_low (hi lo : BitVec 16) : hi ++ (lo.setWidth 32).extractLsb' 0 16 = hi ++ lo := by
  apply BitVec.eq_of_toNat_eq
  rw [halves_toNat, low_half_toNat, toNat_append_add, Nat.mod_eq_of_lt lo.isLt]
  norm_num

theorem zero_high_half (lo : BitVec 16) : (0 : BitVec 16) ++ lo = lo.setWidth 32 := by
  apply BitVec.eq_of_toNat_eq
  rw [toNat_append_add, low_half_toNat, BitVec.ofNat_eq_ofNat, BitVec.toNat_zero, Nat.zero_mul, Nat.zero_add]

/-- A non-zero generator loaded by its halves, or by its low half alone where the high one is 0 (R201, R202, R211). -/
theorem load_leavesContext {s : State} {c : CCtx} (he : s.err = false) {lo hi : BitVec 16} {load : List Instr}
    (h : load = [.cgenl c lo, .cgenh c hi] ∨ hi = 0 ∧ load = [.cgenl c lo]) :
    LeavesContext load s c (hi ++ lo) 0 := by
  have hlow := LeavesContext.of_writesContext (cgenl_writesContext (c := c) he lo)
  rcases h with rfl | ⟨rfl, rfl⟩
  · refine hlow.append (js := [.cgenh c hi]) fun t hte _ htg _ => ?_
    have hhigh := LeavesContext.of_writesContext (cgenh_writesContext (c := c) (hte.trans he) hi)
    rwa [htg, halves_of_low] at hhigh
  · rwa [zero_high_half]

/-! ### Words that are no command of the unit (R75) -/

/-- A word the decoder refuses, outside the error state (R252). -/
theorem raisesIllegalCommand_of_decode {w : Word} {s : State} (he : s.err = false) (h : ∃ d, decode w = .error d) :
    RaisesIllegalCommand w s := by
  obtain ⟨d, hd⟩ := h
  rcases runWord_illegal hd s with ⟨he', _⟩ | ⟨_, hrun⟩
  · exact absurd (he.symm.trans he') nofun
  · exact hrun

theorem withC_error {f : BitVec 4} (h : 4 ≤ f.toNat) (k : CCtx → Decoded) : withC f k = .error .contextIndex :=
  dif_neg (not_lt.2 h)

/-- A context index above 3 or a field that must be zero and is not. -/
theorem withZero_withC_error {f : BitVec 4} {unused : Bool} (h : 4 ≤ f.toNat ∨ unused = false) (k : CCtx → Decoded) :
    ∃ d, withZero unused (withC f k) = .error d := by
  cases unused with
  | false => exact ⟨_, rfl⟩
  | true => exact ⟨_, withC_error (h.resolve_right nofun) k⟩

/-! ### The commands -/

/-- Settles O44: each command by its own rule, and the words that fail a check of their operand shape. -/
theorem crcSetUpAndRead : Obligations.CrcSetUpAndRead := by
  intro s c imm he
  refine ⟨⟨_, ?_, cgenl_writesContext he imm⟩, ⟨_, ?_, cgenh_writesContext he imm⟩, writesContext_of_setReg he rfl,
    State.query_ok he _, fun w => ⟨fun ⟨ho, h⟩ => ?_, fun ⟨ho, h⟩ => ?_, fun ⟨ho, h⟩ => ?_⟩⟩
  · exact low_half_toNat imm
  · exact halves_toNat imm (s.gen c)
  · refine raisesIllegalCommand_of_decode he ?_
    have hshape : decode w = decCImm w .cgenl ∨ decode w = decCImm w .cgenh :=
      ho.imp (fun ho => by rw [decode, ho]; rfl) (fun ho => by rw [decode, ho]; rfl)
    rcases hshape with hd | hd <;> rw [hd] <;> exact withZero_withC_error (h.imp id (by simp)) _
  · have hd : decode w = decC w .cinit := by rw [decode, ho]; rfl
    exact raisesIllegalCommand_of_decode he (hd ▸ withZero_withC_error (.inl h) _)
  · have hd : decode w = decReadC w .crd := by rw [decode, ho]; rfl
    exact raisesIllegalCommand_of_decode he (hd ▸ withZero_withC_error (.inl h) _)

/-- Settles O45: the byte step on a legal context with a generator. -/
theorem crcByteIsTheRemainder : Obligations.CrcByteIsTheRemainder := by
  intro s c b hinv he
  refine ⟨fun hg => ?_, fun hg => ?_, fun w ho h => ?_⟩
  · exact takesFault_of_command he (f := .divideByZeroPolynomial) (by rw [exec_cbyte, if_pos hg])
  · exact ⟨_, cbyte_writesContext he hg b, crcByte_spec hg (reg_lt_of_crcLegal hg (hinv.crcs c)) b⟩
  · have hd : decode w = decCByte w .cbyte := by rw [decode, ho]; rfl
    exact raisesIllegalCommand_of_decode he (hd ▸ withZero_withC_error (h.imp id (by simp)) _)

/-- Settles O46: the two checks in their order; past them CBUF and the CBYTE commands fold the byte step over the same
bytes. -/
theorem cbufIsCbyteRepeated : Obligations.CbufIsCbyteRepeated := by
  intro s c cnt addr he
  refine ⟨fun hover => ?_, fun hfit hg => ?_, fun hfit hg => ?_, fun w ho h => ?_⟩
  · exact takesFault_of_command he (f := .addressRange) (by rw [exec_cbuf, if_pos hover])
  · exact takesFault_of_command he (f := .divideByZeroPolynomial)
      (by rw [exec_cbuf, if_neg (not_lt.2 hfit), if_pos hg])
  · refine ⟨_, cbuf_writesContext he hg hfit, ?_⟩
    have hbytes := cbytes_leaveContext he hg (s.readBytes addr.toNat cnt.toNat)
    conv at hbytes => arg 1; rw [s.readBytes_eq_map_range, List.map_map]
    exact hbytes
  · have hd : decode w = decCCntAddr w .cbuf := by rw [decode, ho]; rfl
    exact raisesIllegalCommand_of_decode he (hd ▸ ⟨_, withC_error h _⟩)

/-- Settles O47: the CBYTE commands fold the byte step, and the fold from 0 is the remainder of the stream. -/
theorem crcAgreesWithPolynomialDivision : Obligations.CrcAgreesWithPolynomialDivision := by
  intro s c bytes he hg hr
  obtain ⟨q, r, hdiv, hval⟩ := pdivmod_streamBits hg bytes
  obtain ⟨t, hrun, _, _, htg, htr, _⟩ := (cbytes_leaveContext he hg bytes).exists_next
  refine ⟨q, r, t, hdiv, hrun, htg, ?_⟩
  rw [htr, hr, hval]

/-- Settles O48: the load leaves the generator and a cleared register, either form of feeding folds the byte step over
the stream, and CRD answers what they leave. -/
theorem computeRemainderSequence : Obligations.ComputeRemainderSequence := by
  intro s c bytes lo hi load feed he hg hload hfeed
  have hfed : ∀ t : State, t.err = s.err → t.dmem = s.dmem → t.gen c = hi ++ lo → t.reg c = 0 →
      LeavesContext feed t c (hi ++ lo) (bytes.foldl (crcByte (hi ++ lo)) 0) := by
    intro t hte htd htg htr
    rw [← htg, ← htr]
    have htg0 : t.gen c ≠ 0 := htg ▸ hg
    rcases hfeed with rfl | ⟨parts, hfit, rfl, rfl⟩
    · exact cbytes_leaveContext (hte.trans he) htg0 bytes
    · have hparts := cbufs_leaveContext (hte.trans he) htg0 hfit
      simpa only [State.readBytes_congr htd, State.readBytes_eq_map_range] using hparts
  obtain ⟨q, r, hdiv, hval⟩ := pdivmod_streamBits hg bytes
  obtain ⟨t, hrun, hte, _, _, htr, hother⟩ := ((load_leavesContext he hload).append hfed).exists_next
  have hread : exec (.crd c) t = .next (t.respond (t.reg c)) := State.query_ok (hte.trans he) _
  refine ⟨q, r, t.respond (t.reg c), t.reg c, hdiv, ?_, rfl, htr ▸ hval, hother⟩
  rw [runCommands_append hrun, runCommands_cons hread, runCommands]

/-- Two bytes fed to two contexts: what each leaves depends on its own context only (R208). -/
theorem runCommands_cbyte_pair {s : State} {c c' : CCtx} (hne : c ≠ c') (he : s.err = false) (hg : s.gen c ≠ 0)
    (hg' : s.gen c' ≠ 0) (b b' : Byte) :
    runCommands [.cbyte c b, .cbyte c' b'] s = .next { s with
      c := (s.c.set c ⟨s.gen c, crcByte (s.gen c) (s.reg c) b⟩).set c' ⟨s.gen c', crcByte (s.gen c') (s.reg c') b'⟩
      rsp := some ⟨true, 0⟩ } := by
  obtain ⟨t, ht⟩ : ∃ t, t = { s with
    c := s.c.set c ⟨s.gen c, crcByte (s.gen c) (s.reg c) b⟩, rsp := some ⟨true, 0⟩ } := ⟨_, rfl⟩
  have hfirst : exec (.cbyte c b) s = .next t := ht ▸ cbyte_writesContext he hg b
  have hval : (c : Nat) ≠ c' := fun h => hne (Fin.ext h)
  have hgen : t.gen c' = s.gen c' := by simp [ht, State.gen, hval]
  have hreg : t.reg c' = s.reg c' := by simp [ht, State.reg, hval]
  have hsecond := cbyte_writesContext (s := t) (by rw [ht, he]) (hgen ▸ hg') b'
  rw [hgen, hreg] at hsecond
  rw [runCommands_cons hfirst, runCommands_cons hsecond, runCommands, ht]

/-- Settles O49: each byte is worked out from its own context, and writes to two contexts commute. -/
theorem contextsAreIndependent : Obligations.ContextsAreIndependent := by
  intro s c c' b b' hne he hg hg'
  have hval : (c : Nat) ≠ c' := fun h => hne (Fin.ext h)
  refine ⟨_, runCommands_cbyte_pair hne he hg hg' b b', ?_, _, cbyte_writesContext he hg b, ?_⟩
  · rw [runCommands_cbyte_pair hne.symm he hg' hg b' b, Vector.set_comm _ _ hval]
  · simp [State.reg, hval.symm]

end Sys2Proof.Machine
end

section
/-! The system commands and the host port (44_system_and_host.md R221 to R228): the step as a total function and as the
run of the decoded command, what SETMOD, RDCSR, NOP, ERRCLR, STB and LDB do, and the words of theirs that are illegal. -/

namespace Sys2Proof.Machine

/-! ### The step (R221, R222, R256) -/

theorem exec_answers_next (i : Instr) (s : State) : ∃ t, exec i s = .next t := by
  cases exec_outcome i s with
  | errclr _ h => exact ⟨_, h⟩
  | csr _ _ _ _ h => exact ⟨_, h⟩
  | dropped _ h => exact ⟨_, h⟩
  | faulted _ _ _ h => exact ⟨_, h⟩
  | completed _ _ _ _ _ h => exact ⟨_, h⟩

theorem State.command_answers_next (s : State) (body : Except FaultCode State) : ∃ t, s.command body = .next t := by
  rcases s.command_cases body with ⟨_, h⟩ | ⟨_, _, _, h⟩ | ⟨_, _, _, h⟩ <;> exact ⟨_, h⟩

/-- Settles O10: an idle step and `rst` answer a state at once, a command by its outcome, an illegal word by the fault or
the drop it ends in. -/
theorem everyStepAnswersANextState : Obligations.EveryStepAnswersANextState := by
  intro s
  rcases step_cases s with ⟨_, h⟩ | ⟨_, _, h⟩ | ⟨_, _, i, _, _, h⟩ | ⟨_, _, _, _, _, h⟩
  · exact ⟨_, h⟩
  · exact ⟨_, h⟩
  · exact h ▸ exec_answers_next i _
  · exact h ▸ State.command_answers_next _ _

theorem runWord_of_decode {w : Word} {i : Instr} (hd : decode w = .ok i) (s : State) :
    runWord w s = exec i (s.accept w) := by
  simp only [runWord, hd]

/-- Settles O5: the port takes the word off the list, and the word is accepted and decoded. -/
theorem stepRunsTheDecodedCommand : Obligations.StepRunsTheDecodedCommand := by
  intro s w rest i hev hd
  rw [step_command hev, runWord_of_decode hd]
  rfl

/-! ### SETMOD (R224) -/

theorem legalModulus_iff (m : Nat) : legalModulus m = true ↔ 2 ≤ m ∧ m ≤ 256 := by
  simp [legalModulus]

/-- Settles O51: the two branches of the check; a legal value fits the nine bits of MOD. -/
theorem setmodChoosesTheField : Obligations.SetmodChoosesTheField := by
  intro s m he
  have hexec : exec (.setmod m) s =
      s.command (if legalModulus m.toNat then .ok (s.setModulus m.toNat) else .error .illegalModulus) := rfl
  refine ⟨fun hout => ?_, fun h2 h256 => ?_⟩
  · have hillegal : ¬legalModulus m.toNat = true := by rw [legalModulus_iff]; omega
    rw [if_neg hillegal] at hexec
    exact takesFault_of_command he hexec
  · rw [if_pos ((legalModulus_iff _).2 ⟨h2, h256⟩)] at hexec
    exact ⟨BitVec.ofNat 9 m.toNat, s.m_setModulus (by omega), hexec.trans (State.command_ok he _)⟩

/-! ### RDCSR (R225) -/

/-- Bit 0 is ERR and bit 1 is T (R34). -/
theorem State.status_toNat (s : State) : s.status.toNat = (if s.err then 1 else 0) + (if s.t then 2 else 0) := by
  rw [State.status]
  cases s.err <;> cases s.t <;> rfl

/-- A control register is read in either error state (R248). -/
theorem rdcsr_completesIn {n : BitVec 16} {s : State} {v : Word} (h : s.csr n.toNat = some v) :
    CompletesIn (.rdcsr n) s s v := by
  rw [CompletesIn, exec, execRdcsr, unsignedImm, h]
  rfl

/-- A reserved number is an illegal command (R225). -/
theorem exec_rdcsr_reserved {n : BitVec 16} (h : 3 < n.toNat) (s : State) :
    exec (.rdcsr n) s = s.command (.error .illegalCommand) := by
  have hnone : s.csr n.toNat = none := by
    rw [← Option.isNone_iff_eq_none, ← Option.not_isSome, s.csr_isSome, decide_eq_false (not_le.2 h)]; rfl
  rw [exec, execRdcsr, unsignedImm, hnone]

/-- Settles O52: the four registers one by one, and the reserved numbers as an illegal command faults or is dropped. -/
theorem rdcsrReadsTheControlRegisters : Obligations.RdcsrReadsTheControlRegisters := by
  intro s n
  refine ⟨fun hn => ⟨s.status, ?_, s.status_toNat⟩, fun hn => ⟨s.cause.setWidth 32, ?_, ?_⟩, fun hn => ?_,
    fun hn => ⟨s.modulus.setWidth 32, ?_, ?_⟩, fun hn he => ?_, fun hn he => ?_⟩
  · exact rdcsr_completesIn (hn ▸ rfl)
  · exact rdcsr_completesIn (hn ▸ rfl)
  · exact BitVec.toNat_setWidth_of_le (by decide)
  · exact rdcsr_completesIn (hn ▸ rfl)
  · exact rdcsr_completesIn (hn ▸ rfl)
  · exact BitVec.toNat_setWidth_of_le (by decide)
  · exact takesFault_of_command he (exec_rdcsr_reserved hn s)
  · exact (exec_rdcsr_reserved hn s).trans (State.command_drop he _)

/-! ### NOP and ERRCLR (R223, R226) -/

/-- With no fault recorded there is nothing to clear. -/
theorem State.FaultRecordLegal.clearFault_eq {s : State} (h : s.FaultRecordLegal) (he : s.err = false) :
    s.clearFault = s := by
  obtain ⟨hcause, heinfo⟩ := h.1 he
  rw [State.clearFault, ← he, ← hcause, ← heinfo]

/-- A word whose operand shape is "all fields zero" has no bit below the opcode set. -/
theorem decBare_error {w : Word} (hw : w.extractLsb' 0 24 ≠ 0) (i : Instr) : ∃ d, decBare w i = .error d := by
  cases h : decBare w i with
  | error d => exact ⟨d, rfl⟩
  | ok j =>
    obtain ⟨_, hfmt⟩ := decBare_eq_ok h
    have hzero : ∀ op : BitVec 8, (fmtR op 0 0 0 0).extractLsb' 0 24 = 0 := by decide
    exact absurd (hfmt ▸ hzero (opcode w)) hw

/-- A word the decoder refuses is dropped in the error state (R248). -/
theorem runWord_drop_of_decode {w : Word} {s : State} (he : s.err = true) (h : ∃ d, decode w = .error d) :
    runWord w s = .next (s.accept w).drop := by
  obtain ⟨d, hd⟩ := h
  rcases runWord_illegal hd s with ⟨_, hrun⟩ | ⟨he', _⟩
  · exact hrun
  · exact absurd (he.symm.trans he') nofun

/-- Settles O53: NOP as a command without effect, ERRCLR as the clearing of the fault record, and the words of both that
are not all zero below the opcode. -/
theorem nopAndErrclr : Obligations.NopAndErrclr := by
  intro s
  have herrclr : CompletesIn .errclr s s.clearFault 0 := rfl
  refine ⟨fun he => State.command_ok he s, fun he => State.command_drop he (.ok s), herrclr, fun hinv he => ?_,
    fun w ho hw => ?_⟩
  · rwa [hinv.faultRecord.clearFault_eq he] at herrclr
  · have hd : ∃ d, decode w = .error d := by
      rcases ho with ho | ho
      · rw [show decode w = decBare w .nop by rw [decode, ho]; rfl]; exact decBare_error hw _
      · rw [show decode w = decBare w .errclr by rw [decode, ho]; rfl]; exact decBare_error hw _
    exact ⟨fun he => raisesIllegalCommand_of_decode he hd, fun he => runWord_drop_of_decode he hd⟩

/-! ### STB and LDB (R227, R228) -/

/-- A single byte at a 12-bit address is inside DMEM, so STB never faults. -/
theorem stb_writesBytes {s : State} (he : s.err = false) (addr : BitVec 12) (b : Byte) :
    WritesBytes (.stb addr b) s addr.toNat [b] :=
  writesBytes_of_command he (show execStb addr b s = _ by rw [execStb, State.memWrite_one]; rfl)

/-- Nor does LDB. -/
theorem ldb_completesIn {s : State} (he : s.err = false) (addr : BitVec 12) :
    CompletesIn (.ldb addr) s s (zext (s.readByte addr.toNat)) :=
  show execLdb addr s = _ by rw [execLdb, State.memRead_one]; exact State.execute_ok he _

/-- A field the operand shape does not use is not zero (R73 step 2). -/
theorem withZero_error {unused : Bool} (h : unused = false) (k : Decoded) : ∃ d, withZero unused k = .error d :=
  ⟨.nonzeroField, h ▸ rfl⟩

/-- Settles O54: the store, the load, the load from the state the store leaves, and the words with a non-zero unused
field. -/
theorem hostBytes : Obligations.HostBytes := by
  intro s addr b he
  have hstore := stb_writesBytes he addr b
  refine ⟨hstore, ⟨_, zext_toNat _, ldb_completesIn he addr⟩, ?_, fun w => ⟨fun ⟨ho, h⟩ => ?_, fun ⟨ho, h⟩ => ?_⟩⟩
  · obtain ⟨mem, hstb, hread⟩ := hstore
    have hbyte : { s with dmem := mem }.readByte addr.toNat = b := by simp [hread]
    have hldb := ldb_completesIn (s := { s with dmem := mem, rsp := some ⟨true, 0⟩ }) he addr
    exact ⟨_, _, (runCommands_cons hstb _).trans (runCommands_cons hldb _), rfl,
      (zext_toNat _).trans (congrArg BitVec.toNat hbyte)⟩
  · have hd : decode w = decByteAddr w .stb := by rw [decode, ho]; rfl
    exact raisesIllegalCommand_of_decode he (hd ▸ withZero_error (beq_false_of_ne h) _)
  · have hd : decode w = decAddr w .ldb := by rw [decode, ho]; rfl
    have hunused := Bool.and_eq_false_iff.2 (h.imp beq_false_of_ne beq_false_of_ne)
    exact raisesIllegalCommand_of_decode he (hd ▸ withZero_error hunused _)

end Sys2Proof.Machine
end

section
/-! Faults and the error state (60_exceptions.md R246 to R248, R252): which words run while ERR = 1, what a word that
raises IllegalCommand does, what a fault changes, and the step with nothing presented (R262, R272). -/

namespace Sys2Proof.Machine

/-! ### The step with nothing presented -/

/-- Settles O11: the port's rule for the empty list of events. -/
theorem idleStepChangesNothing : Obligations.IdleStepChangesNothing := fun _ hev => step_idle hev

/-! ### Words that raise IllegalCommand (R252) -/

/-- A word that does not decode and a word of RDCSR above 3 are one and the same to the step. -/
theorem runWord_eq_illegalCommand {w : Word}
    (h : (∀ i, decode w ≠ .ok i) ∨ ∃ n : BitVec 16, 3 < n.toNat ∧ decode w = .ok (.rdcsr n)) (s : State) :
    runWord w s = (s.accept w).command (.error .illegalCommand) := by
  rcases h with h | ⟨n, hn, hd⟩
  · cases hd : decode w with
    | error d => simp only [runWord, hd]
    | ok i => exact absurd hd (h i)
  · rw [runWord_of_decode hd, exec_rdcsr_reserved hn]

/-- Settles O6: the fault of the illegal command while ERR = 0, and its drop while ERR = 1. -/
theorem illegalWordsFault : Obligations.IllegalWordsFault := by
  intro s w rest hev h
  rw [step_command hev, runWord_eq_illegalCommand h]
  exact ⟨fun he => State.command_error (s := { s with events := rest }.accept w) he _,
    fun he => State.command_drop (s := { s with events := rest }.accept w) he _⟩

/-! ### Faults are precise (R246, R247) -/

/-- A command that sets ERR has taken a fault that is raised: ERRCLR, RDCSR of a control register and a completed
command leave ERR = 0 as it is. -/
theorem exec_eq_takeFault {i : Instr} {s t : State} (he : s.err = false) (h : exec i s = .next t) (ht : t.err = true) :
    ∃ f : FaultCode, f ≠ .crossFieldOperand ∧ t = s.takeFault f := by
  cases exec_outcome i s with
  | errclr _ ho => cases ho.symm.trans h; cases ht
  | csr _ _ _ _ ho => cases ho.symm.trans h; exact absurd (he.symm.trans ht) nofun
  | dropped he' _ => exact absurd (he.symm.trans he') nofun
  | faulted _ f hf ho => cases ho.symm.trans h; exact ⟨f, hf, rfl⟩
  | completed _ u _ hu _ ho =>
    cases ho.symm.trans h
    obtain ⟨herr, _⟩ := hu.faultRecord_frame
    exact absurd ((herr.trans he).symm.trans ht) nofun

/-- So has every accepted word that sets ERR. -/
theorem runWord_eq_takeFault {w : Word} {s t : State} (he : s.err = false) (h : runWord w s = .next t)
    (ht : t.err = true) : ∃ f : FaultCode, f ≠ .crossFieldOperand ∧ t = (s.accept w).takeFault f := by
  cases hd : decode w with
  | error d =>
    have hfault : runWord w s = .next ((s.accept w).takeFault .illegalCommand) :=
      raisesIllegalCommand_of_decode he ⟨d, hd⟩
    cases hfault.symm.trans h
    exact ⟨.illegalCommand, nofun, rfl⟩
  | ok i => exact exec_eq_takeFault (s := s.accept w) he ((runWord_of_decode hd s).symm.trans h) ht

/-- Settles O13: the word has taken a fault, and fault entry is the three writes and the response. -/
theorem faultsArePrecise : Obligations.FaultsArePrecise := by
  intro s t w rest he hev hst ht
  rw [step_command hev] at hst
  obtain ⟨f, hf, rfl⟩ := runWord_eq_takeFault (s := { s with events := rest }) he hst ht
  exact ⟨f.code, FaultCode.code_mem hf, rfl⟩

/-! ### The error state (R248) -/

/-- Decoder and encoder are inverse, so a well-formed command has one word (O1, O2). -/
theorem decode_eq_ok_iff {w : Word} {i : Instr} (hi : i.wellFormed = true) : decode w = .ok i ↔ w = encode i := by
  refine ⟨fun h => ?_, fun h => h ▸ decodeInvertsEncode i hi⟩
  obtain ⟨_, henc⟩ := encodeInvertsDecode w i h
  exact henc.symm

/-- While ERR = 1 every word is dropped but the word of ERRCLR and those of RDCSR 0..3. -/
theorem runWord_drop {w : Word} {s : State} (he : s.err = true) (herrclr : w ≠ encode .errclr)
    (hrdcsr : ∀ n : BitVec 16, n.toNat ≤ 3 → w ≠ encode (.rdcsr n)) : runWord w s = .next (s.accept w).drop := by
  cases hd : decode w with
  | error d => exact runWord_drop_of_decode he ⟨d, hd⟩
  | ok i =>
    rw [runWord_of_decode hd]
    cases exec_outcome i (s.accept w) with
    | errclr hi _ => exact absurd ((decode_eq_ok_iff rfl).1 (hi ▸ hd)) herrclr
    | csr n _ hi hv _ => exact absurd ((decode_eq_ok_iff rfl).1 (hi ▸ hd)) (hrdcsr n (State.csr_some_le hv))
    | dropped _ ho => exact ho
    | faulted he' _ _ _ => exact absurd (he.symm.trans he') nofun
    | completed he' _ _ _ _ _ => exact absurd (he.symm.trans he') nofun

/-- The word of ERRCLR clears the fault record in either error state (R226). -/
theorem runWord_errclr (s : State) :
    runWord (encode .errclr) s = .next ((s.accept (encode .errclr)).clearFault.respond 0) :=
  runWord_of_decode (decodeInvertsEncode .errclr rfl) s

/-- The word of RDCSR answers a control register in either error state (R225). -/
theorem runWord_rdcsr {n : BitVec 16} {s : State} {v : Word} (h : s.csr n.toNat = some v) :
    runWord (encode (.rdcsr n)) s = .next ((s.accept (encode (.rdcsr n))).respond v) :=
  (runWord_of_decode (decodeInvertsEncode (.rdcsr n) rfl) s).trans (rdcsr_completesIn (s := s.accept _) h)

/-- STATUS in the error state: bit 0 set, bit 1 the flag T (R34). -/
theorem State.status_of_err {s : State} (he : s.err = true) : s.status = if s.t then 3 else 1 := by
  rw [State.status, he]
  cases s.t <;> rfl

/-- Settles O12: the five words that run, one by one, and the drop of every other. -/
theorem errorStateDropsAllButTwo : Obligations.ErrorStateDropsAllButTwo := by
  intro s w rest he hev
  rw [step_command hev, ← State.status_of_err he]
  split_ifs with hclr hstatus hcause heinfo hmod
  · exact hclr ▸ runWord_errclr _
  · exact hstatus ▸ runWord_rdcsr (n := 0) rfl
  · exact hcause ▸ runWord_rdcsr (n := 1) rfl
  · exact heinfo ▸ runWord_rdcsr (n := 2) rfl
  · exact hmod ▸ runWord_rdcsr (n := 3) rfl
  · refine runWord_drop (s := { s with events := rest }) he hclr fun n hn => ?_
    have hcases : n = 0 ∨ n = 1 ∨ n = 2 ∨ n = 3 := by bv_omega
    rcases hcases with rfl | rfl | rfl | rfl
    · exact hstatus
    · exact hcause
    · exact heinfo
    · exact hmod

end Sys2Proof.Machine
end

section
/-! Reset (70_reset_and_hazards.md R271): what each register reads after it (10_state.md R36), and the invariants. -/

namespace Sys2Proof.Machine

/-! ### What the registers read after reset -/

@[simp] theorem State.elem_applyReset (s : State) (i : EReg) : s.applyReset.elem i = 0 :=
  Vector.getElem_replicate i.isLt

@[simp] theorem State.poly_applyReset (s : State) (i : PReg) : s.applyReset.poly i = [] :=
  Vector.getElem_replicate i.isLt

/-- Every CRC context is without a generator and has a cleared register. -/
theorem State.context_applyReset (s : State) (i : CCtx) : s.applyReset.c[i] = ⟨0, 0⟩ :=
  Vector.getElem_replicate i.isLt

@[simp] theorem State.gen_applyReset (s : State) (i : CCtx) : s.applyReset.gen i = 0 :=
  congrArg CrcContext.gen (s.context_applyReset i)

@[simp] theorem State.reg_applyReset (s : State) (i : CCtx) : s.applyReset.reg i = 0 :=
  congrArg CrcContext.reg (s.context_applyReset i)

@[simp] theorem State.m_applyReset (s : State) : s.applyReset.m = 2 := rfl

/-- DMEM survives reset, the bytes that nothing has written included (R37, R271). -/
@[simp] theorem State.readByte_applyReset (s : State) (a : Nat) : s.applyReset.readByte a = s.readByte a :=
  State.readByte_congr (State.applyReset_dmem s) a

/-! ### The statements -/

/-- Settles O8: reset is where the invariants start. -/
theorem resetMeetsTheInvariant : Obligations.ResetMeetsTheInvariant := State.reset_inv

/-- Settles O7: the port takes the `rst` off the host's list and applies the reset, whose registers read as above. -/
theorem resetEventGivesResetValues : Obligations.ResetEventGivesResetValues := by
  intro s rest hev
  exact ⟨State.applyReset { s with events := rest }, step_rst hev,
    State.elem_applyReset _, State.poly_applyReset _, fun i => ⟨State.gen_applyReset _ i, State.reg_applyReset _ i⟩,
    State.m_applyReset _, State.applyReset_t _, State.applyReset_err _, State.applyReset_cause _,
    State.applyReset_einfo _, State.readByte_applyReset { s with events := rest },
    fun hdmem => State.applyReset_inv (s := { s with events := rest }) hdmem,
    State.applyReset_cmd _, State.applyReset_rsp _, State.applyReset_events _⟩

end Sys2Proof.Machine
end
